-- ==== Sys2Proof/Config.lean ====
section
/-! DEFINITION. The parameters of 00_scope.md R6 (fixed, one named constant each) and R7 (open), and the free values of
40_execution_cycle.md R132 and of the observer's ticks (R127). A constant declared `opaque` has no body: no proof can see its
value, so whatever is proved holds for every value. Each parameter of R6 is written as a number here and nowhere else in the
model: the widths of Word.lean, the sizes of the memories and the layout of the tables read these names (Log 18). -/

namespace Sys2Proof.Config

/-- CELL_BITS: the width of a cell. -/
abbrev cellBits : Nat := 8
/-- ADDR_BITS: the width of an address. -/
abbrev addrBits : Nat := 16
/-- SP_BITS: the width of a stack pointer. -/
abbrev spBits : Nat := 16
/-- RAM_SIZE: the number of RAM cells. -/
def ramSize : Nat := 65536
/-- IMEM_SIZE: the number of instruction-memory slots. -/
def imemSize : Nat := 65536
/-- STACK_CELLS: the number of cells of a stack's backing array. -/
def stackCells : Nat := 65536
/-- TABLE_SLOTS: the slots of one address table. -/
def tableSlots : Nat := 32
/-- SLOT_BYTES: the bytes of one table slot. -/
def slotBytes : Nat := 2
/-- TABLE_BYTES, which is TABLE_SLOTS * SLOT_BYTES: the bytes of one address table. -/
def tableBytes : Nat := tableSlots * slotBytes
/-- LOAD_BASE: where the LOAD table begins. -/
def loadBase : Nat := 0
/-- CALL_BASE: where the CALL table begins, after the LOAD table. -/
def callBase : Nat := loadBase + tableBytes
/-- JMPA_BASE: where the JMP-absolute table begins, after the CALL table. -/
def jmpaBase : Nat := callBase + tableBytes
/-- PROGRAM_BASE: the address of the first program record, after the tables. -/
def programBase : Nat := jmpaBase + tableBytes
/-- INDEX_BITS: the offset bits of a table-indirect instruction. -/
abbrev indexBits : Nat := 5
/-- FLAG_COUNT: the number of flags. -/
abbrev flagCount : Nat := 3

/-- STACK_EMPTY_SP, the sentinel stack pointer of an empty stack: 0 by the spec's decision D6 (R7). -/
def stackEmptySp : BitVec spBits := 0

/-- The domain of DIV_ROUNDING (R7, 41_alu.md R151). -/
inductive DivRounding where
  /-- The quotient is rounded toward zero. -/
  | trunc
  /-- The quotient is rounded toward minus infinity. -/
  | floor
deriving DecidableEq, Repr, Inhabited

/-- The domain of INCDEC_OVF_RULE (R7, 41_alu.md R157, R158). -/
inductive IncDecOvf where
  /-- V is cleared by an INC that does not wrap and by every DEC. -/
  | clear
  /-- V is kept by an INC that does not wrap and by every DEC. -/
  | keep
deriving DecidableEq, Repr, Inhabited

/-- DIV_ROUNDING (R7, decision D17: OPEN). -/
opaque divRounding : DivRounding
/-- INCDEC_OVF_RULE (R7, decision D20: OPEN). -/
opaque incDecOvf : IncDecOvf
/-- TRUE_CELL, the cell TRUE pushes (R7, decision D11: OPEN). -/
opaque trueCell : BitVec cellBits
/-- FALSE_CELL, the cell FALSE pushes (R7, decision D11: OPEN). -/
opaque falseCell : BitVec cellBits
/-- T24_SIGNED: whether TDIV and TMOD read two's-complement operands (R7, decision D22: OPEN). -/
opaque t24Signed : Bool

/-- The n-th free flag value of a run: V after CMP, and Z, N, V after TDIV and TMOD (R132; decisions D21, D22). -/
opaque freeFlag : Nat → Bool
/-- The n-th free surplus of ticks: what an instruction adds beyond the ticks the spec fixes (R127, R132; decision D28). -/
opaque freeTicks : Nat → Nat

/-! What the spec leaves open of the ticks an observer sees (40_execution_cycle.md R127), each a free value: the first number is
the run's count of free values at the instruction, a second the tick within it (Log 9). -/

/-- The registers an observer sees (60_exceptions.md R268), the flags one by one. -/
inductive Seen where
  | pc
  | dsSp
  | dsTos
  | rsSp
  | rsTos
  | z
  | n
  | v
deriving DecidableEq, Repr, Inhabited

/-- How many of an instruction's ticks come before the fetch has advanced pc. -/
opaque fetchTicks : Nat → Nat
/-- How many ticks then come before the instruction is decoded. -/
opaque decodeTicks : Nat → Nat
/-- The tick from which a register that one transfer writes shows its new value. -/
opaque writeTick : Nat → Seen → Nat
/-- A stack pointer at a tick of an instruction that moves it more than once. -/
opaque seenSp : Nat → Nat → Seen → BitVec spBits
/-- A cached top at a tick of an instruction that writes it more than once. -/
opaque seenTos : Nat → Nat → Seen → BitVec cellBits
/-- pc at a tick of a table-indirect jump that faults. -/
opaque seenPc : Nat → Nat → BitVec addrBits
/-- A flag at a tick of an instruction that leaves it a free value, or that faults. -/
opaque seenFlag : Nat → Nat → Seen → Bool
/-- How many of an instruction's unsettled ticks come before its table read. -/
opaque leadTicks : Nat → Nat
/-- How many ticks an instruction that faults has counted when it faults. -/
opaque faultTicks : Nat → Nat

end Sys2Proof.Config
end

