-- ==== Sys2Proof/Word.lean ====
section
/-! DEFINITION. The machine's units of storage, at the widths that Config names (00_scope.md R6, R8). -/

namespace Sys2Proof

/-- A cell: a RAM byte, a stack element, a table byte. It is stored unsigned; `BitVec.toInt` is the spec's `s8` and
`BitVec.ofInt` its `u8` (R8). -/
abbrev Cell := BitVec Config.cellBits

/-- An address of RAM or of instruction memory, and the registers pc and `ad`; two cells wide (20_memory.md R61, R68). -/
abbrev Addr := BitVec Config.addrBits

/-- A stack pointer. -/
abbrev StackPtr := BitVec Config.spBits

/-- A 24-bit operand of TDIV and TMOD: three cells (41_alu.md R160). -/
abbrev Triple := BitVec (Config.cellBits + Config.cellBits + Config.cellBits)

/-- One word of the reference packing of an instruction-memory slot (30_encoding.md R101). -/
abbrev SlotWord := BitVec 32

end Sys2Proof
end

