-- ==== Sys2Proof/Record.lean ====
section
/-! DEFINITION. The data of instruction memory: the instruction record of 30_encoding.md R90, the opcode set of R92, the
slot of 20_memory.md R64, and the reasons a decoder refuses. -/

namespace Sys2Proof

/-- The debug metadata of a record: "originating token index/text" (R90, R91). -/
structure Debug where
  tokenIndex : Nat
  tokenText  : String
deriving DecidableEq, Repr

/-- An instruction record `{opcode, offset, debug}` as the image holds it (R90): the tag is any string and the offset
any integer or absent; decode judges them. -/
structure Record where
  opcode : String
  offset : Option Int
  debug  : Option Debug
deriving DecidableEq, Repr

/-- One slot of instruction memory (20_memory.md R64). -/
inductive Slot where
  /-- `Data(b)`: a byte of an address table. -/
  | data (b : Cell)
  /-- `Instr(r)`: an instruction record. -/
  | instr (r : Record)
  /-- `Empty`: a slot at or beyond the image's length. -/
  | empty
deriving DecidableEq, Repr

/-- The 32 opcode tags (R92), in the order of the opcode numbers (R103). `OVER`, `TRUE`, `FALSE` are `overCell`,
`pushTrue`, `pushFalse` (`over`, `true`, `false` are words of Lean or Mathlib). -/
inductive Mnemonic where
  | sum | sub | mul | div | mod | dup | drop | swap | overCell | rot | tor | rfrom | get | set | print | read
  | inc | dec | cmp | pushTrue | pushFalse | ret | hlt | tmod | tdiv | jmpr | jz | jl | jo | load | call | jmpa
deriving DecidableEq, Repr

/-- The three operand classes (R92). -/
inductive OperandClass where
  /-- No operand (R93). -/
  | direct
  /-- A signed displacement (R94). -/
  | relative
  /-- An index into one of the three tables (R95). -/
  | table
deriving DecidableEq, Repr

/-- Why a record spells no instruction (R96 to R99). -/
inductive DecodeError where
  /-- The tag is not one of the 32 mnemonics (R99). -/
  | unknownTag
  /-- A direct instruction carries an offset (R97). -/
  | offsetOnDirect
  /-- A relative or table instruction carries no offset (R96). -/
  | offsetMissing
  /-- A table index is outside 0..31 (R98). -/
  | indexOutOfRange
deriving DecidableEq, Repr

/-- Why a word of the reference packing is `Invalid` (R104, R105). -/
inductive InvalidReason where
  /-- A data word with `W[30:8] ≠ 0`. -/
  | dataWordTooWide
  /-- An instruction word with the reserved bit 30 set. -/
  | reservedBitSet
  /-- P or OFF breaks R101 for the word's class. -/
  | operandField
deriving DecidableEq, Repr

end Sys2Proof
end

