-- ==== Sys2Proof/Syntax.lean ====
section
/-! DEFINITION. The instruction set: one constructor per row of spec/opcode_table.json, in the order of the opcode
numbers (30_encoding.md R103). -/

namespace Sys2Proof

/-- A decoded instruction. A relative instruction carries its displacement, any integer (R94); a table-indirect one its
table index, which `Instr.wf` bounds to 0..31 (R95, R98). -/
inductive Instr where
  /-- SUM (41_alu.md R152). -/
  | sum
  /-- SUB (R153). -/
  | sub
  /-- MUL (R154). -/
  | mul
  /-- DIV (R155). -/
  | div
  /-- MOD (R156). -/
  | mod
  /-- DUP (42_stack_ops.md R181). -/
  | dup
  /-- DROP (R182). -/
  | drop
  /-- SWAP (R183). -/
  | swap
  /-- OVER (R184). -/
  | overCell
  /-- ROT (R185). -/
  | rot
  /-- TOR (R186). -/
  | tor
  /-- RFROM (R187). -/
  | rfrom
  /-- GET (43_memory_io.md R202). -/
  | get
  /-- SET (R203). -/
  | set
  /-- PRINT (R204). -/
  | print
  /-- READ (R205). -/
  | read
  /-- INC (41_alu.md R157). -/
  | inc
  /-- DEC (R158). -/
  | dec
  /-- CMP (R159). -/
  | cmp
  /-- TRUE (42_stack_ops.md R188). -/
  | pushTrue
  /-- FALSE (R189). -/
  | pushFalse
  /-- RET (44_control_transfer.md R228). -/
  | ret
  /-- HLT (R229). -/
  | hlt
  /-- TMOD (41_alu.md R162). -/
  | tmod
  /-- TDIV (R161). -/
  | tdiv
  /-- JMPR off (44_control_transfer.md R222). -/
  | jmpr (off : Int)
  /-- JZ off (R223). -/
  | jz (off : Int)
  /-- JL off (R224). -/
  | jl (off : Int)
  /-- JO off (R225). -/
  | jo (off : Int)
  /-- LOAD i (43_memory_io.md R201). -/
  | load (i : Nat)
  /-- CALL i (44_control_transfer.md R227). -/
  | call (i : Nat)
  /-- JMPA i (R226). -/
  | jmpa (i : Nat)
deriving DecidableEq, Repr

end Sys2Proof
end

