-- ==== Sys2Proof/WellFormed.lean ====
section
/-! DEFINITION. Which instructions decode can yield (`Instr.wf`) and which of them the reference packing has a word for
(`Instr.packable`). -/

namespace Sys2Proof

/-- Well-formed at the record level: a table index is in 0..31 (30_encoding.md R95, R98). A relative offset is any
integer (R94). -/
def Instr.wf : Instr → Bool
  | .load i | .call i | .jmpa i => decide (i < Config.tableSlots)
  | .jmpr _ | .jz _ | .jl _ | .jo _
  | .sum | .sub | .mul | .div | .mod | .dup | .drop | .swap | .overCell | .rot | .tor | .rfrom | .get | .set | .print
  | .read | .inc | .dec | .cmp | .pushTrue | .pushFalse | .ret | .hlt | .tmod | .tdiv => Bool.true

/-- Has a word of the reference packing: a relative offset lies in -2^23..2^23-1 (R101, R106). -/
def Instr.packable : Instr → Bool
  | .jmpr off | .jz off | .jl off | .jo off => decide (-8388608 ≤ off ∧ off ≤ 8388607)
  | .load _ | .call _ | .jmpa _
  | .sum | .sub | .mul | .div | .mod | .dup | .drop | .swap | .overCell | .rot | .tor | .rfrom | .get | .set | .print
  | .read | .inc | .dec | .cmp | .pushTrue | .pushFalse | .ret | .hlt | .tmod | .tdiv => Bool.true

end Sys2Proof
end

