-- ==== Sys2Proof/Decode.lean ====
section
/-! DEFINITION. Decoding and encoding, at the record level (30_encoding.md R90 to R100, 40_execution_cycle.md R122),
which governs, and in the reference packing (R101 to R106). Every function is total. -/

namespace Sys2Proof

/-- The 32 tags in the order of their opcode numbers (R103). -/
def Mnemonic.all : List Mnemonic :=
  [.sum, .sub, .mul, .div, .mod, .dup, .drop, .swap, .overCell, .rot, .tor, .rfrom, .get, .set, .print, .read] ++
  [.inc, .dec, .cmp, .pushTrue, .pushFalse, .ret, .hlt, .tmod, .tdiv, .jmpr, .jz, .jl, .jo, .load, .call, .jmpa]

/-- The spelling of a tag (R92). -/
def Mnemonic.name : Mnemonic → String
  | .sum => "SUM"
  | .sub => "SUB"
  | .mul => "MUL"
  | .div => "DIV"
  | .mod => "MOD"
  | .dup => "DUP"
  | .drop => "DROP"
  | .swap => "SWAP"
  | .overCell => "OVER"
  | .rot => "ROT"
  | .tor => "TOR"
  | .rfrom => "RFROM"
  | .get => "GET"
  | .set => "SET"
  | .print => "PRINT"
  | .read => "READ"
  | .inc => "INC"
  | .dec => "DEC"
  | .cmp => "CMP"
  | .pushTrue => "TRUE"
  | .pushFalse => "FALSE"
  | .ret => "RET"
  | .hlt => "HLT"
  | .tmod => "TMOD"
  | .tdiv => "TDIV"
  | .jmpr => "JMPR"
  | .jz => "JZ"
  | .jl => "JL"
  | .jo => "JO"
  | .load => "LOAD"
  | .call => "CALL"
  | .jmpa => "JMPA"

/-- The tag a string spells, if it is one of the 32 (R92, R99). -/
def Mnemonic.ofName (text : String) : Option Mnemonic :=
  Mnemonic.all.find? fun m => decide (m.name = text)

/-- The opcode number of a tag (R103). -/
def Mnemonic.op : Mnemonic → BitVec 5
  | .sum => 0
  | .sub => 1
  | .mul => 2
  | .div => 3
  | .mod => 4
  | .dup => 5
  | .drop => 6
  | .swap => 7
  | .overCell => 8
  | .rot => 9
  | .tor => 10
  | .rfrom => 11
  | .get => 12
  | .set => 13
  | .print => 14
  | .read => 15
  | .inc => 16
  | .dec => 17
  | .cmp => 18
  | .pushTrue => 19
  | .pushFalse => 20
  | .ret => 21
  | .hlt => 22
  | .tmod => 23
  | .tdiv => 24
  | .jmpr => 25
  | .jz => 26
  | .jl => 27
  | .jo => 28
  | .load => 29
  | .call => 30
  | .jmpa => 31

/-- The tag of an opcode number; every one of the 32 numbers has a tag (R103). -/
def Mnemonic.ofOp (op : BitVec 5) : Mnemonic :=
  Mnemonic.all.getD op.toNat .jmpa

/-- The operand class of a tag (R92). -/
def Mnemonic.operandClass : Mnemonic → OperandClass
  | .sum | .sub | .mul | .div | .mod | .dup | .drop | .swap | .overCell | .rot | .tor | .rfrom | .get | .set | .print
  | .read | .inc | .dec | .cmp | .pushTrue | .pushFalse | .ret | .hlt | .tmod | .tdiv => .direct
  | .jmpr | .jz | .jl | .jo => .relative
  | .load | .call | .jmpa => .table

/-- The instruction of a direct tag; a tag of another class has none. -/
def directInstr : Mnemonic → Option Instr
  | .sum => some .sum
  | .sub => some .sub
  | .mul => some .mul
  | .div => some .div
  | .mod => some .mod
  | .dup => some .dup
  | .drop => some .drop
  | .swap => some .swap
  | .overCell => some .overCell
  | .rot => some .rot
  | .tor => some .tor
  | .rfrom => some .rfrom
  | .get => some .get
  | .set => some .set
  | .print => some .print
  | .read => some .read
  | .inc => some .inc
  | .dec => some .dec
  | .cmp => some .cmp
  | .pushTrue => some .pushTrue
  | .pushFalse => some .pushFalse
  | .ret => some .ret
  | .hlt => some .hlt
  | .tmod => some .tmod
  | .tdiv => some .tdiv
  | .jmpr | .jz | .jl | .jo | .load | .call | .jmpa => none

/-- The instruction of a relative tag and its displacement; a tag of another class has none. -/
def relativeInstr (m : Mnemonic) (off : Int) : Option Instr :=
  match m with
  | .jmpr => some (.jmpr off)
  | .jz => some (.jz off)
  | .jl => some (.jl off)
  | .jo => some (.jo off)
  | .sum | .sub | .mul | .div | .mod | .dup | .drop | .swap | .overCell | .rot | .tor | .rfrom | .get | .set | .print
  | .read | .inc | .dec | .cmp | .pushTrue | .pushFalse | .ret | .hlt | .tmod | .tdiv
  | .load | .call | .jmpa => none

/-- The instruction of a table-indirect tag and its index; a tag of another class has none. -/
def tableInstr (m : Mnemonic) (i : Nat) : Option Instr :=
  match m with
  | .load => some (.load i)
  | .call => some (.call i)
  | .jmpa => some (.jmpa i)
  | .sum | .sub | .mul | .div | .mod | .dup | .drop | .swap | .overCell | .rot | .tor | .rfrom | .get | .set | .print
  | .read | .inc | .dec | .cmp | .pushTrue | .pushFalse | .ret | .hlt | .tmod | .tdiv
  | .jmpr | .jz | .jl | .jo => none

/-- The instruction of a tag and its optional offset (R93 to R98): the checks of 40_execution_cycle.md R122 after the
tag is known. -/
def decodeParts (m : Mnemonic) (offset : Option Int) : Except DecodeError Instr :=
  match directInstr m, offset with
  | some i, none => .ok i
  | some _, some _ => .error .offsetOnDirect
  | none, none => .error .offsetMissing
  | none, some off =>
    match relativeInstr m off with
    | some i => .ok i
    | none =>
      if 0 ≤ off ∧ off < Config.tableSlots then
        match tableInstr m off.toNat with
        | some i => .ok i
        | none => .error .unknownTag
      else .error .indexOutOfRange

/-- Record-level decode (40_execution_cycle.md R122). -/
def decodeRecord (r : Record) : Except DecodeError Instr :=
  match Mnemonic.ofName r.opcode with
  | none => .error .unknownTag
  | some m => decodeParts m r.offset

/-- What a word of the reference packing says (R104). -/
inductive WordDecoding where
  /-- `Data(b)`. -/
  | data (b : Cell)
  /-- An instruction. -/
  | instr (i : Instr)
  /-- `Invalid`, by name. -/
  | invalid (reason : InvalidReason)
deriving DecidableEq, Repr

/-- The instruction a tag and the fields P and OFF of an instruction word give, if they fit the tag's class (R101). -/
def decodeOperand (m : Mnemonic) (p : Bool) (off : BitVec 24) : Option Instr :=
  match m.operandClass with
  | .direct => if p = false ∧ off = 0 then directInstr m else none
  | .relative => if p = true then relativeInstr m off.toInt else none
  | .table =>
    if p = true ∧ off.extractLsb' Config.indexBits (24 - Config.indexBits) = 0 then
      tableInstr m (off.extractLsb' 0 Config.indexBits).toNat
    else none

/-- Packed decode, total on every 32-bit word (R104). -/
def decodeWord (w : SlotWord) : WordDecoding :=
  if w.getLsbD 31 = false then
    if w.extractLsb' Config.cellBits (31 - Config.cellBits) = 0 then .data (w.extractLsb' 0 Config.cellBits)
    else .invalid .dataWordTooWide
  else if w.getLsbD 30 = true then .invalid .reservedBitSet
  else
    match decodeOperand (Mnemonic.ofOp (w.extractLsb' 24 5)) (w.getLsbD 29) (w.extractLsb' 0 24) with
    | some i => .instr i
    | none => .invalid .operandField

/-- The word the host's `nbits` and `w` name: bit 0 is the least significant bit of the word, and every bit at or above
`nbits` is 0. -/
def tableWord (nbits w : Nat) : SlotWord :=
  BitVec.ofNat 32 (w % 2 ^ nbits)

/-- The instruction the decoder reads from the word `w` numbers, as spec/opcode_table.json numbers bits. -/
def decodeTableWord (nbits w : Nat) : Option Instr :=
  match decodeWord (tableWord nbits w) with
  | .instr i => some i
  | .data _ | .invalid _ => none

/-! ### The encoder -/

/-- The tag of an instruction. -/
def Instr.mnemonic : Instr → Mnemonic
  | .sum => .sum
  | .sub => .sub
  | .mul => .mul
  | .div => .div
  | .mod => .mod
  | .dup => .dup
  | .drop => .drop
  | .swap => .swap
  | .overCell => .overCell
  | .rot => .rot
  | .tor => .tor
  | .rfrom => .rfrom
  | .get => .get
  | .set => .set
  | .print => .print
  | .read => .read
  | .inc => .inc
  | .dec => .dec
  | .cmp => .cmp
  | .pushTrue => .pushTrue
  | .pushFalse => .pushFalse
  | .ret => .ret
  | .hlt => .hlt
  | .tmod => .tmod
  | .tdiv => .tdiv
  | .jmpr _ => .jmpr
  | .jz _ => .jz
  | .jl _ => .jl
  | .jo _ => .jo
  | .load _ => .load
  | .call _ => .call
  | .jmpa _ => .jmpa

/-- The offset an instruction's record carries (R93 to R95). -/
def Instr.offset : Instr → Option Int
  | .jmpr off | .jz off | .jl off | .jo off => some off
  | .load i | .call i | .jmpa i => some i
  | .sum | .sub | .mul | .div | .mod | .dup | .drop | .swap | .overCell | .rot | .tor | .rfrom | .get | .set | .print
  | .read | .inc | .dec | .cmp | .pushTrue | .pushFalse | .ret | .hlt | .tmod | .tdiv => none

/-- The record of an instruction, with the debug metadata the compiler gives it (R90). -/
def encodeRecord (i : Instr) (debug : Option Debug) : Record :=
  { opcode := i.mnemonic.name, offset := i.offset, debug := debug }

/-- The instruction word with K = 1, bit 30 = 0 and the fields P, OP, OFF (R101). -/
def packFields (p : Bool) (op : BitVec 5) (off : BitVec 24) : SlotWord :=
  2#2 ++ BitVec.ofBool p ++ op ++ off

/-- The word of an instruction in the reference packing (R101). A relative one whose offset does not fit has none: a packer
refuses it (R106). That an ill-formed one, with an index outside 0..31, has none either is the model's choice (Log 19). -/
def encodeWord (i : Instr) : Option SlotWord :=
  if i.wf && i.packable then
    some (packFields i.offset.isSome i.mnemonic.op (BitVec.ofInt 24 (i.offset.getD 0)))
  else none

/-- The word of a slot (R101, R102): a data byte zero-extended, the word of a record that decodes to a packable
instruction; an empty slot, an unknown tag and an offset out of range have none (R102, R106). That a record with a known tag
that fails decode (no offset, an offset on a direct one, an index out of range) has none either is the model's choice (Log 19). -/
def packSlot : Slot → Option SlotWord
  | .data b => some (b.setWidth 32)
  | .instr r =>
    match decodeRecord r with
    | .ok i => encodeWord i
    | .error _ => none
  | .empty => none

/-- The slot a word stands for. An `Invalid` word has no slot of its own; it gives a record with an unknown tag, whose
behaviour R106 says is the same (the UnknownOpcode fault). -/
def slotOfWord (w : SlotWord) : Slot :=
  match decodeWord w with
  | .data b => .data b
  | .instr i => .instr (encodeRecord i none)
  | .invalid _ => .instr { opcode := "", offset := none, debug := none }

end Sys2Proof
end

