-- ==== Sys2Proof/Machine/State.lean ====
section
/-! DEFINITION. The state of CORE as 10_state.md R20 lists it, the faults of 60_exceptions.md R252, the refusals, and
the state after reset (10_state.md R36, 70_reset_and_hazards.md R281). Plain data throughout. -/

namespace Sys2Proof.Machine

/-- The cells of RAM or of a stack's backing array: strictly rising addresses, no cell listed that holds what an
unlisted one reads as (Machine/Ops.lean: `Memory.unlisted`, `Memory.wf`). -/
abbrev Memory := List Host.Cell

/-- Instruction memory, in the same form over slots (`IMem.unlisted`, `IMem.wf`). -/
abbrev IMem := List (Nat × Slot)

/-- The three flags (10_state.md R23). -/
structure Flags where
  /-- Z, zero. -/
  z : Bool
  /-- N, negative. -/
  n : Bool
  /-- V, overflow. -/
  v : Bool
deriving DecidableEq, Repr

/-- A stack (10_state.md R24): pointer, cached top, backing array. -/
structure Stack where
  sp   : StackPtr
  tos  : Cell
  data : Memory
deriving DecidableEq, Repr

/-- The five fault kinds of 60_exceptions.md R252, each with what it records (R251): the address the instruction was
fetched from and its record's debug metadata. Every one is an effect the spec gives, so it is no difference from the
hardware where the spec states the condition; where the condition is the spec's own choice the docstring says so. -/
inductive Fault where
  /-- Raised by every read of a stack element that is not live (20_memory.md R53, R54, R56). Safe: beyond the pop at the
  sentinel the spec's decision D7 stops where the source might go on. -/
  | stackUnderflow (faultPc : Addr) (debug : Option Debug)
  /-- Raised by a fetch of an empty slot (30_encoding.md R100), a taken relative jump out of range (44_control_transfer.md
  R221) and a table read of a slot that is no data byte (20_memory.md R67). Safe: decisions D13, D15, D31. -/
  | badAddress (faultPc : Addr) (debug : Option Debug)
  /-- Raised by a fetch of a data slot and by every decode failure (30_encoding.md R96 to R100). Safe: decisions D15, D16. -/
  | unknownOpcode (faultPc : Addr) (debug : Option Debug)
  /-- Raised by TDIV and TMOD with a zero divisor (41_alu.md R161, R162). Safe: the source says it is fatal. -/
  | divideByZeroFatal (faultPc : Addr) (debug : Option Debug)
  /-- Raised by READ on an empty input (43_memory_io.md R205). Safe: the source says it is fatal. -/
  | ioUnderflow (faultPc : Addr) (debug : Option Debug)
deriving DecidableEq, Repr

/-- What the model refuses. No instruction's meaning refuses. -/
inductive Refusal where
  /-- Answered only by an arm of `exec` whose instruction has no meaning; no arm does. Safe. -/
  | notModelled (mnemonic : String)
  /-- Answered by `step` in a state whose run has ended: no step is taken from Halted or Faulted (10_state.md R33). Safe. -/
  | runEnded
  /-- Answered by `boot` for an image that is not well-formed: no run starts (30_encoding.md R112). Safe. -/
  | illFormedImage
deriving DecidableEq, Repr

/-- The run status (10_state.md R33). -/
inductive RunStatus where
  | running
  | halted
  | faulted (f : Fault)
deriving DecidableEq, Repr

/-- The state of CORE (10_state.md R20). The last three fields are not in R20's list: `faultPc` and `debug` are the
current instruction's address and metadata (40_execution_cycle.md R121, 60_exceptions.md R251, R268), and `draws` is the
model's own counter of free values (R132). -/
structure State where
  /-- pc (R22). -/
  pc      : Addr
  /-- Z, N, V (R23). -/
  flags   : Flags
  /-- The data stack DS (R24, R26). -/
  ds      : Stack
  /-- The return stack RS (R24, R27). -/
  rs      : Stack
  /-- RAM (R30). -/
  ram     : Memory
  /-- The RAM address register ad (R28). -/
  ad      : Addr
  /-- Instruction memory (R31). -/
  imem    : IMem
  /-- The input buffer In, its tail last (R32). -/
  inBuf   : List Cell
  /-- The output buffer Out, its newest element last (R32). -/
  outBuf  : List Cell
  /-- The tick counter (R29). -/
  tick    : Nat
  /-- The run status (R33). -/
  status  : RunStatus
  /-- The address the current instruction was fetched from (40_execution_cycle.md R121). -/
  faultPc : Addr
  /-- The debug metadata of the current instruction's record (60_exceptions.md R251, R268). -/
  debug   : Option Debug
  /-- How many free values the run has taken (the model's own). -/
  draws   : Nat
deriving DecidableEq, Repr

/-- An empty stack at reset: sp at the sentinel and tos 0 (10_state.md R36), every cell of the backing array 0
(DESIGN CHOICE, unsafe: the spec says any value; Log 2). -/
def Stack.reset : Stack :=
  { sp := Config.stackEmptySp, tos := 0, data := [] }

/-- The machine right after reset (10_state.md R36, 70_reset_and_hazards.md R281), with no program and no input: the
state `boot` gives for an image of 192 zero table bytes (Log 4). The flags are a launch draw in the spec; this one value
is DESIGN CHOICE, unsafe (Log 1). -/
def State.reset : State :=
  { pc := BitVec.ofNat Config.addrBits Config.programBase
    flags := { z := false, n := false, v := false }
    ds := Stack.reset
    rs := Stack.reset
    ram := []
    ad := 0
    imem := []
    inBuf := []
    outBuf := []
    tick := 0
    status := .running
    faultPc := 0
    debug := none
    draws := 0 }

end Sys2Proof.Machine
end

