-- ==== Sys2Proof/Machine/Ops.lean ====
section
/-! DEFINITION. The named operations over State: the updates of one field, memory in its canonical form, the stack
primitives (20_memory.md R51 to R57), RAM and its address register (R60 to R63), the address tables (R67, R68), raising
a fault (60_exceptions.md R251) and the free values (40_execution_cycle.md R132). -/

namespace Sys2Proof.Machine

/-- The three outcomes of a step or of an instruction. -/
abbrev Outcome := Host.Outcome State Fault Refusal

/-! ### One update per field -/

def State.withPc (s : State) (x : Addr) : State := { s with pc := x }
def State.withFlags (s : State) (x : Flags) : State := { s with flags := x }
def State.withDs (s : State) (x : Stack) : State := { s with ds := x }
def State.withRs (s : State) (x : Stack) : State := { s with rs := x }
def State.withRam (s : State) (x : Memory) : State := { s with ram := x }
def State.withAd (s : State) (x : Addr) : State := { s with ad := x }
def State.withImem (s : State) (x : IMem) : State := { s with imem := x }
def State.withIn (s : State) (x : List Cell) : State := { s with inBuf := x }
def State.withOut (s : State) (x : List Cell) : State := { s with outBuf := x }
def State.withTick (s : State) (x : Nat) : State := { s with tick := x }
def State.withStatus (s : State) (x : RunStatus) : State := { s with status := x }
def State.withFaultPc (s : State) (x : Addr) : State := { s with faultPc := x }
def State.withDebug (s : State) (x : Option Debug) : State := { s with debug := x }
def State.withDraws (s : State) (x : Nat) : State := { s with draws := x }

/-! ### Sparse memory in canonical form -/

/-- What address `a` holds: the first entry listed for it, or `dflt a`. -/
def sparseRead {α : Type} (dflt : Nat → α) : List (Nat × α) → Nat → α
  | [], a => dflt a
  | (k, v) :: rest, a => if k = a then v else sparseRead dflt rest a

/-- List `v` at address `a`, in its place by address. -/
def sparseInsert {α : Type} : List (Nat × α) → Nat → α → List (Nat × α)
  | [], a, v => [(a, v)]
  | (k, w) :: rest, a, v =>
    if a < k then (a, v) :: (k, w) :: rest
    else if k = a then (a, v) :: rest
    else (k, w) :: sparseInsert rest a v

/-- List nothing at address `a`. -/
def sparseErase {α : Type} (m : List (Nat × α)) (a : Nat) : List (Nat × α) :=
  m.filter fun e => decide (e.1 ≠ a)

/-- Store `v` at address `a`: listed, unless it is what an unlisted `a` reads as. -/
def sparseWrite {α : Type} [DecidableEq α] (dflt : Nat → α) (m : List (Nat × α)) (a : Nat) (v : α) : List (Nat × α) :=
  if v = dflt a then sparseErase m a else sparseInsert m a v

/-- The canonical form: addresses strictly rise, lie below `size`, and no entry equals what an unlisted one reads as. -/
abbrev SparseWf {α : Type} (dflt : Nat → α) (size : Nat) (m : List (Nat × α)) : Prop :=
  m.Pairwise (fun x y => x.1 < y.1) ∧ ∀ e ∈ m, e.1 < size ∧ e.2 ≠ dflt e.1

/-- What a byte of RAM or of a backing array reads as when nothing has written it: 0. For RAM the spec says so ("sparse
entries default to 0", 30_encoding.md R111); for a backing array it is DESIGN CHOICE, unsafe (Log 2). -/
def Memory.unlisted (_ : Nat) : Cell := 0

/-- The cell at an address. -/
def Memory.read {w : Nat} (m : Memory) (a : BitVec w) : Cell := sparseRead Memory.unlisted m a.toNat

/-- The memory after a store of one cell. -/
def Memory.write {w : Nat} (m : Memory) (a : BitVec w) (v : Cell) : Memory := sparseWrite Memory.unlisted m a.toNat v

/-- The canonical form of a memory of `size` cells. -/
abbrev Memory.wfIn (size : Nat) (m : Memory) : Prop := SparseWf Memory.unlisted size m

/-- The canonical form of RAM. -/
abbrev Memory.wf (m : Memory) : Prop := m.wfIn Config.ramSize

/-- The canonical form of a backing array. -/
abbrev Stack.dataWf (m : Memory) : Prop := m.wfIn Config.stackCells

/-- The canonical form of a stack: that of its backing array. -/
abbrev Stack.wf (S : Stack) : Prop := Stack.dataWf S.data

/-- What a slot reads as when the image says nothing of it: a zero data byte in the tables (30_encoding.md R112), empty
from PROGRAM_BASE on (R110). -/
def IMem.unlisted (a : Nat) : Slot := if a < Config.programBase then .data 0 else .empty

/-- `IMem(a)`: the slot at an address (20_memory.md R64). -/
def IMem.read (m : IMem) (a : Addr) : Slot := sparseRead IMem.unlisted m a.toNat

/-- Instruction memory with one slot replaced: used only to load an image, never by an instruction (R65). -/
def IMem.write (m : IMem) (a : Addr) (x : Slot) : IMem := sparseWrite IMem.unlisted m a.toNat x

/-- The canonical form of instruction memory. -/
abbrev IMem.wf (m : IMem) : Prop := SparseWf IMem.unlisted Config.imemSize m

/-! ### Stack primitives -/

/-- `S.depth`, modulo 65536 (R51). -/
def Stack.depth (S : Stack) : Nat := (S.sp - Config.stackEmptySp).toNat

/-- `S.push(v)`; it never faults (R52, R57). -/
def Stack.push (S : Stack) (v : Cell) : Stack :=
  { sp := S.sp + 1, tos := v, data := S.data.write (S.sp + 1) S.tos }

/-- `S.pop()`: the top and the stack without it; none at the sentinel (R53). -/
def Stack.pop (S : Stack) : Option (Cell × Stack) :=
  if S.sp = Config.stackEmptySp then none
  else some (S.tos, { sp := S.sp - 1, tos := S.data.read S.sp, data := S.data })

/-- `S.swap()`; none when fewer than two elements are live (R54). -/
def Stack.swap (S : Stack) : Option Stack :=
  if S.depth < 2 then none
  else some { sp := S.sp, tos := S.data.read S.sp, data := S.data.write S.sp S.tos }

/-- `S.elem(k)`: the element k places below the top; none when it is not live (R55, R56). -/
def Stack.elem (S : Stack) (k : Nat) : Option Cell :=
  if S.depth ≤ k then none
  else if k = 0 then some S.tos
  else some (S.data.read (S.sp - BitVec.ofNat Config.spBits (k - 1)))

/-! ### Raising a fault -/

/-- `raise Fault(kind)` within an instruction (60_exceptions.md R251): the fault, with the address the current instruction
was fetched from and its debug metadata. The run ends with it; of the state nothing is kept (R263). -/
def raise (kind : Addr → Option Debug → Fault) (s : State) : Fault := kind s.faultPc s.debug

/-- The numeric code of a fault (R252). -/
def Fault.code : Fault → Nat
  | .stackUnderflow _ _ => 1
  | .badAddress _ _ => 2
  | .unknownOpcode _ _ => 3
  | .divideByZeroFatal _ _ => 4
  | .ioUnderflow _ _ => 5

/-- `fault_pc` of a fault (R251). -/
def Fault.address : Fault → Addr
  | .stackUnderflow a _ | .badAddress a _ | .unknownOpcode a _ | .divideByZeroFatal a _ | .ioUnderflow a _ => a

/-- `debug` of a fault (R251). -/
def Fault.debugInfo : Fault → Option Debug
  | .stackUnderflow _ d | .badAddress _ d | .unknownOpcode _ d | .divideByZeroFatal _ d | .ioUnderflow _ d => d

/-- The outcome of an instruction: its next state, or the fault that ended it. -/
def finish : Except Fault State → Outcome
  | .ok s => .next s
  | .error f => .fault f

/-- An answer that a missing one turns into a fault of this kind. -/
def orRaise {α : Type} (kind : Addr → Option Debug → Fault) (s : State) : Option α → Except Fault α
  | some x => .ok x
  | none => .error (raise kind s)

/-! ### RAM and its address register -/

/-- The high cell of an address. -/
def highHalf (a : Addr) : Cell := a.extractLsb' Config.cellBits Config.cellBits

/-- The low cell of an address. -/
def lowHalf (a : Addr) : Cell := a.extractLsb' 0 Config.cellBits

/-- `latch_high(b)` (R61). -/
def latchHigh (b : Cell) (s : State) : State := s.withAd (b ++ lowHalf s.ad)

/-- `latch_low(b)` (R61). -/
def latchLow (b : Cell) (s : State) : State := s.withAd (highHalf s.ad ++ b)

/-- `MemRead(ad, 1)` (R62). -/
def memRead (s : State) : Cell := s.ram.read s.ad

/-- `MemWrite(ad, 1, v)` (R63). -/
def memWrite (v : Cell) (s : State) : State := s.withRam (s.ram.write s.ad v)

/-! ### The address tables -/

/-- The high half of pc, as a table read latches it (R68). -/
def latchPcHigh (b : Cell) (s : State) : State := s.withPc (b ++ lowHalf s.pc)

/-- The low half of pc, as a table read latches it (R68). -/
def latchPcLow (b : Cell) (s : State) : State := s.withPc (highHalf s.pc ++ b)

/-- `TableByte(a)`: the data byte in a slot; BadAddress if the slot holds none (R67). -/
def tableByte (s : State) (a : Addr) : Except Fault Cell :=
  match s.imem.read a with
  | .data b => .ok b
  | .instr _ | .empty => .error (raise .badAddress s)

/-- The two ticks of `TableRead(base, i, T)`, T given by the latches of its two halves: the state after the high byte, at
base + 2i, and the state after the low byte, which follows it (R68). -/
def tableTicks (base i : Nat) (latchHi latchLo : Cell → State → State) (s : State) : Except Fault (State × State) := do
  let p : Addr := BitVec.ofNat Config.addrBits (base + Config.slotBytes * i)
  let hi ← tableByte s p
  let s1 := latchHi hi s
  let lo ← tableByte s1 (p + 1)
  return (s1, latchLo lo s1)

/-- `TableRead(base, i, T)` (R68). -/
def tableRead (base i : Nat) (latchHi latchLo : Cell → State → State) (s : State) : Except Fault State := do
  let (_, t) ← tableTicks base i latchHi latchLo s
  return t

/-! ### Free values -/

/-- A free flag value, fresh each time (R132; Log 6). -/
def drawFlag (s : State) : Bool × State := (Config.freeFlag s.draws, s.withDraws (s.draws + 1))

/-- Three free flags (R161, R162). -/
def drawFlags (s : State) : State :=
  let (z, s) := drawFlag s
  let (n, s) := drawFlag s
  let (v, s) := drawFlag s
  s.withFlags { z := z, n := n, v := v }

/-- Count an instruction's ticks: at least `least`, and a free surplus (R127; Log 9). -/
def addTicks (least : Nat) (s : State) : State :=
  (s.withTick (s.tick + least + Config.freeTicks s.draws)).withDraws (s.draws + 1)

end Sys2Proof.Machine
end

