-- ==== Sys2Proof/Machine/Cycle.lean ====
section
/-! DEFINITION. The cycle around execute: fetch and decode (40_execution_cycle.md R121, R122), the ticks an instruction
counts (R127), and placing a word where the next fetch reads. -/

namespace Sys2Proof.Machine

/-- The state after the fetch of a record: pc past the slot, the slot's address and the record's metadata latched for a
fault of this instruction (R121, R125). -/
def State.fetched (s : State) (r : Record) : State :=
  ((s.withFaultPc s.pc).withDebug r.debug).withPc (s.pc + 1)

/-- Fetch (R121): BadAddress on an empty slot, UnknownOpcode on a data byte, with no metadata since no record was read. -/
def fetch (s : State) : Except Fault (Record × State) :=
  match s.imem.read s.pc with
  | .empty => .error (.badAddress s.pc none)
  | .data _ => .error (.unknownOpcode s.pc none)
  | .instr r => .ok (r, s.fetched r)

/-- Decode of the fetched record: every decode failure is UnknownOpcode (R122, 60_exceptions.md R255). -/
def decodeFetched (r : Record) (s : State) : Except Fault Instr :=
  match decodeRecord r with
  | .ok i => .ok i
  | .error _ => .error (raise .unknownOpcode s)

/-- Fetch and decode. -/
def fetchDecode (s : State) : Except Fault (Instr × State) := do
  let (r, s) ← fetch s
  let i ← decodeFetched r s
  return (i, s)

/-- The ticks the spec fixes for an instruction: two for a table read, one otherwise (R127). -/
def leastTicks : Instr → Nat
  | .load _ | .call _ | .jmpa _ => 2
  | .jmpr _ | .jz _ | .jl _ | .jo _
  | .sum | .sub | .mul | .div | .mod | .dup | .drop | .swap | .overCell | .rot | .tor | .rfrom | .get | .set | .print
  | .read | .inc | .dec | .cmp | .pushTrue | .pushFalse | .ret | .hlt | .tmod | .tdiv => 1

/-- The end of a cycle: a next state has its ticks counted; a fault or a refusal stands. -/
def retire (i : Instr) : Outcome → Outcome
  | .next s => .next (addTicks (leastTicks i) s)
  | .fault f => .fault f
  | .refused r => .refused r

/-- The slot a numbered word stands for, placed at pc with the run running (the host's `withFetchWord`). -/
def placeAtFetch (s : State) (nbits w : Nat) : State :=
  (s.withImem (s.imem.write s.pc (slotOfWord (tableWord nbits w)))).withStatus .running

end Sys2Proof.Machine
end

