-- ==== Sys2Proof/Machine/Operands.lean ====
section
/-! DEFINITION. The operand forms: cells taken from and put on the two stacks (20_memory.md R52 to R56), two-cell RAM
addresses (43_memory_io.md R202, R203), 24-bit operands (41_alu.md R160), relative targets (44_control_transfer.md R221). -/

namespace Sys2Proof.Machine

/-- `DS.pop()`. -/
def popDs (s : State) : Except Fault (Cell × State) := do
  let (c, S) ← orRaise .stackUnderflow s s.ds.pop
  return (c, s.withDs S)

/-- `DS.push(c)`. -/
def pushDs (c : Cell) (s : State) : State := s.withDs (s.ds.push c)

/-- `DS.elem(k)`. -/
def elemDs (k : Nat) (s : State) : Except Fault Cell := orRaise .stackUnderflow s (s.ds.elem k)

/-- `RS.pop()`. -/
def popRs (s : State) : Except Fault (Cell × State) := do
  let (c, S) ← orRaise .stackUnderflow s s.rs.pop
  return (c, s.withRs S)

/-- `RS.push(c)`. -/
def pushRs (c : Cell) (s : State) : State := s.withRs (s.rs.push c)

/-- The return address on RS, high byte first, so the low byte is on top (44_control_transfer.md R227). -/
def pushReturn (s : State) : State := pushRs (lowHalf s.pc) (pushRs (highHalf s.pc) s)

/-- The two operands of a binary instruction: `b` the top, `a` below it (40_execution_cycle.md R129). -/
def popOperands (s : State) : Except Fault (Cell × Cell × State) := do
  let (b, s) ← popDs s
  let (a, s) ← popDs s
  return (a, b, s)

/-- The RAM address on DS, low byte on top, latched half by half into `ad` (43_memory_io.md R202, R203). -/
def popAddress (s : State) : Except Fault State := do
  let (lo, s) ← popDs s
  let s := latchLow lo s
  let (hi, s) ← popDs s
  return latchHigh hi s

/-- `pop24()`: high cell on top (41_alu.md R160). -/
def pop24 (s : State) : Except Fault (Triple × State) := do
  let (h, s) ← popDs s
  let (m, s) ← popDs s
  let (l, s) ← popDs s
  return (h ++ m ++ l, s)

/-- The cell of `w` that has `k` cells below it. -/
def cellOf (k : Nat) (w : Triple) : Cell := w.extractLsb' (k * Config.cellBits) Config.cellBits

/-- `push24(w)`: low, mid, high (R160). -/
def push24 (w : Triple) (s : State) : State :=
  pushDs (cellOf 2 w) (pushDs (cellOf 1 w) (pushDs (cellOf 0 w) s))

/-- `relTarget(off)`, computed in the integers from the incremented pc; BadAddress outside 0..65535
(44_control_transfer.md R221; for a jump at address 65535 see Log 10). -/
def relTarget (off : Int) (s : State) : Except Fault Addr :=
  let t : Int := s.pc.toNat + off
  if t < 0 ∨ Config.imemSize ≤ t then .error (raise .badAddress s) else .ok (BitVec.ofInt Config.addrBits t)

/-- A taken relative jump. -/
def jumpRelative (off : Int) (s : State) : Except Fault State := do
  let t ← relTarget off s
  return s.withPc t

/-- A relative jump taken iff the flag is set; the target of one not taken is not computed (R223 to R225). -/
def jumpIf (flag : Bool) (off : Int) (s : State) : Except Fault State :=
  if flag then jumpRelative off s else .ok s

end Sys2Proof.Machine
end

