-- ==== Sys2Proof/Machine/Flags.lean ====
section
/-! DEFINITION. What the ALU computes, result and flags together, as pure functions of the operand cells (41_alu.md R150
to R162): computed exactly in the integers, reduced once, the flags read off. -/

namespace Sys2Proof.Machine

/-- `setZN(r)` with a given V (40_execution_cycle.md R128). -/
def flagsOf (r : Cell) (v : Bool) : Flags := { z := decide (r = 0), n := r.msb, v := v }

/-- V of an exact result: it left the signed range of a cell, -128..127 (R152). -/
def leavesRange (t : Int) : Bool :=
  decide (t < -(2 : Int) ^ (Config.cellBits - 1) ∨ (2 : Int) ^ (Config.cellBits - 1) - 1 < t)

/-- The reduced result of an exact one, with its flags (R152 to R155). -/
def reduced (t : Int) : Cell × Flags :=
  (BitVec.ofInt Config.cellBits t, flagsOf (BitVec.ofInt Config.cellBits t) (leavesRange t))

/-- SUM (R152). -/
def sumCells (a b : Cell) : Cell × Flags := reduced (a.toInt + b.toInt)

/-- SUB (R153). -/
def subCells (a b : Cell) : Cell × Flags := reduced (a.toInt - b.toInt)

/-- MUL (R154). -/
def mulCells (a b : Cell) : Cell × Flags := reduced (a.toInt * b.toInt)

/-- `divq(x, y)` (R151). -/
def divq (rounding : Config.DivRounding) (x y : Int) : Int :=
  match rounding with
  | .trunc => x.tdiv y
  | .floor => x.fdiv y

/-- `divr(x, y)` (R151). -/
def divr (rounding : Config.DivRounding) (x y : Int) : Int := x - y * divq rounding x y

/-- The defined result of an 8-bit division by zero: 0, with Z = 1, N = 0, V = 1 (R155, R156). -/
def divideByZeroResult : Cell × Flags := (0, { z := true, n := false, v := true })

/-- DIV (R155). -/
def divCells (rounding : Config.DivRounding) (a b : Cell) : Cell × Flags :=
  if b = 0 then divideByZeroResult else reduced (divq rounding a.toInt b.toInt)

/-- MOD (R156): with a divisor, V is 0. -/
def modCells (rounding : Config.DivRounding) (a b : Cell) : Cell × Flags :=
  if b = 0 then divideByZeroResult
  else
    let r := BitVec.ofInt Config.cellBits (divr rounding a.toInt b.toInt)
    (r, flagsOf r false)

/-- V after an INC or DEC that does not set it (R157, R158). -/
def keptOrCleared (rule : Config.IncDecOvf) (old : Bool) : Bool :=
  match rule with
  | .clear => false
  | .keep => old

/-- INC (R157). -/
def incCell (rule : Config.IncDecOvf) (x : Cell) (old : Flags) : Cell × Flags :=
  let r := x + 1
  (r, flagsOf r (if x = BitVec.allOnes Config.cellBits then true else keptOrCleared rule old.v))

/-- DEC (R158). -/
def decCell (rule : Config.IncDecOvf) (x : Cell) (old : Flags) : Cell × Flags :=
  let r := x - 1
  (r, flagsOf r (keptOrCleared rule old.v))

/-- N after CMP: by the signs if they differ, else by the unsigned order of the cells (R159). -/
def cmpNegative (a b : Cell) : Bool := if a.msb ≠ b.msb then a.msb else decide (a.toNat < b.toNat)

/-- The quotient of TDIV for a divisor that is not zero (R161). -/
def tripleQuotient (signed : Bool) (rounding : Config.DivRounding) (A B : Triple) : Triple :=
  if signed then BitVec.ofInt _ (divq rounding A.toInt B.toInt) else BitVec.ofNat _ (A.toNat / B.toNat)

/-- The remainder of TMOD for a divisor that is not zero (R162). -/
def tripleRemainder (signed : Bool) (rounding : Config.DivRounding) (A B : Triple) : Triple :=
  if signed then BitVec.ofInt _ (divr rounding A.toInt B.toInt) else BitVec.ofNat _ (A.toNat % B.toNat)

/-! ### The shapes of the ALU instructions over the state -/

/-- A two-operand instruction: pop b, pop a, push the result, write the flags (40_execution_cycle.md R129). -/
def binaryAlu (f : Cell → Cell → Cell × Flags) (s : State) : Except Fault State := do
  let (a, b, s) ← popOperands s
  return (pushDs (f a b).1 s).withFlags (f a b).2

/-- A one-operand instruction, in place on the top (R157, R158). -/
def unaryAlu (f : Cell → Flags → Cell × Flags) (s : State) : Except Fault State := do
  let x ← elemDs 0 s
  return (s.withDs { s.ds with tos := (f x s.flags).1 }).withFlags (f x s.flags).2

/-- A 24-bit division: pop B, pop A, fatal on B = 0, push the result, draw the flags (R161, R162). -/
def tripleAlu (f : Triple → Triple → Triple) (s : State) : Except Fault State := do
  let (B, s) ← pop24 s
  let (A, s) ← pop24 s
  if B = 0 then .error (raise .divideByZeroFatal s) else .ok (drawFlags (push24 (f A B) s))

end Sys2Proof.Machine
end

