-- ==== Sys2Proof/Machine/Alu.lean ====
section
/-! DEFINITION. The meanings of the ALU family (41_alu.md). A meaning runs after fetch, with pc already at the next
instruction (00_scope.md R12). -/

namespace Sys2Proof.Machine

/-- SUM (R152). -/
def execSum (s : State) : Outcome := finish (binaryAlu sumCells s)

/-- SUB (R153). -/
def execSub (s : State) : Outcome := finish (binaryAlu subCells s)

/-- MUL (R154). -/
def execMul (s : State) : Outcome := finish (binaryAlu mulCells s)

/-- DIV (R155). -/
def execDiv (s : State) : Outcome := finish (binaryAlu (divCells Config.divRounding) s)

/-- MOD (R156). -/
def execMod (s : State) : Outcome := finish (binaryAlu (modCells Config.divRounding) s)

/-- INC (R157). -/
def execInc (s : State) : Outcome := finish (unaryAlu (incCell Config.incDecOvf) s)

/-- DEC (R158). -/
def execDec (s : State) : Outcome := finish (unaryAlu (decCell Config.incDecOvf) s)

/-- CMP (R159): the stack is not touched; V is a free value. -/
def execCmp (s : State) : Outcome := finish do
  let b ← elemDs 0 s
  let a ← elemDs 1 s
  let (v, s) := drawFlag s
  return s.withFlags { z := decide (a = b), n := cmpNegative a b, v := v }

/-- TDIV (R161). -/
def execTdiv (s : State) : Outcome := finish (tripleAlu (tripleQuotient Config.t24Signed Config.divRounding) s)

/-- TMOD (R162). -/
def execTmod (s : State) : Outcome := finish (tripleAlu (tripleRemainder Config.t24Signed Config.divRounding) s)

end Sys2Proof.Machine
end

