-- ==== Sys2Proof/Machine/Control.lean ====
section
/-! DEFINITION. The meanings of the control-transfer family (44_control_transfer.md). None writes a flag. -/

namespace Sys2Proof.Machine

/-- JMPR off (R222). -/
def execJmpr (off : Int) (s : State) : Outcome := finish (jumpRelative off s)

/-- JZ off (R223). -/
def execJz (off : Int) (s : State) : Outcome := finish (jumpIf s.flags.z off s)

/-- JL off (R224). -/
def execJl (off : Int) (s : State) : Outcome := finish (jumpIf s.flags.n off s)

/-- JO off (R225). -/
def execJo (off : Int) (s : State) : Outcome := finish (jumpIf s.flags.v off s)

/-- JMPA i (R226). -/
def execJmpa (i : Nat) (s : State) : Outcome :=
  finish (tableRead Config.jmpaBase i latchPcHigh latchPcLow s)

/-- CALL i (R227): the return address, then the table jump. -/
def execCall (i : Nat) (s : State) : Outcome :=
  finish (tableRead Config.callBase i latchPcHigh latchPcLow (pushReturn s))

/-- RET (R228): low byte on top. -/
def execRet (s : State) : Outcome := finish do
  let (lo, s) ← popRs s
  let (hi, s) ← popRs s
  return s.withPc (hi ++ lo)

/-- HLT (R229). -/
def execHlt (s : State) : Outcome := finish (.ok (s.withStatus .halted))

end Sys2Proof.Machine
end

