-- ==== Sys2Proof/Machine/MemoryIo.lean ====
section
/-! DEFINITION. The meanings of the memory and I/O family (43_memory_io.md). None writes a flag. -/

namespace Sys2Proof.Machine

/-- LOAD i (R201). -/
def execLoad (i : Nat) (s : State) : Outcome := finish do
  let s ← tableRead Config.loadBase i latchHigh latchLow s
  return pushDs (memRead s) s

/-- GET (R202). -/
def execGet (s : State) : Outcome := finish do
  let s ← popAddress s
  return pushDs (memRead s) s

/-- SET (R203). -/
def execSet (s : State) : Outcome := finish do
  let s ← popAddress s
  let (v, s) ← popDs s
  return memWrite v s

/-- PRINT (R204, R206). -/
def execPrint (s : State) : Outcome := finish do
  let (x, s) ← popDs s
  return s.withOut (s.outBuf ++ [x])

/-- READ (R205, R207): the last element of In. -/
def execRead (s : State) : Outcome := finish do
  let x ← orRaise .ioUnderflow s s.inBuf.getLast?
  return pushDs x (s.withIn s.inBuf.dropLast)

end Sys2Proof.Machine
end

