-- ==== Sys2Proof/Machine/StackOps.lean ====
section
/-! DEFINITION. The meanings of the stack family (42_stack_ops.md). None writes a flag (40_execution_cycle.md R130). The
stack effects of DUP, DROP, OVER, ROT, TOR, RFROM are the spec's, which marks them as general knowledge (R180). -/

namespace Sys2Proof.Machine

/-- DUP (R181). -/
def execDup (s : State) : Outcome := finish do
  let x ← elemDs 0 s
  return pushDs x s

/-- DROP (R182). -/
def execDrop (s : State) : Outcome := finish do
  let (_, s) ← popDs s
  return s

/-- SWAP (R183). -/
def execSwap (s : State) : Outcome := finish do
  let S ← orRaise .stackUnderflow s s.ds.swap
  return s.withDs S

/-- OVER (R184). -/
def execOver (s : State) : Outcome := finish do
  let a ← elemDs 1 s
  return pushDs a s

/-- ROT (R185). -/
def execRot (s : State) : Outcome := finish do
  let (c, s) ← popDs s
  let (b, s) ← popDs s
  let (a, s) ← popDs s
  return pushDs a (pushDs c (pushDs b s))

/-- TOR (R186). -/
def execTor (s : State) : Outcome := finish do
  let (x, s) ← popDs s
  return pushRs x s

/-- RFROM (R187). -/
def execRfrom (s : State) : Outcome := finish do
  let (x, s) ← popRs s
  return pushDs x s

/-- TRUE (R188). -/
def execTrue (s : State) : Outcome := finish (.ok (pushDs Config.trueCell s))

/-- FALSE (R189). -/
def execFalse (s : State) : Outcome := finish (.ok (pushDs Config.falseCell s))

end Sys2Proof.Machine
end

