-- ==== Sys2Proof/Machine/Dispatch.lean ====
section
/-! DEFINITION. Execute: "dispatches by opcode name to a handler" (40_execution_cycle.md R123). -/

namespace Sys2Proof.Machine

/-- The effect of a decoded instruction, after fetch has advanced pc. -/
def exec (i : Instr) (s : State) : Host.Outcome State Fault Refusal :=
  match i with
  | .sum => Sys2Proof.Machine.execSum s
  | .sub => Sys2Proof.Machine.execSub s
  | .mul => Sys2Proof.Machine.execMul s
  | .div => Sys2Proof.Machine.execDiv s
  | .mod => Sys2Proof.Machine.execMod s
  | .dup => Sys2Proof.Machine.execDup s
  | .drop => Sys2Proof.Machine.execDrop s
  | .swap => Sys2Proof.Machine.execSwap s
  | .overCell => Sys2Proof.Machine.execOver s
  | .rot => Sys2Proof.Machine.execRot s
  | .tor => Sys2Proof.Machine.execTor s
  | .rfrom => Sys2Proof.Machine.execRfrom s
  | .get => Sys2Proof.Machine.execGet s
  | .set => Sys2Proof.Machine.execSet s
  | .print => Sys2Proof.Machine.execPrint s
  | .read => Sys2Proof.Machine.execRead s
  | .inc => Sys2Proof.Machine.execInc s
  | .dec => Sys2Proof.Machine.execDec s
  | .cmp => Sys2Proof.Machine.execCmp s
  | .pushTrue => Sys2Proof.Machine.execTrue s
  | .pushFalse => Sys2Proof.Machine.execFalse s
  | .ret => Sys2Proof.Machine.execRet s
  | .hlt => Sys2Proof.Machine.execHlt s
  | .tmod => Sys2Proof.Machine.execTmod s
  | .tdiv => Sys2Proof.Machine.execTdiv s
  | .jmpr off => Sys2Proof.Machine.execJmpr off s
  | .jz off => Sys2Proof.Machine.execJz off s
  | .jl off => Sys2Proof.Machine.execJl off s
  | .jo off => Sys2Proof.Machine.execJo off s
  | .load k => Sys2Proof.Machine.execLoad k s
  | .call k => Sys2Proof.Machine.execCall k s
  | .jmpa k => Sys2Proof.Machine.execJmpa k s

end Sys2Proof.Machine
end

