-- ==== Sys2Proof/Machine/Step.lean ====
section
/-! DEFINITION. One step of the machine: fetch, decode, execute one instruction (40_execution_cycle.md R120, R123). -/

namespace Sys2Proof.Machine

/-- One step of a running machine; from Halted or Faulted no step is taken (10_state.md R33). -/
def step (s : State) : Host.Outcome State Fault Refusal :=
  match s.status with
  | .running =>
    match fetchDecode s with
    | .ok (i, s') => retire i (exec i s')
    | .error f => .fault f
  | .halted => .refused .runEnded
  | .faulted _ => .refused .runEnded

/-- `s` with the word `w` of `nbits` bits where the next fetch reads: the slot at pc, the run running (Log 4). -/
def State.withFetchWord (s : State) (nbits w : Nat) : State := placeAtFetch s nbits w

end Sys2Proof.Machine
end

