-- ==== Sys2Proof/Machine/Image.lean ====
section
/-! DEFINITION. The program image (30_encoding.md R110 to R112) and the launch of a run from it (70_reset_and_hazards.md
R280 to R284). The image carries raw integers, so that its well-formedness says something. -/

namespace Sys2Proof.Machine

/-- An element of the image's instruction sequence (R110, 20_memory.md R64). -/
inductive Element where
  | data (b : Int)
  | instr (r : Record)
deriving DecidableEq, Repr

/-- A program image: the instruction sequence, and the RAM cells it gives as address and value (R110, R111). -/
structure Image where
  code : List Element
  ram  : List (Int × Int)
deriving DecidableEq, Repr

/-- What the host hands CORE at launch (60_exceptions.md R273): the image and In, already reversed (43_memory_io.md R208);
and the launch's draws: the flags (10_state.md R36) and the contents of the two backing arrays (decision D30). -/
structure Launch where
  image  : Image
  input  : List Int
  flags0 : Flags
  dsData : Memory
  rsData : Memory
deriving DecidableEq, Repr

/-- A cell value. -/
def isCell (x : Int) : Bool := decide (0 ≤ x ∧ x < 2 ^ Config.cellBits)

/-- An address of RAM. -/
def isAddress (x : Int) : Bool := decide (0 ≤ x ∧ x < Config.ramSize)

/-- A data byte of a table. -/
def Element.isTableByte : Element → Bool
  | .data b => isCell b
  | .instr _ => false

/-- An instruction record; a record that decode will refuse still is one (R112). -/
def Element.isRecord : Element → Bool
  | .data _ => false
  | .instr _ => true

/-- Image well-formedness (R112 a to d): the length, 192 table bytes first, records from there on, RAM entries in range
with no address given twice (R111: an array has one value at an index; Log 11). -/
def Image.wf (img : Image) : Bool :=
  decide (img.code.length ≤ Config.imemSize) &&
  decide (Config.programBase ≤ img.code.length) &&
  (img.code.take Config.programBase).all Element.isTableByte &&
  (img.code.drop Config.programBase).all Element.isRecord &&
  img.ram.all (fun e => isAddress e.1 && isCell e.2) &&
  decide ((img.ram.map Prod.fst).Nodup)

/-- A launch that may start (R112, e the input cells); the two arrays are memories in canonical form. -/
def Launch.wf (l : Launch) : Bool :=
  l.image.wf && l.input.all isCell && decide (Stack.dataWf l.dsData) && decide (Stack.dataWf l.rsData)

/-- The slot an element of the sequence gives. -/
def Element.slot : Element → Slot
  | .data b => .data (BitVec.ofInt Config.cellBits b)
  | .instr r => .instr r

/-- Instruction memory from a sequence placed from address `a` on (R110). -/
def loadCode (a : Nat) : List Element → IMem → IMem
  | [], m => m
  | e :: rest, m => loadCode (a + 1) rest (m.write (BitVec.ofNat Config.addrBits a) e.slot)

/-- RAM from the image's entries (R111). -/
def loadRam : List (Int × Int) → Memory → Memory
  | [], m => m
  | (a, v) :: rest, m => loadRam rest (m.write (BitVec.ofInt Config.addrBits a) (BitVec.ofInt Config.cellBits v))

/-- Start a run (70_reset_and_hazards.md R281); an ill-formed launch is refused and no run starts. -/
def boot (l : Launch) : Outcome :=
  if l.wf then
    .next { State.reset with
      flags := l.flags0
      ds := { Stack.reset with data := l.dsData }
      rs := { Stack.reset with data := l.rsData }
      ram := loadRam l.image.ram []
      imem := loadCode 0 l.image.code []
      inBuf := l.input.map (BitVec.ofInt Config.cellBits) }
  else .refused .illFormedImage

/-- The launch with no program: 192 zero table bytes, no RAM entry, no input, and the draws of `State.reset` (Log 4). -/
def blankLaunch : Launch :=
  { image := { code := List.replicate Config.programBase (.data 0), ram := [] }
    input := []
    flags0 := State.reset.flags
    dsData := []
    rsData := [] }

end Sys2Proof.Machine
end

