-- ==== Sys2Proof/Machine/Observer.lean ====
section
/-! DEFINITION. The diagnostic observer (60_exceptions.md R268): a snapshot at each tick, of a step and of a run. It reads
alone: it is a function of the state a step starts from, and step knows nothing of it. How many ticks an instruction takes,
and which register transfer each is, the spec does not settle (40_execution_cycle.md R127) but for the two of a table read
(20_memory.md R68). So a tick shows what the rules allow at any: first the state before the fetch, then pc advanced, then the
instruction decoded (R120), a register no transfer writes as it was, one that a single transfer writes old or new, one that
several write free; and the last tick the state after the instruction (Log 9). -/

namespace Sys2Proof.Machine

/-- What the observer sees at a tick (R268). -/
structure Snapshot where
  pc    : Addr
  dsSp  : StackPtr
  dsTos : Cell
  rsSp  : StackPtr
  rsTos : Cell
  /-- Z, N, V. -/
  flags : Vector Bool Config.flagCount
  /-- The currently decoded instruction's metadata. -/
  debug : Option Debug
deriving DecidableEq, Repr

/-- The flags in the order Z, N, V. -/
def Flags.bits (f : Flags) : Vector Bool Config.flagCount := #v[f.z, f.n, f.v]

/-- What the observer reads of a state. -/
def snapshot (s : State) : Snapshot :=
  { pc := s.pc, dsSp := s.ds.sp, dsTos := s.ds.tos, rsSp := s.rs.sp, rsTos := s.rs.tos, flags := s.flags.bits,
    debug := s.debug }

/-! ### Which registers an instruction writes -/

/-- How an instruction's execution writes a register. -/
inductive Writes where
  /-- Not at all. -/
  | never
  /-- By one transfer. -/
  | once
  /-- By more than one, or with a value that is free after it; or by an instruction that faults, which leaves it unspecified
  (60_exceptions.md R263). -/
  | freely
deriving DecidableEq, Repr

/-- How an instruction writes each register the observer sees. -/
structure WriteSet where
  pc    : Writes := .never
  dsSp  : Writes := .never
  dsTos : Writes := .never
  rsSp  : Writes := .never
  rsTos : Writes := .never
  z     : Writes := .never
  n     : Writes := .never
  v     : Writes := .never
deriving DecidableEq, Repr

/-- The writes of an instruction after its decode, from its rule: the flags as 10_state.md R23 says, pc as 40_execution_cycle.md
R124, the stacks as their primitives in its pseudocode (20_memory.md R52 to R54). -/
def writeSet : Instr → WriteSet
  | .sum | .sub | .mul | .div | .mod => { dsSp := .freely, dsTos := .freely, z := .once, n := .once, v := .once }
  | .tdiv | .tmod => { dsSp := .freely, dsTos := .freely, z := .freely, n := .freely, v := .freely }
  | .inc | .dec => { dsTos := .once, z := .once, n := .once, v := .once }
  | .cmp => { z := .once, n := .once, v := .freely }
  | .dup | .drop | .overCell | .pushTrue | .pushFalse | .print | .read | .load _ => { dsSp := .once, dsTos := .once }
  | .swap => { dsTos := .once }
  | .rot | .get | .set => { dsSp := .freely, dsTos := .freely }
  | .tor | .rfrom => { dsSp := .once, dsTos := .once, rsSp := .once, rsTos := .once }
  | .jmpr _ | .jz _ | .jl _ | .jo _ | .jmpa _ => { pc := .once }
  | .call _ => { pc := .once, rsSp := .freely, rsTos := .freely }
  | .ret => { pc := .once, rsSp := .freely, rsTos := .freely }
  | .hlt => {}

/-- A write of which an instruction that faults may have done any part. -/
def Writes.cut : Writes → Writes
  | .never => .never
  | .once | .freely => .freely

/-- The writes of an instruction that faults. pc is written last, after every check, but for the halves of a table read:
44_control_transfer.md R221 to R228. -/
def faultWriteSet (i : Instr) : WriteSet :=
  let w := writeSet i
  { pc := match i with
      | .call _ | .jmpa _ => .freely
      | .jmpr _ | .jz _ | .jl _ | .jo _ | .load _
      | .sum | .sub | .mul | .div | .mod | .dup | .drop | .swap | .overCell | .rot | .tor | .rfrom | .get | .set | .print
      | .read | .inc | .dec | .cmp | .pushTrue | .pushFalse | .ret | .hlt | .tmod | .tdiv => .never
    dsSp := w.dsSp.cut, dsTos := w.dsTos.cut, rsSp := w.rsSp.cut, rsTos := w.rsTos.cut
    z := w.z.cut, n := w.n.cut, v := w.v.cut }

/-- After a table read an instruction writes no register more than once: LOAD pushes (43_memory_io.md R201), CALL and JMPA
are done (44_control_transfer.md R226, R227). -/
def writesAfterTable : WriteSet :=
  { pc := .once, dsSp := .once, dsTos := .once, rsSp := .once, rsTos := .once, z := .once, n := .once, v := .once }

/-! ### What a tick shows -/

/-- A register during an execution that takes it from `old` to `new`; `written` says whether a single transfer is done. -/
def Writes.shows {α : Type} (how : Writes) (old new free : α) (written : Bool) : α :=
  match how with
  | .never => old
  | .once => if written then new else old
  | .freely => free

/-- What a tick shows of the flags. -/
def flagsDuring (draw tick : Nat) (how : WriteSet) (old new : Flags) : Flags :=
  let written r := decide (Config.writeTick draw r ≤ tick)
  { z := how.z.shows old.z new.z (Config.seenFlag draw tick .z) (written .z)
    n := how.n.shows old.n new.n (Config.seenFlag draw tick .n) (written .n)
    v := how.v.shows old.v new.v (Config.seenFlag draw tick .v) (written .v) }

/-- What a tick shows of an execution that takes the state `old`, its instruction decoded, to `new`. -/
def executing (draw tick : Nat) (how : WriteSet) (old new : State) : Snapshot :=
  let written r := decide (Config.writeTick draw r ≤ tick)
  { pc := how.pc.shows old.pc new.pc (Config.seenPc draw tick) (written .pc)
    dsSp := how.dsSp.shows old.ds.sp new.ds.sp (Config.seenSp draw tick .dsSp) (written .dsSp)
    dsTos := how.dsTos.shows old.ds.tos new.ds.tos (Config.seenTos draw tick .dsTos) (written .dsTos)
    rsSp := how.rsSp.shows old.rs.sp new.rs.sp (Config.seenSp draw tick .rsSp) (written .rsSp)
    rsTos := how.rsTos.shows old.rs.tos new.rs.tos (Config.seenTos draw tick .rsTos) (written .rsTos)
    flags := (flagsDuring draw tick how old.flags new.flags).bits
    debug := old.debug }

/-- What a tick shows of the cycle that begins in `s` and fetches to `u`: the phases in their order (40_execution_cycle.md
R120, R121), pc advanced by the fetch, the metadata by the decode; `later` is what it shows once the instruction is decoded. -/
def phased (draw tick : Nat) (s u : State) (later : Snapshot) : Snapshot :=
  if tick < Config.fetchTicks draw then snapshot s
  else if tick < Config.fetchTicks draw + Config.decodeTicks draw then { snapshot u with debug := s.debug }
  else later

/-- The states around an instruction's table read. -/
structure TableTicks where
  /-- The state it starts in. -/
  start : State
  /-- At its first tick, the high half of the target written. -/
  high : State
  /-- At its second, both halves written. -/
  low : State
deriving DecidableEq, Repr

/-- A table read from the state `s`, if it answers. -/
def ticksFrom (base k : Nat) (latchHi latchLo : Cell → State → State) (s : State) : Option TableTicks :=
  match tableTicks base k latchHi latchLo s with
  | .ok (high, low) => some { start := s, high := high, low := low }
  | .error _ => none

/-- The table read of an instruction executed in `u`, if it has one and the read answers (43_memory_io.md R201,
44_control_transfer.md R226, R227: CALL has pushed its return address by then). -/
def tableTickStates (i : Instr) (u : State) : Option TableTicks :=
  match i with
  | .load k => ticksFrom Config.loadBase k latchHigh latchLow u
  | .call k => ticksFrom Config.callBase k latchPcHigh latchPcLow (pushReturn u)
  | .jmpa k => ticksFrom Config.jmpaBase k latchPcHigh latchPcLow u
  | .jmpr _ | .jz _ | .jl _ | .jo _
  | .sum | .sub | .mul | .div | .mod | .dup | .drop | .swap | .overCell | .rot | .tor | .rfrom | .get | .set | .print
  | .read | .inc | .dec | .cmp | .pushTrue | .pushFalse | .ret | .hlt | .tmod | .tdiv => none

/-- The snapshots at the ticks of an instruction that `s` fetches to `u` and exec takes to `t`, one a tick (`addTicks` counts as
many): unsettled ones, the two of a table read one after the other, and the last, of `t`. Where no tick follows the table
read's second, that tick is the last. -/
def tickSnapshots (i : Instr) (s u t : State) : List Snapshot :=
  let surplus := Config.freeTicks t.draws
  let lead := min (Config.leadTicks t.draws) surplus
  let before (goal : State) (tick : Nat) := phased t.draws tick s u (executing t.draws tick (writeSet i) u goal)
  match tableTickStates i u with
  | none => (List.range surplus).map (before t) ++ [snapshot t]
  | some x =>
    (List.range lead).map (before x.start) ++ snapshot x.high ::
      match surplus - lead with
      | 0 => [snapshot t]
      | n + 1 =>
        snapshot x.low :: (List.range' lead n).map (fun tick => executing t.draws tick writesAfterTable x.low t) ++ [snapshot t]

/-- The snapshots at the ticks of a cycle from `s` that faults, as many as it has counted: `shown` gives that of each. -/
def faultSnapshots (s : State) (shown : Nat → Snapshot) : List Snapshot :=
  (List.range (Config.faultTicks s.draws)).map shown

/-- The snapshots of one step, in order; none where no step is taken. A fetch that faults has written nothing (R121). -/
def observeStep (s : State) : List Snapshot :=
  match s.status with
  | .running =>
    match fetch s with
    | .error _ => faultSnapshots s fun _ => snapshot s
    | .ok (r, u) =>
      match decodeFetched r u with
      | .error _ => faultSnapshots s fun tick => phased s.draws tick s u (snapshot u)
      | .ok i =>
        match exec i u with
        | .next t => tickSnapshots i s u t
        | .fault _ => faultSnapshots s fun tick => phased s.draws tick s u (executing s.draws tick (faultWriteSet i) u u)
        | .refused _ => []
  | .halted => []
  | .faulted _ => []

/-- The snapshots of a run within a budget of instructions, in order (R268, R273). -/
def observe : Nat → State → List Snapshot
  | 0, _ => []
  | k + 1, s =>
    observeStep s ++
      match step s with
      | .next t => if t.status = .halted then [] else observe k t
      | .fault _ => []
      | .refused _ => []

/-- The snapshots of a run within a budget of ticks, one a tick: where the budget ends inside an instruction, those of its
first ticks (R265, R268). Every instruction counts a tick, so as many instructions as ticks show them all. -/
def observeWithinTicks (ticks : Nat) (s : State) : List Snapshot := (observe ticks s).take ticks

end Sys2Proof.Machine
end

