-- ==== Sys2Proof/Machine/Run.lean ====
section
/-! DEFINITION. What the host sees of a run (60_exceptions.md R265, R272, R273): its end within a budget, of
instructions or of ticks. What an observer sees on the way is Machine/Observer.lean. -/

namespace Sys2Proof.Machine

/-- How a run within a budget ends (R272, R265). -/
inductive RunEnd where
  /-- HLT was executed: the final state, Out in it. -/
  | halted (final : State)
  /-- A fault ended the run; no state is given (R263). -/
  | faulted (f : Fault)
  /-- The host's budget ran out; no state is given (R265). -/
  | aborted
  /-- No run: the state had already ended. -/
  | refused (r : Refusal)
deriving DecidableEq, Repr

/-- Run until the status leaves Running, or a budget of instructions is spent (R265). -/
def runWithin : Nat → State → RunEnd
  | 0, _ => .aborted
  | k + 1, s =>
    match step s with
    | .next t => if t.status = .halted then .halted t else runWithin k t
    | .fault f => .faulted f
    | .refused r => .refused r

/-- Run until the status leaves Running, or an instruction passes the tick `limit`, for at most this many instructions. An
instruction that faults counts its own ticks first (Log 9). -/
def runToTick (limit : Nat) : Nat → State → RunEnd
  | 0, _ => .aborted
  | k + 1, s =>
    match step s with
    | .next t => if limit < t.tick then .aborted else if t.status = .halted then .halted t else runToTick limit k t
    | .fault f => if limit < s.tick + Config.faultTicks s.draws then .aborted else .faulted f
    | .refused r => .refused r

/-- Run until the status leaves Running, or a budget of ticks is spent (R265): an instruction that does not end within it is
aborted in its midst. Every instruction counts a tick (40_execution_cycle.md R127), so one instruction more than there are ticks
outruns the budget. -/
def runWithinTicks (ticks : Nat) (s : State) : RunEnd := runToTick (s.tick + ticks) (ticks + 1) s

/-- A host's budget (R265). -/
inductive Budget where
  | instructions (count : Nat)
  | ticks (count : Nat)
deriving DecidableEq, Repr

/-- A run under a host's budget. -/
def runUnder (budget : Budget) (s : State) : RunEnd :=
  match budget with
  | .instructions count => runWithin count s
  | .ticks count => runWithinTicks count s

/-- The run status an end leaves (R251, R272); an abort is no status of R33. -/
def RunEnd.status : RunEnd → Option RunStatus
  | .halted _ => some .halted
  | .faulted f => some (.faulted f)
  | .aborted => none
  | .refused _ => none

end Sys2Proof.Machine
end

