-- ==== Sys2Proof/Safety.lean ====
section
/-! DEFINITION. The terms the claims are stated in: what an outcome gives, the invariant of a run from a well-formed
image, and the relations between two states that the rules of spec/ describe in words. -/

namespace Sys2Proof.Machine

/-! ### Outcomes -/

/-- The next state of an outcome. -/
def nextState? : Outcome → Option State
  | .next s => some s
  | .fault _ => none
  | .refused _ => none

/-- The fault of an outcome. -/
def faultOf? : Outcome → Option Fault
  | .next _ => none
  | .fault f => some f
  | .refused _ => none

/-- The refusal of an outcome. -/
def refusalOf? : Outcome → Option Refusal
  | .next _ => none
  | .fault _ => none
  | .refused r => some r

/-! ### The invariant -/

/-- The four memories are in canonical form. -/
abbrev State.Canonical (s : State) : Prop :=
  s.ram.wf ∧ s.ds.wf ∧ s.rs.wf ∧ s.imem.wf

/-- Instruction memory has the layout of a well-formed image (20_memory.md R66, 30_encoding.md R112): data bytes below
PROGRAM_BASE and none from there on. -/
def State.ImageShaped (s : State) : Prop :=
  ∀ a : Addr, if a.toNat < Config.programBase then ∃ b, s.imem.read a = .data b else ∀ b, s.imem.read a ≠ .data b

/-- What holds throughout a run of a well-formed image: canonical memories, the image's layout, and a status that no
fault has set (a fault ends the run and leaves no state, 60_exceptions.md R263). -/
def State.Inv (s : State) : Prop :=
  s.Canonical ∧ s.ImageShaped ∧ ∀ f, s.status ≠ .faulted f

/-- `k` instructions lead from `s` to `t`, the run still running. -/
def RunsFor : Nat → State → State → Prop
  | 0, s, t => s = t
  | k + 1, s, t => ∃ u, step s = .next u ∧ u.status = .running ∧ RunsFor k u t

/-- A run that halts within `k` instructions: no fault, no refusal (60_exceptions.md R272). -/
def HaltsWithin (k : Nat) (s t : State) : Prop := runWithin k s = .halted t

/-- A run that halts within `n` ticks. -/
def HaltsWithinTicks (n : Nat) (s t : State) : Prop := runWithinTicks n s = .halted t

/-- The tick count at which the outcome of the step at `u` is reached: that of the next state, or of a fault what the faulting
instruction has counted (Log 9); none for a refusal. -/
def endsAtTick (u : State) : Option Nat :=
  match step u with
  | .next t => some t.tick
  | .fault _ => some (u.tick + Config.faultTicks u.draws)
  | .refused _ => none

/-! ### The stacks -/

/-- What `S.push(v)` does to a stack, in the words of 20_memory.md R52. -/
def Pushed (S T : Stack) (v : Cell) : Prop :=
  T.sp = S.sp + 1 ∧ T.tos = v ∧ ∀ a : StackPtr, T.data.read a = if a = S.sp + 1 then S.tos else S.data.read a

/-- What `S.pop()` does to a stack that is not at its sentinel, in the words of 20_memory.md R53: `c` is what it returns. -/
def Popped (S T : Stack) (c : Cell) : Prop :=
  S.sp ≠ Config.stackEmptySp ∧ c = S.tos ∧ T.tos = S.data.read S.sp ∧ T.sp = S.sp - 1 ∧
    ∀ a : StackPtr, T.data.read a = S.data.read a

/-- The stack `T` is `S` with its `k` top elements gone and `r` in their place as the top: sp retreats by `k - 1` cells
and every cell of the backing array holds what it held. -/
def TopReplaced (k : Nat) (S T : Stack) (r : Cell) : Prop :=
  T.sp = S.sp - BitVec.ofNat Config.spBits (k - 1) ∧ T.tos = r ∧ ∀ a : StackPtr, T.data.read a = S.data.read a

/-! ### Results of the ALU -/

/-- The cell `r` and the flags `f` are those of the exact result `x`: reduced modulo 256, Z and N of the reduced result,
V iff the exact one left the signed range (40_execution_cycle.md R128, 41_alu.md R152). -/
def ReducedResult (x : Int) (r : Cell) (f : Flags) : Prop :=
  (r.toNat : Int) = x % 256 ∧ f.z = decide (r = 0) ∧ f.n = decide (128 ≤ r.toNat) ∧
    f.v = decide (x < -128 ∨ 127 < x)

/-- The rule of a two-operand ALU instruction: its word, its fault below two elements, and on `( a b -- r )` the result
cell and flags that `post` allows, with nothing else of the state changed. -/
def BinaryRule (word : SlotWord) (i : Instr) (post : Cell → Cell → Cell → Flags → Prop) : Prop :=
  decodeWord word = .instr i ∧
  ∀ s : State,
    (s.ds.depth < 2 → exec i s = .fault (.stackUnderflow s.faultPc s.debug)) ∧
    ∀ a b, s.ds.elem 1 = some a → s.ds.elem 0 = some b →
      ∃ t, exec i s = .next t ∧ t = (s.withDs t.ds).withFlags t.flags ∧
        TopReplaced 2 s.ds t.ds t.ds.tos ∧ post a b t.ds.tos t.flags

/-- The rule of INC and DEC: the word, the fault on an empty stack, and the top replaced in place by `r` with V as `v`
says of the old top and the old V. -/
def InPlaceRule (word : SlotWord) (i : Instr) (result : Cell → Int) (v : Cell → Bool → Bool) : Prop :=
  decodeWord word = .instr i ∧
  ∀ s : State,
    (s.ds.depth = 0 → exec i s = .fault (.stackUnderflow s.faultPc s.debug)) ∧
    ∀ x, s.ds.elem 0 = some x →
      ∃ t, exec i s = .next t ∧ t = (s.withDs t.ds).withFlags t.flags ∧
        TopReplaced 1 s.ds t.ds t.ds.tos ∧ (t.ds.tos.toNat : Int) = result x % 256 ∧
        t.flags.z = decide (t.ds.tos = 0) ∧ t.flags.n = decide (128 ≤ t.ds.tos.toNat) ∧ t.flags.v = v x s.flags.v

/-- The rule of TDIV and TMOD: the word, the fault below six elements, the fault on a zero divisor, and otherwise the
24-bit result in place of the two operands, high cell on top; the flags and the count of free values are not said. -/
def TripleRule (word : SlotWord) (i : Instr) (result : Triple → Triple → Int) : Prop :=
  decodeWord word = .instr i ∧
  ∀ s : State,
    (s.ds.depth < 6 → exec i s = .fault (.stackUnderflow s.faultPc s.debug)) ∧
    ∀ al am ah bl bm bh : Cell,
      s.ds.elem 5 = some al → s.ds.elem 4 = some am → s.ds.elem 3 = some ah →
      s.ds.elem 2 = some bl → s.ds.elem 1 = some bm → s.ds.elem 0 = some bh →
      (bh ++ bm ++ bl = (0 : Triple) → exec i s = .fault (.divideByZeroFatal s.faultPc s.debug)) ∧
      (bh ++ bm ++ bl ≠ (0 : Triple) →
        ∃ (t : State) (q : Triple), exec i s = .next t ∧
          t = ((s.withDs t.ds).withFlags t.flags).withDraws t.draws ∧
          (q.toNat : Int) = result (ah ++ am ++ al) (bh ++ bm ++ bl) % 16777216 ∧
          t.ds.sp = s.ds.sp - 3 ∧
          t.ds.elem 2 = some (q.extractLsb' 0 8) ∧ t.ds.elem 1 = some (q.extractLsb' 8 8) ∧
          t.ds.elem 0 = some (q.extractLsb' 16 8) ∧
          ∀ a, a ≠ s.ds.sp - 3 → a ≠ s.ds.sp - 4 → t.ds.data.read a = s.ds.data.read a)

/-! ### Tables and jumps -/

/-- Slot `i` of the table at `base` holds the bytes `h` (high, lower address) and `l` (20_memory.md R66). -/
def TableSlot (s : State) (base i : Nat) (h l : Cell) : Prop :=
  s.imem.read (BitVec.ofNat 16 (base + 2 * i)) = .data h ∧ s.imem.read (BitVec.ofNat 16 (base + 2 * i + 1)) = .data l

/-- Every record with this tag and no offset in 0..31 fails decode: its step is the fault UnknownOpcode at its slot
(30_encoding.md R96, R98). -/
def IndexChecked (tag : String) : Prop :=
  ∀ (s : State) (r : Record), s.status = .running → s.imem.read s.pc = .instr r → r.opcode = tag →
    (∀ k : Nat, k < 32 → r.offset ≠ some (k : Int)) → step s = .fault (.unknownOpcode s.pc r.debug)

/-- Every record with this tag and no offset fails decode (30_encoding.md R96). -/
def OffsetNeeded (tag : String) : Prop :=
  ∀ (s : State) (r : Record), s.status = .running → s.imem.read s.pc = .instr r → r.opcode = tag →
    r.offset = none → step s = .fault (.unknownOpcode s.pc r.debug)

/-- Where a relative jump taken at `s` goes (44_control_transfer.md R221): pc plus the offset if that is in 0..65535,
with nothing else of the state changed, and the fault BadAddress otherwise. -/
def TakenJump (i : Instr) (off : Int) (s : State) : Prop :=
  (0 ≤ (s.pc.toNat : Int) + off ∧ (s.pc.toNat : Int) + off ≤ 65535 →
    ∃ t, exec i s = .next t ∧ t = s.withPc t.pc ∧ (t.pc.toNat : Int) = s.pc.toNat + off) ∧
  ((s.pc.toNat : Int) + off < 0 ∨ 65535 < (s.pc.toNat : Int) + off →
    exec i s = .fault (.badAddress s.faultPc s.debug))

/-- The rule of a conditional relative jump that tests `flag` (R223 to R225). -/
def ConditionalRule (wordBase : BitVec 8) (tag : String) (jump : Int → Instr) (flag : Flags → Bool) : Prop :=
  (∀ off : BitVec 24, decodeWord (wordBase ++ off) = .instr (jump off.toInt)) ∧ OffsetNeeded tag ∧
  ∀ (s : State) (off : Int),
    (flag s.flags = true → TakenJump (jump off) off s) ∧ (flag s.flags = false → exec (jump off) s = .next s)

/-! ### Families of the instruction set -/

/-- The instructions that write flags (10_state.md R23). -/
def writesFlags : Instr → Bool
  | .sum | .sub | .mul | .div | .mod | .inc | .dec | .cmp | .tdiv | .tmod => true
  | .dup | .drop | .swap | .overCell | .rot | .tor | .rfrom | .get | .set | .print | .read | .pushTrue | .pushFalse | .ret
  | .hlt | .jmpr _ | .jz _ | .jl _ | .jo _ | .load _ | .call _ | .jmpa _ => false

/-- The instructions that write DS (10_state.md R26). -/
def writesDs : Instr → Bool
  | .sum | .sub | .mul | .div | .mod | .inc | .dec | .tdiv | .tmod
  | .dup | .drop | .swap | .overCell | .rot | .tor | .rfrom | .get | .set | .print | .read | .pushTrue | .pushFalse
  | .load _ => true
  | .cmp | .ret | .hlt | .jmpr _ | .jz _ | .jl _ | .jo _ | .call _ | .jmpa _ => false

/-- The instructions that write RS (10_state.md R27). -/
def writesRs : Instr → Bool
  | .tor | .rfrom | .ret | .call _ => true
  | .sum | .sub | .mul | .div | .mod | .inc | .dec | .cmp | .tdiv | .tmod
  | .dup | .drop | .swap | .overCell | .rot | .get | .set | .print | .read | .pushTrue | .pushFalse
  | .hlt | .jmpr _ | .jz _ | .jl _ | .jo _ | .load _ | .jmpa _ => false

/-- The instructions that write pc beyond the fetch (40_execution_cycle.md R124). -/
def transfersControl : Instr → Bool
  | .jmpr _ | .jz _ | .jl _ | .jo _ | .jmpa _ | .call _ | .ret => true
  | .sum | .sub | .mul | .div | .mod | .inc | .dec | .cmp | .tdiv | .tmod
  | .dup | .drop | .swap | .overCell | .rot | .tor | .rfrom | .get | .set | .print | .read | .pushTrue | .pushFalse
  | .hlt | .load _ => false

/-- The instructions that read DS or RS (60_exceptions.md R252, row StackUnderflow). -/
def readsStack : Instr → Bool
  | .sum | .sub | .mul | .div | .mod | .inc | .dec | .cmp | .tdiv | .tmod
  | .dup | .drop | .swap | .overCell | .rot | .tor | .rfrom | .get | .set | .print | .ret => true
  | .read | .pushTrue | .pushFalse | .hlt | .jmpr _ | .jz _ | .jl _ | .jo _ | .load _ | .call _ | .jmpa _ => false

/-- The instructions whose address can be bad in execution (R252, row BadAddress): the relative jumps and the table reads. -/
def mayMissAddress : Instr → Bool
  | .jmpr _ | .jz _ | .jl _ | .jo _ | .load _ | .call _ | .jmpa _ => true
  | .sum | .sub | .mul | .div | .mod | .inc | .dec | .cmp | .tdiv | .tmod
  | .dup | .drop | .swap | .overCell | .rot | .tor | .rfrom | .get | .set | .print | .read | .pushTrue | .pushFalse | .ret
  | .hlt => false

/-! ### The observer -/

/-- What the rules fix of a snapshot at any tick of a cycle from `s` that runs `i`, the instruction of the record `r`, whether or
not it faults: a register the instruction does not write is as it was (10_state.md R23, 20_memory.md R59), pc is that of the
slot or one past it until the instruction itself writes it (40_execution_cycle.md R124), and the metadata is that of the
instruction or of the one before. -/
def FixedAtATick (s : State) (r : Record) (i : Instr) (x : Snapshot) : Prop :=
  (x.debug = s.debug ∨ x.debug = r.debug) ∧
  (writesFlags i = false → x.flags = s.flags.bits) ∧
  (writesDs i = false → x.dsSp = s.ds.sp ∧ x.dsTos = s.ds.tos) ∧
  (writesRs i = false → x.rsSp = s.rs.sp ∧ x.rsTos = s.rs.tos) ∧
  (transfersControl i = false → x.pc = s.pc ∨ x.pc = s.pc + 1)

end Sys2Proof.Machine
end

