-- ==== Sys2Proof/Certificates/Slice0/Obligations.lean ====
section
/-! DEFINITION. The statements for the provers. Each docstring names the rule of spec/ it formalises, and says where a
clause rests on a choice the spec marks as its own or on the model's. -/

open Sys2Proof Sys2Proof.Machine

/-! ### Encoding -/

/-- Words written out from 30_encoding.md R101 to R103, one or more a family, and words R105 calls illegal (the packing is
the spec's own choice, decisions D2 and D3). -/
def Obligations.SampleWordsDecodeAsThePackingSays : Prop :=
  decodeWord 0x80000000#32 = .instr .sum ∧ decodeWord 0x98000000#32 = .instr .tdiv ∧
  decodeWord 0x89000000#32 = .instr .rot ∧ decodeWord 0x8D000000#32 = .instr .set ∧
  decodeWord 0x96000000#32 = .instr .hlt ∧ decodeWord 0xB9FFFFF9#32 = .instr (.jmpr (-7)) ∧
  decodeWord 0xBA000001#32 = .instr (.jz 1) ∧ decodeWord 0xBD00001F#32 = .instr (.load 31) ∧
  decodeWord 0xBE000005#32 = .instr (.call 5) ∧ decodeWord 0xBF000000#32 = .instr (.jmpa 0) ∧
  decodeWord 0x00000041#32 = .data 0x41 ∧ decodeWord 0xBD000020#32 = .invalid .operandField ∧
  decodeWord 0xA0000000#32 = .invalid .operandField ∧ decodeWord 0xC0000000#32 = .invalid .reservedBitSet ∧
  decodeWord 0x00000100#32 = .invalid .dataWordTooWide

/-- Decode of encode, for every instruction the packing has a word for, every operand at every value; a relative offset outside
-2^23..2^23-1 has no word and is refused, never truncated (30_encoding.md R101, R103, R104, R106; the packing is the spec's own
choice, D2, D3). That an ill-formed instruction, one with an index outside 0..31, has no word either is the model's choice
(Log 19). -/
def Obligations.DecodeOfEncodedWordIsTheInstruction : Prop :=
  ∀ i : Instr,
    (i.wf = true → i.packable = true → ∃ w, encodeWord i = some w ∧ decodeWord w = .instr i) ∧
    (i.wf = false ∨ i.packable = false → encodeWord i = none)

/-- Encode of decode: an instruction word has one meaning and that meaning one word (30_encoding.md R101, R104, R105; D2, D3). -/
def Obligations.EncodeOfDecodedWordIsTheWord : Prop :=
  ∀ (w : SlotWord) (i : Instr), decodeWord w = .instr i → encodeWord i = some w

/-- The illegal words are exactly those 30_encoding.md R105 lists, field by field as R101 gives them (D3). -/
def Obligations.IllegalWordsAreExactlyThoseListed : Prop :=
  ∀ w : SlotWord, (∃ reason, decodeWord w = .invalid reason) ↔
    (w.getLsbD 31 = false ∧ w.extractLsb' 8 23 ≠ 0) ∨
    (w.getLsbD 31 = true ∧ w.getLsbD 30 = true) ∨
    (w.getLsbD 31 = true ∧ w.getLsbD 30 = false ∧
      match (Mnemonic.ofOp (w.extractLsb' 24 5)).operandClass with
      | .direct => w.getLsbD 29 = true ∨ w.extractLsb' 0 24 ≠ 0
      | .relative => w.getLsbD 29 = false
      | .table => w.getLsbD 29 = false ∨ w.extractLsb' 5 19 ≠ 0)

/-- Record-level decode accepts exactly the records 40_execution_cycle.md R122 accepts, and gives the instruction with
that tag and that offset (its checks on direct records and indices are the spec's own choice, D16). -/
def Obligations.RecordDecodeAcceptsExactlyTheLegalRecords : Prop :=
  ∀ (r : Record) (i : Instr), decodeRecord r = .ok i ↔
    r.opcode = i.mnemonic.name ∧ r.offset = i.offset ∧ i.wf = true

/-- A data byte's word is the byte zero-extended, and gives that byte back (30_encoding.md R102, R104; D3). The slot a word
stands for decodes, as a record, to what the word decodes to (00_scope.md R5: the two forms agree; an Invalid word's record
fails decode, 30_encoding.md R106; that it is a record with an unknown tag is Log 12). -/
def Obligations.WordFormAndRecordFormAgree : Prop :=
  (∀ b : Cell, packSlot (.data b) = some (b.setWidth 32) ∧ decodeWord (b.setWidth 32) = .data b) ∧
  ∀ w : SlotWord, match decodeWord w with
    | .data b => w = b.setWidth 32 ∧ slotOfWord w = .data b
    | .instr i => ∃ r, slotOfWord w = .instr r ∧ decodeRecord r = .ok i
    | .invalid _ => ∃ r e, slotOfWord w = .instr r ∧ decodeRecord r = .error e

/-! ### Stacks and RAM -/

/-- 20_memory.md R52: also when the stack is full, where sp wraps to the sentinel. -/
def Obligations.PushAdvancesAndCopiesTheTopDown : Prop :=
  ∀ (S : Stack) (v : Cell), Pushed S (S.push v) v ∧ (S.depth = 65535 → (S.push v).sp = Config.stackEmptySp)

/-- 20_memory.md R53, on either stack: the fault at the sentinel, and else the popped stack with nothing else changed. -/
def Obligations.PopReturnsTheTopAndFailsAtTheSentinel : Prop :=
  ∀ s : State,
    (s.ds.sp = Config.stackEmptySp → popDs s = .error (.stackUnderflow s.faultPc s.debug)) ∧
    (s.ds.sp ≠ Config.stackEmptySp → ∃ c T, popDs s = .ok (c, s.withDs T) ∧ Popped s.ds T c) ∧
    (s.rs.sp = Config.stackEmptySp → popRs s = .error (.stackUnderflow s.faultPc s.debug)) ∧
    (s.rs.sp ≠ Config.stackEmptySp → ∃ c T, popRs s = .ok (c, s.withRs T) ∧ Popped s.rs T c)

/-- The elements of a stack after a push, below and at the wraparound, and push and pop as inverses (95_test_vectors.md
S-1; 20_memory.md R55 and R57, which the spec marks as derived; the underflow of non-live reads is decision D7). -/
def Obligations.PushShiftsTheElementsAndPopUndoesIt : Prop :=
  ∀ (S : Stack) (v : Cell),
    (S.depth < 65535 → (S.push v).depth = S.depth + 1 ∧ (S.push v).elem 0 = some v ∧
      (∀ k, (S.push v).elem (k + 1) = S.elem k) ∧
      ∃ T, (S.push v).pop = some (v, T) ∧ T.sp = S.sp ∧ T.tos = S.tos ∧ ∀ k, T.elem k = S.elem k) ∧
    (S.depth = 65535 → (S.push v).depth = 0 ∧ (S.push v).pop = none ∧ ∀ k, (S.push v).elem k = none)

/-- The two latches, the load and the store of RAM: 20_memory.md R61, R62, R63. -/
def Obligations.LatchesLoadAndStoreAct : Prop :=
  ∀ (s : State) (b v : Cell),
    (latchHigh b s = s.withAd (latchHigh b s).ad ∧ (latchHigh b s).ad.extractLsb' 8 8 = b ∧
      (latchHigh b s).ad.extractLsb' 0 8 = s.ad.extractLsb' 0 8) ∧
    (latchLow b s = s.withAd (latchLow b s).ad ∧ (latchLow b s).ad.extractLsb' 0 8 = b ∧
      (latchLow b s).ad.extractLsb' 8 8 = s.ad.extractLsb' 8 8) ∧
    memRead s = s.ram.read s.ad ∧
    memWrite v s = s.withRam (memWrite v s).ram ∧
    ∀ a, (memWrite v s).ram.read a = if a = s.ad then v else s.ram.read a

/-! ### The ALU family -/

/-- 41_alu.md R152. The word is that of R103 (D2). -/
def Obligations.SumRule : Prop :=
  BinaryRule 0x80000000#32 .sum fun a b r f => ReducedResult (a.toInt + b.toInt) r f

/-- 41_alu.md R153. The word is that of R103 (D2). -/
def Obligations.SubRule : Prop :=
  BinaryRule 0x81000000#32 .sub fun a b r f => ReducedResult (a.toInt - b.toInt) r f

/-- 41_alu.md R154. The word is that of R103 (D2). -/
def Obligations.MulRule : Prop :=
  BinaryRule 0x82000000#32 .mul fun a b r f => ReducedResult (a.toInt * b.toInt) r f

/-- DIV, 41_alu.md section 2: Z and N on a zero divisor, and V on a quotient out of range, are the spec's own choice
(decisions D18, D19); the rounding is the open parameter (D17). -/
def Obligations.DivRule : Prop :=
  BinaryRule 0x83000000#32 .div fun a b r f =>
    (b = 0 → r = 0 ∧ f = { z := true, n := false, v := true }) ∧
    (b ≠ 0 → ReducedResult (divq Config.divRounding a.toInt b.toInt) r f)

/-- MOD, 41_alu.md section 2: Z and N on a zero divisor, and V = 0 on another, are the spec's own choice (D18, D19); the
rounding is the open parameter (D17). -/
def Obligations.ModRule : Prop :=
  BinaryRule 0x84000000#32 .mod fun a b r f =>
    (b = 0 → r = 0 ∧ f = { z := true, n := false, v := true }) ∧
    (b ≠ 0 → (r.toNat : Int) = divr Config.divRounding a.toInt b.toInt % 256 ∧
      f = { z := decide (r = 0), n := decide (128 ≤ r.toNat), v := false })

/-- INC, 41_alu.md section 2: V without a wrap is the open parameter (D20). -/
def Obligations.IncRule : Prop :=
  InPlaceRule 0x90000000#32 .inc (fun x => x.toNat + 1) fun x old =>
    if x = 255 then true else match Config.incDecOvf with
      | .clear => false
      | .keep => old

/-- DEC, 41_alu.md section 2: V is never set, and cleared or kept by the open parameter (D20). -/
def Obligations.DecRule : Prop :=
  InPlaceRule 0x91000000#32 .dec (fun x => x.toNat - 1) fun _ old =>
    match Config.incDecOvf with
    | .clear => false
    | .keep => old

/-- CMP, 41_alu.md section 2: nothing changes but the flags and the count of free values; Z iff equal, N iff signed less
(the reading of "magnitude" is the spec's own choice, D21); V is a free value, of which nothing is said. -/
def Obligations.CmpRule : Prop :=
  decodeWord 0x92000000#32 = .instr .cmp ∧
  ∀ s : State,
    (s.ds.depth < 2 → exec .cmp s = .fault (.stackUnderflow s.faultPc s.debug)) ∧
    ∀ a b, s.ds.elem 1 = some a → s.ds.elem 0 = some b →
      ∃ t, exec .cmp s = .next t ∧ t = (s.withFlags t.flags).withDraws t.draws ∧
        t.flags.z = decide (a = b) ∧ t.flags.n = decide (a.toInt < b.toInt)

/-- TDIV, 41_alu.md section 3: the divisor on top, the result's layout and the free flags are the spec's own choice (D22);
signedness and rounding are open parameters (D17, D22). -/
def Obligations.TdivRule : Prop :=
  TripleRule 0x98000000#32 .tdiv fun A B =>
    if Config.t24Signed then divq Config.divRounding A.toInt B.toInt else ((A.toNat / B.toNat : Nat) : Int)

/-- TMOD, 41_alu.md section 3: choices as TDIV (D17, D22). -/
def Obligations.TmodRule : Prop :=
  TripleRule 0x97000000#32 .tmod fun A B =>
    if Config.t24Signed then divr Config.divRounding A.toInt B.toInt else ((A.toNat % B.toNat : Nat) : Int)

/-! ### The stack family (the stack effects are marked "from general knowledge" by the spec, 42_stack_ops.md section 1) -/

/-- DUP, 42_stack_ops.md section 2 (general knowledge; the fault is decision D7). -/
def Obligations.DupRule : Prop :=
  decodeWord 0x85000000#32 = .instr .dup ∧
  ∀ s : State,
    (s.ds.depth = 0 → exec .dup s = .fault (.stackUnderflow s.faultPc s.debug)) ∧
    ∀ x, s.ds.elem 0 = some x → ∃ t, exec .dup s = .next t ∧ t = s.withDs t.ds ∧ Pushed s.ds t.ds x

/-- DROP, 42_stack_ops.md section 2 (general knowledge). -/
def Obligations.DropRule : Prop :=
  decodeWord 0x86000000#32 = .instr .drop ∧
  ∀ s : State,
    (s.ds.depth = 0 → exec .drop s = .fault (.stackUnderflow s.faultPc s.debug)) ∧
    ∀ x, s.ds.elem 0 = some x → ∃ t, exec .drop s = .next t ∧ t = s.withDs t.ds ∧ Popped s.ds t.ds x

/-- SWAP, 42_stack_ops.md R183: tos and data[sp] exchanged, sp and every other cell as they were. -/
def Obligations.SwapRule : Prop :=
  decodeWord 0x87000000#32 = .instr .swap ∧
  ∀ s : State,
    (s.ds.depth < 2 → exec .swap s = .fault (.stackUnderflow s.faultPc s.debug)) ∧
    ∀ a b, s.ds.elem 1 = some a → s.ds.elem 0 = some b →
      ∃ t, exec .swap s = .next t ∧ t = s.withDs t.ds ∧ t.ds.sp = s.ds.sp ∧
        t.ds.elem 1 = some b ∧ t.ds.elem 0 = some a ∧
        ∀ p, t.ds.data.read p = if p = s.ds.sp then s.ds.tos else s.ds.data.read p

/-- OVER, 42_stack_ops.md section 2 (general knowledge; the fault is decision D7). -/
def Obligations.OverRule : Prop :=
  decodeWord 0x88000000#32 = .instr .overCell ∧
  ∀ s : State,
    (s.ds.depth < 2 → exec .overCell s = .fault (.stackUnderflow s.faultPc s.debug)) ∧
    ∀ a, s.ds.elem 1 = some a → ∃ t, exec .overCell s = .next t ∧ t = s.withDs t.ds ∧ Pushed s.ds t.ds a

/-- ROT, 42_stack_ops.md section 2 (general knowledge). -/
def Obligations.RotRule : Prop :=
  decodeWord 0x89000000#32 = .instr .rot ∧
  ∀ s : State,
    (s.ds.depth < 3 → exec .rot s = .fault (.stackUnderflow s.faultPc s.debug)) ∧
    ∀ a b c, s.ds.elem 2 = some a → s.ds.elem 1 = some b → s.ds.elem 0 = some c →
      ∃ t, exec .rot s = .next t ∧ t = s.withDs t.ds ∧ t.ds.sp = s.ds.sp ∧
        t.ds.elem 2 = some b ∧ t.ds.elem 1 = some c ∧ t.ds.elem 0 = some a ∧
        ∀ p, p ≠ s.ds.sp → p ≠ s.ds.sp - 1 → t.ds.data.read p = s.ds.data.read p

/-- TOR, 42_stack_ops.md section 3 (general knowledge). -/
def Obligations.TorRule : Prop :=
  decodeWord 0x8A000000#32 = .instr .tor ∧
  ∀ s : State,
    (s.ds.depth = 0 → exec .tor s = .fault (.stackUnderflow s.faultPc s.debug)) ∧
    ∀ x, s.ds.elem 0 = some x →
      ∃ t, exec .tor s = .next t ∧ t = (s.withDs t.ds).withRs t.rs ∧ Popped s.ds t.ds x ∧ Pushed s.rs t.rs x

/-- RFROM, 42_stack_ops.md section 3 (general knowledge). -/
def Obligations.RfromRule : Prop :=
  decodeWord 0x8B000000#32 = .instr .rfrom ∧
  ∀ s : State,
    (s.rs.depth = 0 → exec .rfrom s = .fault (.stackUnderflow s.faultPc s.debug)) ∧
    ∀ x, s.rs.elem 0 = some x →
      ∃ t, exec .rfrom s = .next t ∧ t = (s.withDs t.ds).withRs t.rs ∧ Popped s.rs t.rs x ∧ Pushed s.ds t.ds x

/-- TRUE and FALSE, 42_stack_ops.md section 4: the cells are open parameters (D11); neither ever faults. -/
def Obligations.TrueAndFalseRules : Prop :=
  decodeWord 0x93000000#32 = .instr .pushTrue ∧ decodeWord 0x94000000#32 = .instr .pushFalse ∧
  ∀ s : State,
    (∃ t, exec .pushTrue s = .next t ∧ t = s.withDs t.ds ∧ Pushed s.ds t.ds Config.trueCell) ∧
    (∃ t, exec .pushFalse s = .next t ∧ t = s.withDs t.ds ∧ Pushed s.ds t.ds Config.falseCell)

/-! ### The memory and I/O family -/

/-- LOAD, 43_memory_io.md section 2: that LOAD pushes the cell its slot names is the spec's own choice (D9). -/
def Obligations.LoadRule : Prop :=
  (∀ i : BitVec 5, decodeWord (0xBD000000#32 ||| i.setWidth 32) = .instr (.load i.toNat)) ∧ IndexChecked "LOAD" ∧
  ∀ (s : State) (i : Nat), i < 32 →
    (∀ h l, TableSlot s 0 i h l →
      ∃ t, exec (.load i) s = .next t ∧ t = (s.withAd (h ++ l)).withDs t.ds ∧ Pushed s.ds t.ds (s.ram.read (h ++ l))) ∧
    ((∀ h l, ¬ TableSlot s 0 i h l) → exec (.load i) s = .fault (.badAddress s.faultPc s.debug))

/-- GET, 43_memory_io.md section 2: the operands and their order are the spec's own choice (D10). -/
def Obligations.GetRule : Prop :=
  decodeWord 0x8C000000#32 = .instr .get ∧
  ∀ s : State,
    (s.ds.depth < 2 → exec .get s = .fault (.stackUnderflow s.faultPc s.debug)) ∧
    ∀ hi lo, s.ds.elem 1 = some hi → s.ds.elem 0 = some lo →
      ∃ t, exec .get s = .next t ∧ t = (s.withAd (hi ++ lo)).withDs t.ds ∧
        TopReplaced 2 s.ds t.ds (s.ram.read (hi ++ lo))

/-- SET, 43_memory_io.md section 2: the operands and their order are the spec's own choice (D10). The one cell stored to
is that at `hi ++ lo`. -/
def Obligations.SetRule : Prop :=
  decodeWord 0x8D000000#32 = .instr .set ∧
  ∀ s : State,
    (s.ds.depth < 3 → exec .set s = .fault (.stackUnderflow s.faultPc s.debug)) ∧
    ∀ v hi lo, s.ds.elem 2 = some v → s.ds.elem 1 = some hi → s.ds.elem 0 = some lo →
      ∃ t A B, exec .set s = .next t ∧ t = ((s.withAd (hi ++ lo)).withDs t.ds).withRam t.ram ∧
        Popped s.ds A lo ∧ Popped A B hi ∧ Popped B t.ds v ∧
        ∀ a, t.ram.read a = if a = hi ++ lo then v else s.ram.read a

/-- 43_memory_io.md R204. The word is that of R103 (D2). -/
def Obligations.PrintRule : Prop :=
  decodeWord 0x8E000000#32 = .instr .print ∧
  ∀ s : State,
    (s.ds.depth = 0 → exec .print s = .fault (.stackUnderflow s.faultPc s.debug)) ∧
    ∀ x, s.ds.elem 0 = some x →
      ∃ t, exec .print s = .next t ∧ t = (s.withDs t.ds).withOut (s.outBuf ++ [x]) ∧ Popped s.ds t.ds x

/-- 43_memory_io.md R205. The word is that of R103 (D2). -/
def Obligations.ReadRule : Prop :=
  decodeWord 0x8F000000#32 = .instr .read ∧
  ∀ s : State,
    (s.inBuf = [] → exec .read s = .fault (.ioUnderflow s.faultPc s.debug)) ∧
    ∀ rest x, s.inBuf = rest ++ [x] →
      ∃ t, exec .read s = .next t ∧ t = (s.withIn rest).withDs t.ds ∧ Pushed s.ds t.ds x

/-! ### The control-transfer family -/

/-- JMPR, 44_control_transfer.md section 2: the fault on a target out of range is the spec's own choice (D13); the target
of a jump at address 65535, where pc is 0, is the model's reading (Log 10). -/
def Obligations.JmprRule : Prop :=
  (∀ off : BitVec 24, decodeWord (0xB9#8 ++ off) = .instr (.jmpr off.toInt)) ∧ OffsetNeeded "JMPR" ∧
  ∀ (s : State) (off : Int), TakenJump (.jmpr off) off s

/-- JZ, JL and JO, 44_control_transfer.md section 2: which flag each tests is the spec's own choice (D12), as is the fault
on a target out of range (D13); a jump not taken changes nothing. The target of a jump at address 65535, where pc is 0, is the
model's reading (Log 10). -/
def Obligations.ConditionalJumpRules : Prop :=
  ConditionalRule 0xBA#8 "JZ" .jz Flags.z ∧ ConditionalRule 0xBB#8 "JL" .jl Flags.n ∧
  ConditionalRule 0xBC#8 "JO" .jo Flags.v

/-- 44_control_transfer.md R226. The word is that of R103 (D2); the index check is that of R98 (D16). -/
def Obligations.JmpaRule : Prop :=
  (∀ i : BitVec 5, decodeWord (0xBF000000#32 ||| i.setWidth 32) = .instr (.jmpa i.toNat)) ∧ IndexChecked "JMPA" ∧
  ∀ (s : State) (i : Nat), i < 32 →
    (∀ h l, TableSlot s 128 i h l → exec (.jmpa i) s = .next (s.withPc (h ++ l))) ∧
    ((∀ h l, ¬ TableSlot s 128 i h l) → exec (.jmpa i) s = .fault (.badAddress s.faultPc s.debug))

/-- 44_control_transfer.md R227. The word is that of R103 (D2); the index check is that of R98 (D16). -/
def Obligations.CallRule : Prop :=
  (∀ i : BitVec 5, decodeWord (0xBE000000#32 ||| i.setWidth 32) = .instr (.call i.toNat)) ∧ IndexChecked "CALL" ∧
  ∀ (s : State) (i : Nat), i < 32 →
    (∀ h l, TableSlot s 64 i h l →
      ∃ t R, exec (.call i) s = .next t ∧ t = (s.withRs t.rs).withPc (h ++ l) ∧
        Pushed s.rs R (s.pc.extractLsb' 8 8) ∧ Pushed R t.rs (s.pc.extractLsb' 0 8)) ∧
    ((∀ h l, ¬ TableSlot s 64 i h l) → exec (.call i) s = .fault (.badAddress s.faultPc s.debug))

/-- 44_control_transfer.md R228. The word is that of R103 (D2). -/
def Obligations.RetRule : Prop :=
  decodeWord 0x95000000#32 = .instr .ret ∧
  ∀ s : State,
    (s.rs.depth < 2 → exec .ret s = .fault (.stackUnderflow s.faultPc s.debug)) ∧
    ∀ hi lo, s.rs.elem 1 = some hi → s.rs.elem 0 = some lo →
      ∃ t R, exec .ret s = .next t ∧ t = (s.withRs t.rs).withPc (hi ++ lo) ∧
        Popped s.rs R lo ∧ Popped R t.rs hi

/-- 44_control_transfer.md R229. The word is that of R103 (D2). After it no step is taken. -/
def Obligations.HltRule : Prop :=
  decodeWord 0x96000000#32 = .instr .hlt ∧
  ∀ s : State, ∃ t, exec .hlt s = .next t ∧ t = s.withStatus .halted ∧ step t = .refused .runEnded

/-! ### Laws over the instructions -/

/-- The two roundings of 41_alu.md R151: quotient and remainder recompose, the remainder is smaller than the divisor and
takes the dividend's sign with trunc, the divisor's with floor. -/
def Obligations.DivisionRoundsAsItsParameterSays : Prop :=
  ∀ (m : Config.DivRounding) (x y : Int), y ≠ 0 →
    x = y * divq m x y + divr m x y ∧ (divr m x y).natAbs < y.natAbs ∧
    (m = .trunc → 0 ≤ x * divr m x y) ∧ (m = .floor → 0 ≤ y * divr m x y)

/-- The laws of 41_alu.md R163 on cells: SUB undoes SUM, and MUL's cell is the low byte of the unsigned product too. -/
def Obligations.ArithmeticLawsOfTheCells : Prop :=
  ∀ a b : Cell, (subCells (sumCells a b).1 b).1 = a ∧ (mulCells a b).1.toNat = a.toNat * b.toNat % 256

/-- A CALL to a RET comes back to the pc after the CALL and leaves RS as it was, whatever the address bytes
(95_test_vectors.md S-9; 44_control_transfer.md R230). The state at the RET is any that fetch may have made of the CALL's:
pc, fault address and metadata are free. RS has room for two cells. -/
def Obligations.CallThenRetComesBack : Prop :=
  ∀ (s t : State) (i : Nat) (p q : Addr) (d : Option Debug), s.rs.depth < 65534 → exec (.call i) s = .next t →
    ∃ u, exec .ret (((t.withPc p).withFaultPc q).withDebug d) = .next u ∧ u.pc = s.pc ∧
      u.rs.sp = s.rs.sp ∧ u.rs.tos = s.rs.tos ∧ (∀ k, u.rs.elem k = s.rs.elem k) ∧ u.ds = s.ds ∧ u.ram = s.ram ∧
      u.flags = s.flags

/-- Flags are written by the ALU family alone (40_execution_cycle.md section 5; that no other instruction writes one is
the spec's own choice, D23). -/
def Obligations.OnlyAluInstructionsWriteFlags : Prop :=
  ∀ (i : Instr) (s t : State), writesFlags i = false → exec i s = .next t → t.flags = s.flags

/-- Instruction memory is written by no instruction, RAM by SET alone and there at one cell, ad by LOAD, GET and SET alone
(20_memory.md R65, R76; 10_state.md R28, R30). -/
def Obligations.MemoriesChangeOnlyAsTheirRulesSay : Prop :=
  ∀ (i : Instr) (s t : State), exec i s = .next t →
    t.imem = s.imem ∧
    (i ≠ .set → t.ram = s.ram) ∧
    (i = .set → ∀ a, a ≠ t.ad → t.ram.read a = s.ram.read a) ∧
    (t.ad ≠ s.ad → i = .get ∨ i = .set ∨ ∃ k, i = .load k)

/-- PRINT appends the top to Out and no other instruction changes Out or, PRINT included, reads it: whatever Out holds, the
outcome is the same but for Out. READ takes the last cell of In, which it pushes, and no other instruction changes In:
43_memory_io.md R206, R207. -/
def Obligations.BuffersChangeOnlyAtTheirEnds : Prop :=
  ∀ (i : Instr) (s : State),
    (∀ out f, exec i s = .fault f → exec i (s.withOut out) = .fault f) ∧
    ∀ t, exec i s = .next t →
      (∀ out, exec i (s.withOut out) = .next (t.withOut (if i = .print then out ++ [s.ds.tos] else out))) ∧
      t.outBuf = (if i = .print then s.outBuf ++ [s.ds.tos] else s.outBuf) ∧
      (i = .read → s.inBuf = t.inBuf ++ [t.ds.tos]) ∧ (i ≠ .read → t.inBuf = s.inBuf)

/-- What an instruction does does not depend on the tick counter (10_state.md section 6; that it is unbounded is decision
D28): with any other value in it, exec answers alike. That exec itself leaves the counter, so that the whole difference is the
value put in, is the model's choice: the ticks every micro-operation adds are counted after exec, at the end of the step (Log 9;
TicksAdvanceWithEveryInstruction says that they are). -/
def Obligations.NoInstructionReadsTheTickCounter : Prop :=
  ∀ (i : Instr) (s : State) (n : Nat),
    (∀ t, exec i s = .next t → t.tick = s.tick ∧ exec i (s.withTick n) = .next (t.withTick n)) ∧
    (∀ f, exec i s = .fault f → exec i (s.withTick n) = .fault f)

/-- Which instructions touch which stack (10_state.md R26, R27; 20_memory.md R59). -/
def Obligations.EachStackIsTouchedOnlyByItsInstructions : Prop :=
  ∀ (i : Instr) (s t : State), exec i s = .next t →
    (i ≠ .tor → i ≠ .rfrom → i ≠ .ret → (∀ k, i ≠ .call k) → t.rs = s.rs) ∧
    ((i = .cmp ∨ i = .ret ∨ i = .hlt ∨ (∃ k, i = .call k ∨ i = .jmpa k) ∨
      ∃ o, i = .jmpr o ∨ i = .jz o ∨ i = .jl o ∨ i = .jo o) → t.ds = s.ds)

/-- Every instruction adds at least one tick, a table read at least two (40_execution_cycle.md R127; the count beyond is a
free value, D28), and the count never falls (10_state.md R29). -/
def Obligations.TicksAdvanceWithEveryInstruction : Prop :=
  ∀ s t : State, step s = .next t →
    s.tick < t.tick ∧
    ∀ (r : Record) (k : Nat), s.imem.read s.pc = .instr r →
      (decodeRecord r = .ok (.load k) ∨ decodeRecord r = .ok (.call k) ∨ decodeRecord r = .ok (.jmpa k)) →
      s.tick + 2 ≤ t.tick

/-! ### The cycle -/

/-- A step runs the decoded instruction (40_execution_cycle.md R121 to R123): exec of it at the fetched state, pc past the
slot. That the fault address and the metadata are latched in fields of State is the model's choice (Log 5), and so is that a next
state's ticks, the least and a free surplus, are counted once, after exec, with the count of free values advanced by one
(Log 9). -/
def Obligations.StepRunsTheDecodedInstruction : Prop :=
  ∀ (s : State) (r : Record) (i : Instr),
    s.status = .running → s.imem.read s.pc = .instr r → decodeRecord r = .ok i →
    step s = retire i (exec i (((s.withFaultPc s.pc).withDebug r.debug).withPc (s.pc + 1))) ∧
    ∀ t, exec i (((s.withFaultPc s.pc).withDebug r.debug).withPc (s.pc + 1)) = .next t →
      step s = .next ((t.withTick (t.tick + leastTicks i + Config.freeTicks t.draws)).withDraws (t.draws + 1))

/-- What a fetch that finds no instruction does (30_encoding.md section 3, 40_execution_cycle.md sections 1 and 6): the
kinds are the spec's own choice (D15, D16). -/
def Obligations.FetchAndDecodeFaults : Prop :=
  ∀ s : State, s.status = .running →
    (s.imem.read s.pc = .empty → step s = .fault (.badAddress s.pc none)) ∧
    (∀ b, s.imem.read s.pc = .data b → step s = .fault (.unknownOpcode s.pc none)) ∧
    (∀ r e, s.imem.read s.pc = .instr r → decodeRecord r = .error e → step s = .fault (.unknownOpcode s.pc r.debug))

/-- A fault of a step names the instruction (60_exceptions.md R251): the address it was fetched from, and its record's
metadata, absent when the slot holds no record; the run it ends has the status Faulted, and from that status no step is
taken. -/
def Obligations.FaultNamesTheInstruction : Prop :=
  (∀ (s : State) (f : Fault), step s = .fault f →
    f.address = s.pc ∧ f.debugInfo = match s.imem.read s.pc with
      | .instr r => r.debug
      | .data _ => none
      | .empty => none) ∧
  (∀ (k : Nat) (s : State) (f : Fault), step s = .fault f → (runWithin (k + 1) s).status = some (.faulted f)) ∧
  ∀ (s : State) (f : Fault), s.status = .faulted f → step s = .refused .runEnded

/-- Which instruction may raise which fault, and on what (60_exceptions.md section 2, the table; the kinds of decode and
address faults are the spec's own choice, D7, D13, D16, D31). -/
def Obligations.FaultKindsBelongToTheirInstructions : Prop :=
  ∀ (i : Instr) (s : State) (f : Fault), exec i s = .fault f →
    match f with
    | .stackUnderflow _ _ => readsStack i = true
    | .badAddress _ _ => mayMissAddress i = true
    | .unknownOpcode _ _ => False
    | .divideByZeroFatal _ _ =>
      (i = .tdiv ∨ i = .tmod) ∧ s.ds.elem 0 = some 0 ∧ s.ds.elem 1 = some 0 ∧ s.ds.elem 2 = some 0
    | .ioUnderflow _ _ => i = .read ∧ s.inBuf = []

/-- The run status, 10_state.md R33: running at reset; halted after a step exactly when the step ran HLT; no next state is
faulted (a fault is its own outcome); a step is refused exactly when the run has ended, and no instruction is. And how a run
within a host's budget ends (60_exceptions.md section 5). Of k instructions: halted, with the state after HLT, or faulted, exactly
when one of its first k steps comes to that, and else aborted. Of n ticks: halted or faulted exactly when a step comes to that by
the n-th tick, and aborted exactly when a step it reaches ends later, so also in the midst of an instruction. That an instruction
counts its ticks as a whole at its end, and how many one that faults has counted, are the model's (Log 9, Log 16). -/
def Obligations.RunEndsOnlyByHltOrAFault : Prop :=
  (∀ (i : Instr) (s : State) (r : Refusal), exec i s ≠ .refused r) ∧
  (∀ s : State, (∃ r, step s = .refused r) ↔ s.status ≠ .running) ∧
  (∀ s t : State, step s = .next t → (t.status = .running ∨ t.status = .halted) ∧
    (t.status = .halted ↔ ∃ r, s.imem.read s.pc = .instr r ∧ decodeRecord r = .ok .hlt)) ∧
  State.reset.status = .running ∧
  ∀ (k : Nat) (s : State), s.status = .running →
    (∀ t, HaltsWithin k s t ↔ ∃ j u, j < k ∧ RunsFor j s u ∧ step u = .next t ∧ t.status = .halted) ∧
    (∀ f, runWithin k s = .faulted f ↔ ∃ j u, j < k ∧ RunsFor j s u ∧ step u = .fault f) ∧
    (runWithin k s = .aborted ↔ ∃ t, RunsFor k s t) ∧
    (∀ t, HaltsWithinTicks k s t ↔
      ∃ j u, RunsFor j s u ∧ step u = .next t ∧ t.status = .halted ∧ t.tick ≤ s.tick + k) ∧
    (∀ f, runWithinTicks k s = .faulted f ↔
      ∃ j u m, RunsFor j s u ∧ step u = .fault f ∧ endsAtTick u = some m ∧ m ≤ s.tick + k) ∧
    (runWithinTicks k s = .aborted ↔ ∃ j u m, RunsFor j s u ∧ endsAtTick u = some m ∧ s.tick + k < m) ∧
    ∀ r, runUnder (.instructions k) s ≠ .refused r ∧ runUnder (.ticks k) s ≠ .refused r

/-- How pc changes over a step, instruction by instruction (40_execution_cycle.md section 2). Which flag each jump tests is the
spec's own choice (D12), as is that pc wraps (D14); the target of a jump at address 65535, taken from the wrapped pc, is the
model's reading (Log 10). -/
def Obligations.PcChangesOnlyAsTheRulesSay : Prop :=
  ∀ (s t : State) (r : Record) (i : Instr),
    s.imem.read s.pc = .instr r → decodeRecord r = .ok i → step s = .next t →
    match i with
    | .jmpr off => (t.pc.toNat : Int) = (s.pc + 1).toNat + off
    | .jz off => if s.flags.z then (t.pc.toNat : Int) = (s.pc + 1).toNat + off else t.pc = s.pc + 1
    | .jl off => if s.flags.n then (t.pc.toNat : Int) = (s.pc + 1).toNat + off else t.pc = s.pc + 1
    | .jo off => if s.flags.v then (t.pc.toNat : Int) = (s.pc + 1).toNat + off else t.pc = s.pc + 1
    | .jmpa k => ∃ h l, TableSlot s 128 k h l ∧ t.pc = h ++ l
    | .call k => ∃ h l, TableSlot s 64 k h l ∧ t.pc = h ++ l
    | .ret => ∃ hi lo, s.rs.elem 1 = some hi ∧ s.rs.elem 0 = some lo ∧ t.pc = hi ++ lo
    | _ => t.pc = s.pc + 1

/-! ### The invariant and the launch -/

/-- The invariant at reset. -/
def Obligations.InvariantHoldsAtReset : Prop := State.reset.Inv

/-- Every step keeps the invariant: canonical memories, the image's layout, no fault's status (20_memory.md R65, R66,
30_encoding.md R112, 60_exceptions.md R263). -/
def Obligations.EveryStepKeepsTheInvariant : Prop :=
  ∀ s t : State, s.Inv → step s = .next t → t.Inv

/-- With the image's layout no table read faults: BadAddress then comes only from the fetch of an empty slot or a relative
jump out of range (20_memory.md R67, which the spec marks as a decision, D31: "unreachable with a well-formed image"). That a
jump out of range faults is the spec's own choice (D13), and its target at address 65535 is the model's reading (Log 10). -/
def Obligations.TableReadsNeverFaultInAWellFormedImage : Prop :=
  ∀ (s : State) (f : Fault), s.Inv → step s = .fault f →
    match f with
    | .badAddress _ _ => s.imem.read s.pc = .empty ∨
        ∃ r off, s.imem.read s.pc = .instr r ∧ (decodeRecord r = .ok (.jmpr off) ∨ decodeRecord r = .ok (.jz off) ∨
          decodeRecord r = .ok (.jl off) ∨ decodeRecord r = .ok (.jo off)) ∧
          (((s.pc + 1).toNat : Int) + off < 0 ∨ 65535 < ((s.pc + 1).toNat : Int) + off)
    | _ => True

/-- The values at reset that the spec gives (10_state.md section 10): pc 192, both stacks empty with tos 0, ad 0, tick 0,
Out empty, running. What the model chose (the flags, Log 1; the backing arrays, Log 2; no program and no input, Log 4) is
not said. -/
def Obligations.ResetHasTheValuesTheSpecGives : Prop :=
  State.reset.pc = 192 ∧ State.reset.ds.depth = 0 ∧ State.reset.ds.tos = 0 ∧ State.reset.rs.depth = 0 ∧
  State.reset.rs.tos = 0 ∧ State.reset.ad = 0 ∧ State.reset.tick = 0 ∧ State.reset.outBuf = [] ∧
  State.reset.status = .running

/-- What makes a launch well-formed: 30_encoding.md section 6, a to e (the checks are decision D29), where a program's sequence
has at least 192 elements (Log 4, DEDUCED from b); and the model's own two: no RAM address is given twice (Log 11), and the
two backing arrays are lists in canonical form (any contents have one). A launch starts exactly when it is so, and then every
slot, RAM cell and register is as 70_reset_and_hazards.md section 1 says (its values are decisions D4 to D8, D15, D27 to D30,
D34), and the invariant holds. -/
def Obligations.LaunchLoadsTheImage : Prop :=
  ∀ l : Launch,
    (l.wf = true ↔
      l.image.code.length ≤ 65536 ∧ 192 ≤ l.image.code.length ∧
      (∀ j e, l.image.code[j]? = some e →
        if j < 192 then ∃ b, e = .data b ∧ 0 ≤ b ∧ b ≤ 255 else ∃ r, e = .instr r) ∧
      (∀ e ∈ l.image.ram, 0 ≤ e.1 ∧ e.1 ≤ 65535 ∧ 0 ≤ e.2 ∧ e.2 ≤ 255) ∧ (∀ x ∈ l.input, 0 ≤ x ∧ x ≤ 255) ∧
      (l.image.ram.map Prod.fst).Nodup ∧ Stack.dataWf l.dsData ∧ Stack.dataWf l.rsData) ∧
    (l.wf = false → boot l = .refused .illFormedImage) ∧
    (l.wf = true → ∃ s, boot l = .next s ∧ s.Inv ∧
      (∀ a : Addr, s.imem.read a = ((l.image.code[a.toNat]?).map Element.slot).getD .empty) ∧
      (∀ e ∈ l.image.ram, s.ram.read (BitVec.ofInt 16 e.1) = BitVec.ofInt 8 e.2) ∧
      (∀ a : Addr, (∀ e ∈ l.image.ram, e.1 ≠ (a.toNat : Int)) → s.ram.read a = 0) ∧
      s.pc = 192 ∧ s.flags = l.flags0 ∧ s.ds.depth = 0 ∧ s.ds.tos = 0 ∧ s.ds.data = l.dsData ∧
      s.rs.depth = 0 ∧ s.rs.tos = 0 ∧ s.rs.data = l.rsData ∧ s.ad = 0 ∧ s.tick = 0 ∧
      s.inBuf = l.input.map (BitVec.ofInt 8) ∧ s.outBuf = [] ∧ s.status = .running)

/-! ### The observer -/

/-- The observer sees each tick of a step and of a run (60_exceptions.md section 5): as many snapshots as the step adds ticks,
the last of the state after it (the model's reading, Log 9); at the two ticks of a table read, one after the other, CALL and
JMPA with the new high byte and the old low byte in pc and then with both (20_memory.md section 4), LOAD, whose `ad` is not in
a snapshot, first with the stacks as they were. At any tick, also of an instruction that faults, a register the instruction
does not write is as it was (10_state.md R23, 20_memory.md R59, 40_execution_cycle.md R124), and after an instruction that ends
pc has shown nothing but its slot, one past it, where it leads, or the half-written target of a table read; a fetch that finds
no record shows the state as it was. A run that a budget of n ticks aborts has shown n snapshots. When in an instruction a
register is written is free and not said (Log 9). -/
def Obligations.ObserverSeesEveryTick : Prop :=
  (∀ s t : State, step s = .next t →
    t.tick = s.tick + (observeStep s).length ∧ (observeStep s).getLast? = some (snapshot t) ∧
    (∀ k, observe (k + 1) s = observeStep s ++ if t.status = .halted then [] else observe k t) ∧
    ∀ r k h l, s.imem.read s.pc = .instr r →
      (decodeRecord r = .ok (.call k) ∧ TableSlot s 64 k h l ∨ decodeRecord r = .ok (.jmpa k) ∧ TableSlot s 128 k h l →
        ∃ before after, observeStep s =
          before ++ { snapshot t with pc := h ++ (s.pc + 1).extractLsb' 0 8 } :: snapshot t :: after) ∧
      (decodeRecord r = .ok (.load k) →
        ∃ before a after, observeStep s =
          before ++ { snapshot t with dsSp := s.ds.sp, dsTos := s.ds.tos } :: a :: after)) ∧
  (∀ (s : State) (r : Record) (i : Instr), s.imem.read s.pc = .instr r → decodeRecord r = .ok i →
    ∀ x ∈ observeStep s, FixedAtATick s r i x ∧
      ∀ t, step s = .next t →
        x.pc = s.pc ∨ x.pc = s.pc + 1 ∨ x.pc = t.pc ∨
          ((∃ k, i = .call k ∨ i = .jmpa k) ∧ x.pc = t.pc.extractLsb' 8 8 ++ (s.pc + 1).extractLsb' 0 8)) ∧
  (∀ s : State, (∀ r, s.imem.read s.pc ≠ .instr r) → ∀ x ∈ observeStep s, x = snapshot s) ∧
  (∀ (n : Nat) (s : State), runWithinTicks n s = .aborted → (observeWithinTicks n s).length = n) ∧
  ∀ s : State, s.status ≠ .running → ∀ k, observe k s = []
end

