-- ==== Sys2Proof/Laws/Decode.lean ====
section
/-! SUPPORT. What the tables of Decode.lean say, and where a packed word holds its fields. -/

namespace Sys2Proof

/-! ### Well-formedness, constructor by constructor -/

theorem wf_load {i : Nat} : (Instr.load i).wf = true ↔ i < 32 := decide_eq_true_iff
theorem wf_call {i : Nat} : (Instr.call i).wf = true ↔ i < 32 := decide_eq_true_iff
theorem wf_jmpa {i : Nat} : (Instr.jmpa i).wf = true ↔ i < 32 := decide_eq_true_iff
theorem packable_jmpr {off : Int} : (Instr.jmpr off).packable = true ↔ -8388608 ≤ off ∧ off ≤ 8388607 := decide_eq_true_iff
theorem packable_jz {off : Int} : (Instr.jz off).packable = true ↔ -8388608 ≤ off ∧ off ≤ 8388607 := decide_eq_true_iff
theorem packable_jl {off : Int} : (Instr.jl off).packable = true ↔ -8388608 ≤ off ∧ off ≤ 8388607 := decide_eq_true_iff
theorem packable_jo {off : Int} : (Instr.jo off).packable = true ↔ -8388608 ≤ off ∧ off ≤ 8388607 := decide_eq_true_iff

/-! ### The three tables of tags -/

@[simp] theorem ofOp_op (m : Mnemonic) : Mnemonic.ofOp m.op = m := by cases m <;> rfl

theorem op_ofOp (o : BitVec 5) : (Mnemonic.ofOp o).op = o := by revert o; decide

@[simp] theorem ofName_name (m : Mnemonic) : Mnemonic.ofName m.name = some m := by cases m <;> decide

/-- A string spells a tag iff it is that tag's name. -/
theorem ofName_eq_some {text : String} {m : Mnemonic} : Mnemonic.ofName text = some m ↔ text = m.name := by
  constructor
  · intro h
    simpa [eq_comm] using List.find?_some h
  · rintro rfl
    exact ofName_name m

/-- No two tags have one name. -/
theorem name_inj {m n : Mnemonic} : m.name = n.name ↔ m = n := by
  constructor
  · intro h
    exact Option.some.inj (by rw [← ofName_name m, h, ofName_name])
  · rintro rfl
    rfl

/-! ### The fields of a packed word -/

section Fields

variable (p : Bool) (op : BitVec 5) (off : BitVec 24)

theorem packFields_bit31 : (packFields p op off).getLsbD 31 = true := by
  unfold packFields
  rw [BitVec.getLsbD_append, BitVec.getLsbD_append, BitVec.getLsbD_append]
  rfl

theorem packFields_bit30 : (packFields p op off).getLsbD 30 = false := by
  unfold packFields
  rw [BitVec.getLsbD_append, BitVec.getLsbD_append, BitVec.getLsbD_append]
  rfl

theorem packFields_bit29 : (packFields p op off).getLsbD 29 = p := by
  unfold packFields
  rw [BitVec.getLsbD_append, BitVec.getLsbD_append, BitVec.getLsbD_append]
  cases p <;> rfl

theorem packFields_op : (packFields p op off).extractLsb' 24 5 = op := by
  apply BitVec.eq_of_getLsbD_eq
  intro i hi
  unfold packFields
  rw [BitVec.getLsbD_extractLsb', BitVec.getLsbD_append, BitVec.getLsbD_append, if_neg (by omega), if_pos (by omega),
    decide_eq_true hi, Nat.add_sub_cancel_left, Bool.true_and]

theorem packFields_off : (packFields p op off).extractLsb' 0 24 = off := by
  apply BitVec.eq_of_getLsbD_eq
  intro i hi
  unfold packFields
  rw [BitVec.getLsbD_extractLsb', BitVec.getLsbD_append, if_pos (by omega), decide_eq_true hi, Nat.zero_add, Bool.true_and]

/-- A word with bits 31 and 30 as an instruction word's is the packing of its own fields. -/
theorem packFields_of_word (w : SlotWord) (h31 : w.getLsbD 31 = true) (h30 : w.getLsbD 30 = false) :
    packFields (w.getLsbD 29) (w.extractLsb' 24 5) (w.extractLsb' 0 24) = w := by
  apply BitVec.eq_of_getLsbD_eq
  intro i hi
  unfold packFields
  rw [BitVec.getLsbD_append]
  by_cases h24 : i < 24
  · rw [if_pos h24, BitVec.getLsbD_extractLsb', decide_eq_true h24, Nat.zero_add, Bool.true_and]
  rw [if_neg h24, BitVec.getLsbD_append]
  by_cases h29 : i < 29
  · rw [if_pos (by omega), BitVec.getLsbD_extractLsb', decide_eq_true (by omega), Bool.true_and]
    congr 1
    omega
  rw [if_neg (by omega), BitVec.getLsbD_append]
  obtain rfl | rfl | rfl : i = 29 ∨ i = 30 ∨ i = 31 := by omega
  · simp
  · rw [h30]
    rfl
  · rw [h31]
    rfl

/-- Packed decode of an instruction word is decode of its fields. -/
theorem decodeWord_packFields :
    decodeWord (packFields p op off) = match decodeOperand (Mnemonic.ofOp op) p off with
      | some i => .instr i
      | none => .invalid .operandField := by
  unfold decodeWord
  rw [packFields_bit31, packFields_bit30, packFields_bit29, packFields_op, packFields_off]
  rfl

end Fields

end Sys2Proof
end

