-- ==== Sys2Proof/Laws/Sparse.lean ====
section
/-! SUPPORT. The laws of the sparse memories: a read after a write, the canonical form kept by every write, and that two
canonical memories that read alike are one. -/

namespace Sys2Proof.Machine

section Sparse

variable {α : Type} {dflt : Nat → α} {size : Nat}

theorem sparseRead_insert (m : List (Nat × α)) (a : Nat) (v : α) (b : Nat) :
    sparseRead dflt (sparseInsert m a v) b = if a = b then v else sparseRead dflt m b := by
  induction m with
  | nil => simp [sparseInsert, sparseRead]
  | cons e rest ih =>
    obtain ⟨k, w⟩ := e
    simp only [sparseInsert]
    split
    · simp [sparseRead]
    · split
      · next h => subst h; by_cases hb : k = b <;> simp [sparseRead, hb]
      · next h =>
        by_cases hb : k = b
        · subst hb
          simp [sparseRead, Ne.symm h]
        · simp [sparseRead, hb, ih]

theorem sparseRead_erase (m : List (Nat × α)) (a b : Nat) :
    sparseRead dflt (sparseErase m a) b = if a = b then dflt b else sparseRead dflt m b := by
  induction m with
  | nil => simp [sparseErase, sparseRead]
  | cons e rest ih =>
    obtain ⟨k, w⟩ := e
    simp only [sparseErase] at ih ⊢
    by_cases hk : k = a
    · subst hk
      by_cases hb : k = b <;> simp_all [sparseRead]
    · by_cases hb : k = b
      · subst hb
        simp [sparseRead, hk, Ne.symm hk]
      · simpa [sparseRead, hk, hb] using ih

/-- A read after a write. It holds of every list, canonical or not. -/
theorem sparseRead_write [DecidableEq α] (m : List (Nat × α)) (a : Nat) (v : α) (b : Nat) :
    sparseRead dflt (sparseWrite dflt m a v) b = if a = b then v else sparseRead dflt m b := by
  unfold sparseWrite
  split
  · next h => rw [sparseRead_erase]; split <;> simp_all
  · exact sparseRead_insert m a v b

/-- Every entry of an insertion is the new one or an old one. -/
theorem mem_sparseInsert {m : List (Nat × α)} {a : Nat} {v : α} {e : Nat × α} (h : e ∈ sparseInsert m a v) :
    e = (a, v) ∨ e ∈ m := by
  induction m with
  | nil => simpa [sparseInsert] using h
  | cons x rest ih =>
    obtain ⟨k, w⟩ := x
    simp only [sparseInsert] at h
    split at h
    · simpa using h
    · split at h
      · rcases List.mem_cons.mp h with h | h
        · exact .inl h
        · exact .inr (List.mem_cons_of_mem _ h)
      · rcases List.mem_cons.mp h with h | h
        · exact .inr (by simp [h])
        · exact (ih h).imp_right (List.mem_cons_of_mem _)

theorem pairwise_sparseInsert {m : List (Nat × α)} {a : Nat} {v : α}
    (h : m.Pairwise fun x y => x.1 < y.1) : (sparseInsert m a v).Pairwise fun x y => x.1 < y.1 := by
  induction m with
  | nil => simp [sparseInsert]
  | cons x rest ih =>
    obtain ⟨k, w⟩ := x
    have hk := (List.pairwise_cons.mp h).1
    have hr := (List.pairwise_cons.mp h).2
    simp only [sparseInsert]
    split
    · next hlt =>
      refine List.pairwise_cons.mpr ⟨fun y hy => ?_, h⟩
      rcases List.mem_cons.mp hy with rfl | hy
      · exact hlt
      · exact Nat.lt_trans hlt (hk y hy)
    · split
      · next heq => subst heq; exact List.pairwise_cons.mpr ⟨hk, hr⟩
      · next hlt heq =>
        refine List.pairwise_cons.mpr ⟨fun y hy => ?_, ih hr⟩
        rcases mem_sparseInsert hy with rfl | hy
        · simp only at *; omega
        · exact hk y hy

/-- A write keeps the canonical form. -/
theorem sparseWf_write [DecidableEq α] {m : List (Nat × α)} {a : Nat} {v : α} (h : SparseWf dflt size m) (ha : a < size) :
    SparseWf dflt size (sparseWrite dflt m a v) := by
  unfold sparseWrite
  split
  · exact ⟨h.1.filter _, fun e he => h.2 e (List.mem_of_mem_filter he)⟩
  · next hv =>
    refine ⟨pairwise_sparseInsert h.1, fun e he => ?_⟩
    rcases mem_sparseInsert he with rfl | he
    · exact ⟨ha, hv⟩
    · exact h.2 e he

/-- Below the first entry nothing is listed. -/
theorem sparseRead_of_lt {m : List (Nat × α)} {a : Nat} (h : ∀ e ∈ m, a < e.1) : sparseRead dflt m a = dflt a := by
  induction m with
  | nil => rfl
  | cons x rest ih =>
    obtain ⟨k, w⟩ := x
    have hk : a < k := h (k, w) (by simp)
    simp only [sparseRead, if_neg (Nat.ne_of_gt hk)]
    exact ih fun e he => h e (List.mem_cons_of_mem _ he)

/-- Canonical memories that read alike are equal data. -/
theorem sparse_ext {m n : List (Nat × α)} (hm : SparseWf dflt size m) (hn : SparseWf dflt size n)
    (h : ∀ a, a < size → sparseRead dflt m a = sparseRead dflt n a) : m = n := by
  induction m generalizing n with
  | nil =>
    cases n with
    | nil => rfl
    | cons y rest =>
      obtain ⟨k, w⟩ := y
      have := h k (hn.2 (k, w) (by simp)).1
      simp only [sparseRead, if_true] at this
      exact absurd this.symm (hn.2 (k, w) (by simp)).2
  | cons x rest ih =>
    obtain ⟨k, v⟩ := x
    have hkm := (List.pairwise_cons.mp hm.1).1
    have hrm : SparseWf dflt size rest := ⟨(List.pairwise_cons.mp hm.1).2, fun e he => hm.2 e (List.mem_cons_of_mem _ he)⟩
    have hv := hm.2 (k, v) (by simp)
    cases n with
    | nil =>
      have := h k hv.1
      simp only [sparseRead, if_true] at this
      exact absurd this hv.2
    | cons y rest' =>
      obtain ⟨l, w⟩ := y
      have hln := (List.pairwise_cons.mp hn.1).1
      have hrn : SparseWf dflt size rest' :=
        ⟨(List.pairwise_cons.mp hn.1).2, fun e he => hn.2 e (List.mem_cons_of_mem _ he)⟩
      have hw := hn.2 (l, w) (by simp)
      have hkl : k = l := by
        rcases Nat.lt_trichotomy k l with hlt | heq | hgt
        · have h1 := h k hv.1
          rw [sparseRead_of_lt (m := (l, w) :: rest') fun e he => by
            rcases List.mem_cons.mp he with rfl | he
            · exact hlt
            · exact Nat.lt_trans hlt (hln e he)] at h1
          simp only [sparseRead, if_true] at h1
          exact absurd h1 hv.2
        · exact heq
        · have h1 := h l hw.1
          rw [sparseRead_of_lt (m := (k, v) :: rest) fun e he => by
            rcases List.mem_cons.mp he with rfl | he
            · exact hgt
            · exact Nat.lt_trans hgt (hkm e he)] at h1
          simp only [sparseRead, if_true] at h1
          exact absurd h1.symm hw.2
      subst hkl
      have hvw : v = w := by simpa [sparseRead] using h k hv.1
      subst hvw
      congr 1
      refine ih hrm hrn fun a ha => ?_
      by_cases hka : k = a
      · subst hka
        rw [sparseRead_of_lt hkm, sparseRead_of_lt hln]
      · simpa [sparseRead, hka] using h a ha

end Sparse

/-! ### RAM and the backing arrays -/

/-- A read after a write. -/
theorem Memory.read_write {w : Nat} (m : Memory) (a : BitVec w) (v : Cell) (b : BitVec w) :
    Memory.read (Memory.write m a v) b = if b = a then v else Memory.read m b := by
  simp only [Memory.read, Memory.write, sparseRead_write]
  by_cases h : b = a
  · simp [h]
  · have : a.toNat ≠ b.toNat := fun hab => h (BitVec.eq_of_toNat_eq hab.symm)
    simp [h, this]

@[simp] theorem Memory.read_write_same {w : Nat} (m : Memory) (a : BitVec w) (v : Cell) :
    Memory.read (Memory.write m a v) a = v := by
  simp [Memory.read_write]

/-- Writing what a cell already holds changes no read. -/
theorem Memory.read_write_self {w : Nat} (m : Memory) (a b : BitVec w) :
    Memory.read (Memory.write m a (Memory.read m a)) b = Memory.read m b := by
  rw [Memory.read_write]
  split <;> simp_all

/-- A write keeps the canonical form. -/
theorem Memory.wf_write {m : Memory} {a : Addr} {v : Cell} (h : Memory.wf m) : Memory.wf (Memory.write m a v) :=
  sparseWf_write h a.isLt

theorem Memory.wf_nil : Memory.wf [] := by decide

@[simp] theorem Memory.read_nil {w : Nat} (a : BitVec w) : Memory.read [] a = 0 := rfl

/-- A write of a backing array keeps its canonical form. -/
theorem Stack.dataWf_write {m : Memory} {a : StackPtr} {v : Cell} (h : Stack.dataWf m) : Stack.dataWf (m.write a v) :=
  sparseWf_write h a.isLt

/-! ### Instruction memory -/

/-- A read after a write. -/
theorem IMem.read_write (m : IMem) (a : Addr) (x : Slot) (b : Addr) :
    IMem.read (IMem.write m a x) b = if b = a then x else IMem.read m b := by
  simp only [IMem.read, IMem.write, sparseRead_write]
  by_cases h : b = a
  · simp [h]
  · have : a.toNat ≠ b.toNat := fun hab => h (BitVec.eq_of_toNat_eq hab.symm)
    simp [h, this]

/-- A write keeps the canonical form. -/
theorem IMem.wf_write {m : IMem} {a : Addr} {x : Slot} (h : IMem.wf m) : IMem.wf (IMem.write m a x) :=
  sparseWf_write h a.isLt

end Sys2Proof.Machine
end

