-- ==== Sys2Proof/Laws/State.lean ====
section
/-! SUPPORT. One lemma per field per update of State, each true by rfl, so that no proof unfolds a record update; and what
an outcome's projections give. -/

namespace Sys2Proof.Machine

@[simp] theorem State.withPc_pc (s : State) (x : Addr) : (s.withPc x).pc = x := rfl
@[simp] theorem State.withPc_flags (s : State) (x : Addr) : (s.withPc x).flags = s.flags := rfl
@[simp] theorem State.withPc_ds (s : State) (x : Addr) : (s.withPc x).ds = s.ds := rfl
@[simp] theorem State.withPc_rs (s : State) (x : Addr) : (s.withPc x).rs = s.rs := rfl
@[simp] theorem State.withPc_ram (s : State) (x : Addr) : (s.withPc x).ram = s.ram := rfl
@[simp] theorem State.withPc_ad (s : State) (x : Addr) : (s.withPc x).ad = s.ad := rfl
@[simp] theorem State.withPc_imem (s : State) (x : Addr) : (s.withPc x).imem = s.imem := rfl
@[simp] theorem State.withPc_inBuf (s : State) (x : Addr) : (s.withPc x).inBuf = s.inBuf := rfl
@[simp] theorem State.withPc_outBuf (s : State) (x : Addr) : (s.withPc x).outBuf = s.outBuf := rfl
@[simp] theorem State.withPc_tick (s : State) (x : Addr) : (s.withPc x).tick = s.tick := rfl
@[simp] theorem State.withPc_status (s : State) (x : Addr) : (s.withPc x).status = s.status := rfl
@[simp] theorem State.withPc_faultPc (s : State) (x : Addr) : (s.withPc x).faultPc = s.faultPc := rfl
@[simp] theorem State.withPc_debug (s : State) (x : Addr) : (s.withPc x).debug = s.debug := rfl
@[simp] theorem State.withPc_draws (s : State) (x : Addr) : (s.withPc x).draws = s.draws := rfl

@[simp] theorem State.withFlags_pc (s : State) (x : Flags) : (s.withFlags x).pc = s.pc := rfl
@[simp] theorem State.withFlags_flags (s : State) (x : Flags) : (s.withFlags x).flags = x := rfl
@[simp] theorem State.withFlags_ds (s : State) (x : Flags) : (s.withFlags x).ds = s.ds := rfl
@[simp] theorem State.withFlags_rs (s : State) (x : Flags) : (s.withFlags x).rs = s.rs := rfl
@[simp] theorem State.withFlags_ram (s : State) (x : Flags) : (s.withFlags x).ram = s.ram := rfl
@[simp] theorem State.withFlags_ad (s : State) (x : Flags) : (s.withFlags x).ad = s.ad := rfl
@[simp] theorem State.withFlags_imem (s : State) (x : Flags) : (s.withFlags x).imem = s.imem := rfl
@[simp] theorem State.withFlags_inBuf (s : State) (x : Flags) : (s.withFlags x).inBuf = s.inBuf := rfl
@[simp] theorem State.withFlags_outBuf (s : State) (x : Flags) : (s.withFlags x).outBuf = s.outBuf := rfl
@[simp] theorem State.withFlags_tick (s : State) (x : Flags) : (s.withFlags x).tick = s.tick := rfl
@[simp] theorem State.withFlags_status (s : State) (x : Flags) : (s.withFlags x).status = s.status := rfl
@[simp] theorem State.withFlags_faultPc (s : State) (x : Flags) : (s.withFlags x).faultPc = s.faultPc := rfl
@[simp] theorem State.withFlags_debug (s : State) (x : Flags) : (s.withFlags x).debug = s.debug := rfl
@[simp] theorem State.withFlags_draws (s : State) (x : Flags) : (s.withFlags x).draws = s.draws := rfl

@[simp] theorem State.withDs_pc (s : State) (x : Stack) : (s.withDs x).pc = s.pc := rfl
@[simp] theorem State.withDs_flags (s : State) (x : Stack) : (s.withDs x).flags = s.flags := rfl
@[simp] theorem State.withDs_ds (s : State) (x : Stack) : (s.withDs x).ds = x := rfl
@[simp] theorem State.withDs_rs (s : State) (x : Stack) : (s.withDs x).rs = s.rs := rfl
@[simp] theorem State.withDs_ram (s : State) (x : Stack) : (s.withDs x).ram = s.ram := rfl
@[simp] theorem State.withDs_ad (s : State) (x : Stack) : (s.withDs x).ad = s.ad := rfl
@[simp] theorem State.withDs_imem (s : State) (x : Stack) : (s.withDs x).imem = s.imem := rfl
@[simp] theorem State.withDs_inBuf (s : State) (x : Stack) : (s.withDs x).inBuf = s.inBuf := rfl
@[simp] theorem State.withDs_outBuf (s : State) (x : Stack) : (s.withDs x).outBuf = s.outBuf := rfl
@[simp] theorem State.withDs_tick (s : State) (x : Stack) : (s.withDs x).tick = s.tick := rfl
@[simp] theorem State.withDs_status (s : State) (x : Stack) : (s.withDs x).status = s.status := rfl
@[simp] theorem State.withDs_faultPc (s : State) (x : Stack) : (s.withDs x).faultPc = s.faultPc := rfl
@[simp] theorem State.withDs_debug (s : State) (x : Stack) : (s.withDs x).debug = s.debug := rfl
@[simp] theorem State.withDs_draws (s : State) (x : Stack) : (s.withDs x).draws = s.draws := rfl

@[simp] theorem State.withRs_pc (s : State) (x : Stack) : (s.withRs x).pc = s.pc := rfl
@[simp] theorem State.withRs_flags (s : State) (x : Stack) : (s.withRs x).flags = s.flags := rfl
@[simp] theorem State.withRs_ds (s : State) (x : Stack) : (s.withRs x).ds = s.ds := rfl
@[simp] theorem State.withRs_rs (s : State) (x : Stack) : (s.withRs x).rs = x := rfl
@[simp] theorem State.withRs_ram (s : State) (x : Stack) : (s.withRs x).ram = s.ram := rfl
@[simp] theorem State.withRs_ad (s : State) (x : Stack) : (s.withRs x).ad = s.ad := rfl
@[simp] theorem State.withRs_imem (s : State) (x : Stack) : (s.withRs x).imem = s.imem := rfl
@[simp] theorem State.withRs_inBuf (s : State) (x : Stack) : (s.withRs x).inBuf = s.inBuf := rfl
@[simp] theorem State.withRs_outBuf (s : State) (x : Stack) : (s.withRs x).outBuf = s.outBuf := rfl
@[simp] theorem State.withRs_tick (s : State) (x : Stack) : (s.withRs x).tick = s.tick := rfl
@[simp] theorem State.withRs_status (s : State) (x : Stack) : (s.withRs x).status = s.status := rfl
@[simp] theorem State.withRs_faultPc (s : State) (x : Stack) : (s.withRs x).faultPc = s.faultPc := rfl
@[simp] theorem State.withRs_debug (s : State) (x : Stack) : (s.withRs x).debug = s.debug := rfl
@[simp] theorem State.withRs_draws (s : State) (x : Stack) : (s.withRs x).draws = s.draws := rfl

@[simp] theorem State.withRam_pc (s : State) (x : Memory) : (s.withRam x).pc = s.pc := rfl
@[simp] theorem State.withRam_flags (s : State) (x : Memory) : (s.withRam x).flags = s.flags := rfl
@[simp] theorem State.withRam_ds (s : State) (x : Memory) : (s.withRam x).ds = s.ds := rfl
@[simp] theorem State.withRam_rs (s : State) (x : Memory) : (s.withRam x).rs = s.rs := rfl
@[simp] theorem State.withRam_ram (s : State) (x : Memory) : (s.withRam x).ram = x := rfl
@[simp] theorem State.withRam_ad (s : State) (x : Memory) : (s.withRam x).ad = s.ad := rfl
@[simp] theorem State.withRam_imem (s : State) (x : Memory) : (s.withRam x).imem = s.imem := rfl
@[simp] theorem State.withRam_inBuf (s : State) (x : Memory) : (s.withRam x).inBuf = s.inBuf := rfl
@[simp] theorem State.withRam_outBuf (s : State) (x : Memory) : (s.withRam x).outBuf = s.outBuf := rfl
@[simp] theorem State.withRam_tick (s : State) (x : Memory) : (s.withRam x).tick = s.tick := rfl
@[simp] theorem State.withRam_status (s : State) (x : Memory) : (s.withRam x).status = s.status := rfl
@[simp] theorem State.withRam_faultPc (s : State) (x : Memory) : (s.withRam x).faultPc = s.faultPc := rfl
@[simp] theorem State.withRam_debug (s : State) (x : Memory) : (s.withRam x).debug = s.debug := rfl
@[simp] theorem State.withRam_draws (s : State) (x : Memory) : (s.withRam x).draws = s.draws := rfl

@[simp] theorem State.withAd_pc (s : State) (x : Addr) : (s.withAd x).pc = s.pc := rfl
@[simp] theorem State.withAd_flags (s : State) (x : Addr) : (s.withAd x).flags = s.flags := rfl
@[simp] theorem State.withAd_ds (s : State) (x : Addr) : (s.withAd x).ds = s.ds := rfl
@[simp] theorem State.withAd_rs (s : State) (x : Addr) : (s.withAd x).rs = s.rs := rfl
@[simp] theorem State.withAd_ram (s : State) (x : Addr) : (s.withAd x).ram = s.ram := rfl
@[simp] theorem State.withAd_ad (s : State) (x : Addr) : (s.withAd x).ad = x := rfl
@[simp] theorem State.withAd_imem (s : State) (x : Addr) : (s.withAd x).imem = s.imem := rfl
@[simp] theorem State.withAd_inBuf (s : State) (x : Addr) : (s.withAd x).inBuf = s.inBuf := rfl
@[simp] theorem State.withAd_outBuf (s : State) (x : Addr) : (s.withAd x).outBuf = s.outBuf := rfl
@[simp] theorem State.withAd_tick (s : State) (x : Addr) : (s.withAd x).tick = s.tick := rfl
@[simp] theorem State.withAd_status (s : State) (x : Addr) : (s.withAd x).status = s.status := rfl
@[simp] theorem State.withAd_faultPc (s : State) (x : Addr) : (s.withAd x).faultPc = s.faultPc := rfl
@[simp] theorem State.withAd_debug (s : State) (x : Addr) : (s.withAd x).debug = s.debug := rfl
@[simp] theorem State.withAd_draws (s : State) (x : Addr) : (s.withAd x).draws = s.draws := rfl

@[simp] theorem State.withImem_pc (s : State) (x : IMem) : (s.withImem x).pc = s.pc := rfl
@[simp] theorem State.withImem_flags (s : State) (x : IMem) : (s.withImem x).flags = s.flags := rfl
@[simp] theorem State.withImem_ds (s : State) (x : IMem) : (s.withImem x).ds = s.ds := rfl
@[simp] theorem State.withImem_rs (s : State) (x : IMem) : (s.withImem x).rs = s.rs := rfl
@[simp] theorem State.withImem_ram (s : State) (x : IMem) : (s.withImem x).ram = s.ram := rfl
@[simp] theorem State.withImem_ad (s : State) (x : IMem) : (s.withImem x).ad = s.ad := rfl
@[simp] theorem State.withImem_imem (s : State) (x : IMem) : (s.withImem x).imem = x := rfl
@[simp] theorem State.withImem_inBuf (s : State) (x : IMem) : (s.withImem x).inBuf = s.inBuf := rfl
@[simp] theorem State.withImem_outBuf (s : State) (x : IMem) : (s.withImem x).outBuf = s.outBuf := rfl
@[simp] theorem State.withImem_tick (s : State) (x : IMem) : (s.withImem x).tick = s.tick := rfl
@[simp] theorem State.withImem_status (s : State) (x : IMem) : (s.withImem x).status = s.status := rfl
@[simp] theorem State.withImem_faultPc (s : State) (x : IMem) : (s.withImem x).faultPc = s.faultPc := rfl
@[simp] theorem State.withImem_debug (s : State) (x : IMem) : (s.withImem x).debug = s.debug := rfl
@[simp] theorem State.withImem_draws (s : State) (x : IMem) : (s.withImem x).draws = s.draws := rfl

@[simp] theorem State.withIn_pc (s : State) (x : List Cell) : (s.withIn x).pc = s.pc := rfl
@[simp] theorem State.withIn_flags (s : State) (x : List Cell) : (s.withIn x).flags = s.flags := rfl
@[simp] theorem State.withIn_ds (s : State) (x : List Cell) : (s.withIn x).ds = s.ds := rfl
@[simp] theorem State.withIn_rs (s : State) (x : List Cell) : (s.withIn x).rs = s.rs := rfl
@[simp] theorem State.withIn_ram (s : State) (x : List Cell) : (s.withIn x).ram = s.ram := rfl
@[simp] theorem State.withIn_ad (s : State) (x : List Cell) : (s.withIn x).ad = s.ad := rfl
@[simp] theorem State.withIn_imem (s : State) (x : List Cell) : (s.withIn x).imem = s.imem := rfl
@[simp] theorem State.withIn_inBuf (s : State) (x : List Cell) : (s.withIn x).inBuf = x := rfl
@[simp] theorem State.withIn_outBuf (s : State) (x : List Cell) : (s.withIn x).outBuf = s.outBuf := rfl
@[simp] theorem State.withIn_tick (s : State) (x : List Cell) : (s.withIn x).tick = s.tick := rfl
@[simp] theorem State.withIn_status (s : State) (x : List Cell) : (s.withIn x).status = s.status := rfl
@[simp] theorem State.withIn_faultPc (s : State) (x : List Cell) : (s.withIn x).faultPc = s.faultPc := rfl
@[simp] theorem State.withIn_debug (s : State) (x : List Cell) : (s.withIn x).debug = s.debug := rfl
@[simp] theorem State.withIn_draws (s : State) (x : List Cell) : (s.withIn x).draws = s.draws := rfl

@[simp] theorem State.withOut_pc (s : State) (x : List Cell) : (s.withOut x).pc = s.pc := rfl
@[simp] theorem State.withOut_flags (s : State) (x : List Cell) : (s.withOut x).flags = s.flags := rfl
@[simp] theorem State.withOut_ds (s : State) (x : List Cell) : (s.withOut x).ds = s.ds := rfl
@[simp] theorem State.withOut_rs (s : State) (x : List Cell) : (s.withOut x).rs = s.rs := rfl
@[simp] theorem State.withOut_ram (s : State) (x : List Cell) : (s.withOut x).ram = s.ram := rfl
@[simp] theorem State.withOut_ad (s : State) (x : List Cell) : (s.withOut x).ad = s.ad := rfl
@[simp] theorem State.withOut_imem (s : State) (x : List Cell) : (s.withOut x).imem = s.imem := rfl
@[simp] theorem State.withOut_inBuf (s : State) (x : List Cell) : (s.withOut x).inBuf = s.inBuf := rfl
@[simp] theorem State.withOut_outBuf (s : State) (x : List Cell) : (s.withOut x).outBuf = x := rfl
@[simp] theorem State.withOut_tick (s : State) (x : List Cell) : (s.withOut x).tick = s.tick := rfl
@[simp] theorem State.withOut_status (s : State) (x : List Cell) : (s.withOut x).status = s.status := rfl
@[simp] theorem State.withOut_faultPc (s : State) (x : List Cell) : (s.withOut x).faultPc = s.faultPc := rfl
@[simp] theorem State.withOut_debug (s : State) (x : List Cell) : (s.withOut x).debug = s.debug := rfl
@[simp] theorem State.withOut_draws (s : State) (x : List Cell) : (s.withOut x).draws = s.draws := rfl

@[simp] theorem State.withTick_pc (s : State) (x : Nat) : (s.withTick x).pc = s.pc := rfl
@[simp] theorem State.withTick_flags (s : State) (x : Nat) : (s.withTick x).flags = s.flags := rfl
@[simp] theorem State.withTick_ds (s : State) (x : Nat) : (s.withTick x).ds = s.ds := rfl
@[simp] theorem State.withTick_rs (s : State) (x : Nat) : (s.withTick x).rs = s.rs := rfl
@[simp] theorem State.withTick_ram (s : State) (x : Nat) : (s.withTick x).ram = s.ram := rfl
@[simp] theorem State.withTick_ad (s : State) (x : Nat) : (s.withTick x).ad = s.ad := rfl
@[simp] theorem State.withTick_imem (s : State) (x : Nat) : (s.withTick x).imem = s.imem := rfl
@[simp] theorem State.withTick_inBuf (s : State) (x : Nat) : (s.withTick x).inBuf = s.inBuf := rfl
@[simp] theorem State.withTick_outBuf (s : State) (x : Nat) : (s.withTick x).outBuf = s.outBuf := rfl
@[simp] theorem State.withTick_tick (s : State) (x : Nat) : (s.withTick x).tick = x := rfl
@[simp] theorem State.withTick_status (s : State) (x : Nat) : (s.withTick x).status = s.status := rfl
@[simp] theorem State.withTick_faultPc (s : State) (x : Nat) : (s.withTick x).faultPc = s.faultPc := rfl
@[simp] theorem State.withTick_debug (s : State) (x : Nat) : (s.withTick x).debug = s.debug := rfl
@[simp] theorem State.withTick_draws (s : State) (x : Nat) : (s.withTick x).draws = s.draws := rfl

@[simp] theorem State.withStatus_pc (s : State) (x : RunStatus) : (s.withStatus x).pc = s.pc := rfl
@[simp] theorem State.withStatus_flags (s : State) (x : RunStatus) : (s.withStatus x).flags = s.flags := rfl
@[simp] theorem State.withStatus_ds (s : State) (x : RunStatus) : (s.withStatus x).ds = s.ds := rfl
@[simp] theorem State.withStatus_rs (s : State) (x : RunStatus) : (s.withStatus x).rs = s.rs := rfl
@[simp] theorem State.withStatus_ram (s : State) (x : RunStatus) : (s.withStatus x).ram = s.ram := rfl
@[simp] theorem State.withStatus_ad (s : State) (x : RunStatus) : (s.withStatus x).ad = s.ad := rfl
@[simp] theorem State.withStatus_imem (s : State) (x : RunStatus) : (s.withStatus x).imem = s.imem := rfl
@[simp] theorem State.withStatus_inBuf (s : State) (x : RunStatus) : (s.withStatus x).inBuf = s.inBuf := rfl
@[simp] theorem State.withStatus_outBuf (s : State) (x : RunStatus) : (s.withStatus x).outBuf = s.outBuf := rfl
@[simp] theorem State.withStatus_tick (s : State) (x : RunStatus) : (s.withStatus x).tick = s.tick := rfl
@[simp] theorem State.withStatus_status (s : State) (x : RunStatus) : (s.withStatus x).status = x := rfl
@[simp] theorem State.withStatus_faultPc (s : State) (x : RunStatus) : (s.withStatus x).faultPc = s.faultPc := rfl
@[simp] theorem State.withStatus_debug (s : State) (x : RunStatus) : (s.withStatus x).debug = s.debug := rfl
@[simp] theorem State.withStatus_draws (s : State) (x : RunStatus) : (s.withStatus x).draws = s.draws := rfl

@[simp] theorem State.withFaultPc_pc (s : State) (x : Addr) : (s.withFaultPc x).pc = s.pc := rfl
@[simp] theorem State.withFaultPc_flags (s : State) (x : Addr) : (s.withFaultPc x).flags = s.flags := rfl
@[simp] theorem State.withFaultPc_ds (s : State) (x : Addr) : (s.withFaultPc x).ds = s.ds := rfl
@[simp] theorem State.withFaultPc_rs (s : State) (x : Addr) : (s.withFaultPc x).rs = s.rs := rfl
@[simp] theorem State.withFaultPc_ram (s : State) (x : Addr) : (s.withFaultPc x).ram = s.ram := rfl
@[simp] theorem State.withFaultPc_ad (s : State) (x : Addr) : (s.withFaultPc x).ad = s.ad := rfl
@[simp] theorem State.withFaultPc_imem (s : State) (x : Addr) : (s.withFaultPc x).imem = s.imem := rfl
@[simp] theorem State.withFaultPc_inBuf (s : State) (x : Addr) : (s.withFaultPc x).inBuf = s.inBuf := rfl
@[simp] theorem State.withFaultPc_outBuf (s : State) (x : Addr) : (s.withFaultPc x).outBuf = s.outBuf := rfl
@[simp] theorem State.withFaultPc_tick (s : State) (x : Addr) : (s.withFaultPc x).tick = s.tick := rfl
@[simp] theorem State.withFaultPc_status (s : State) (x : Addr) : (s.withFaultPc x).status = s.status := rfl
@[simp] theorem State.withFaultPc_faultPc (s : State) (x : Addr) : (s.withFaultPc x).faultPc = x := rfl
@[simp] theorem State.withFaultPc_debug (s : State) (x : Addr) : (s.withFaultPc x).debug = s.debug := rfl
@[simp] theorem State.withFaultPc_draws (s : State) (x : Addr) : (s.withFaultPc x).draws = s.draws := rfl

@[simp] theorem State.withDebug_pc (s : State) (x : Option Debug) : (s.withDebug x).pc = s.pc := rfl
@[simp] theorem State.withDebug_flags (s : State) (x : Option Debug) : (s.withDebug x).flags = s.flags := rfl
@[simp] theorem State.withDebug_ds (s : State) (x : Option Debug) : (s.withDebug x).ds = s.ds := rfl
@[simp] theorem State.withDebug_rs (s : State) (x : Option Debug) : (s.withDebug x).rs = s.rs := rfl
@[simp] theorem State.withDebug_ram (s : State) (x : Option Debug) : (s.withDebug x).ram = s.ram := rfl
@[simp] theorem State.withDebug_ad (s : State) (x : Option Debug) : (s.withDebug x).ad = s.ad := rfl
@[simp] theorem State.withDebug_imem (s : State) (x : Option Debug) : (s.withDebug x).imem = s.imem := rfl
@[simp] theorem State.withDebug_inBuf (s : State) (x : Option Debug) : (s.withDebug x).inBuf = s.inBuf := rfl
@[simp] theorem State.withDebug_outBuf (s : State) (x : Option Debug) : (s.withDebug x).outBuf = s.outBuf := rfl
@[simp] theorem State.withDebug_tick (s : State) (x : Option Debug) : (s.withDebug x).tick = s.tick := rfl
@[simp] theorem State.withDebug_status (s : State) (x : Option Debug) : (s.withDebug x).status = s.status := rfl
@[simp] theorem State.withDebug_faultPc (s : State) (x : Option Debug) : (s.withDebug x).faultPc = s.faultPc := rfl
@[simp] theorem State.withDebug_debug (s : State) (x : Option Debug) : (s.withDebug x).debug = x := rfl
@[simp] theorem State.withDebug_draws (s : State) (x : Option Debug) : (s.withDebug x).draws = s.draws := rfl

@[simp] theorem State.withDraws_pc (s : State) (x : Nat) : (s.withDraws x).pc = s.pc := rfl
@[simp] theorem State.withDraws_flags (s : State) (x : Nat) : (s.withDraws x).flags = s.flags := rfl
@[simp] theorem State.withDraws_ds (s : State) (x : Nat) : (s.withDraws x).ds = s.ds := rfl
@[simp] theorem State.withDraws_rs (s : State) (x : Nat) : (s.withDraws x).rs = s.rs := rfl
@[simp] theorem State.withDraws_ram (s : State) (x : Nat) : (s.withDraws x).ram = s.ram := rfl
@[simp] theorem State.withDraws_ad (s : State) (x : Nat) : (s.withDraws x).ad = s.ad := rfl
@[simp] theorem State.withDraws_imem (s : State) (x : Nat) : (s.withDraws x).imem = s.imem := rfl
@[simp] theorem State.withDraws_inBuf (s : State) (x : Nat) : (s.withDraws x).inBuf = s.inBuf := rfl
@[simp] theorem State.withDraws_outBuf (s : State) (x : Nat) : (s.withDraws x).outBuf = s.outBuf := rfl
@[simp] theorem State.withDraws_tick (s : State) (x : Nat) : (s.withDraws x).tick = s.tick := rfl
@[simp] theorem State.withDraws_status (s : State) (x : Nat) : (s.withDraws x).status = s.status := rfl
@[simp] theorem State.withDraws_faultPc (s : State) (x : Nat) : (s.withDraws x).faultPc = s.faultPc := rfl
@[simp] theorem State.withDraws_debug (s : State) (x : Nat) : (s.withDraws x).debug = s.debug := rfl
@[simp] theorem State.withDraws_draws (s : State) (x : Nat) : (s.withDraws x).draws = x := rfl

@[simp] theorem State.withPc_withPc (s : State) (x y : Addr) : (s.withPc x).withPc y = s.withPc y := rfl
@[simp] theorem State.withFlags_withFlags (s : State) (x y : Flags) : (s.withFlags x).withFlags y = s.withFlags y := rfl
@[simp] theorem State.withDs_withDs (s : State) (x y : Stack) : (s.withDs x).withDs y = s.withDs y := rfl
@[simp] theorem State.withRs_withRs (s : State) (x y : Stack) : (s.withRs x).withRs y = s.withRs y := rfl
@[simp] theorem State.withRam_withRam (s : State) (x y : Memory) : (s.withRam x).withRam y = s.withRam y := rfl
@[simp] theorem State.withAd_withAd (s : State) (x y : Addr) : (s.withAd x).withAd y = s.withAd y := rfl
@[simp] theorem State.withImem_withImem (s : State) (x y : IMem) : (s.withImem x).withImem y = s.withImem y := rfl
@[simp] theorem State.withIn_withIn (s : State) (x y : List Cell) : (s.withIn x).withIn y = s.withIn y := rfl
@[simp] theorem State.withOut_withOut (s : State) (x y : List Cell) : (s.withOut x).withOut y = s.withOut y := rfl
@[simp] theorem State.withTick_withTick (s : State) (x y : Nat) : (s.withTick x).withTick y = s.withTick y := rfl
@[simp] theorem State.withStatus_withStatus (s : State) (x y : RunStatus) : (s.withStatus x).withStatus y = s.withStatus y := rfl
@[simp] theorem State.withFaultPc_withFaultPc (s : State) (x y : Addr) : (s.withFaultPc x).withFaultPc y = s.withFaultPc y := rfl
@[simp] theorem State.withDebug_withDebug (s : State) (x y : Option Debug) : (s.withDebug x).withDebug y = s.withDebug y := rfl
@[simp] theorem State.withDraws_withDraws (s : State) (x y : Nat) : (s.withDraws x).withDraws y = s.withDraws y := rfl

@[simp] theorem nextState?_next (s : State) : nextState? (.next s) = some s := rfl
@[simp] theorem nextState?_fault (f : Fault) : nextState? (.fault f) = none := rfl
@[simp] theorem faultOf?_fault (f : Fault) : faultOf? (.fault f) = some f := rfl
@[simp] theorem faultOf?_next (s : State) : faultOf? (.next s) = none := rfl

/-- Two states with the same fields are one state. -/
theorem State.eq_of_fields {s t : State} (pc : s.pc = t.pc) (flags : s.flags = t.flags) (ds : s.ds = t.ds)
    (rs : s.rs = t.rs) (ram : s.ram = t.ram) (ad : s.ad = t.ad) (imem : s.imem = t.imem) (inBuf : s.inBuf = t.inBuf)
    (outBuf : s.outBuf = t.outBuf) (tick : s.tick = t.tick) (status : s.status = t.status)
    (faultPc : s.faultPc = t.faultPc) (debug : s.debug = t.debug) (draws : s.draws = t.draws) : s = t := by
  cases s; cases t; simp_all

end Sys2Proof.Machine
end

