-- ==== Sys2Proof/Laws/Ops.lean ====
section
/-! SUPPORT. What each shared operation can do, said once: proofs cite these and do not unfold the operation. -/

namespace Sys2Proof.Machine

/-! ### Answers and faults -/

@[simp] theorem finish_ok (s : State) : finish (.ok s) = .next s := rfl
@[simp] theorem finish_error (f : Fault) : finish (.error f) = .fault f := rfl

theorem finish_eq_next {x : Except Fault State} {t : State} : finish x = .next t ↔ x = .ok t := by
  cases x <;> simp [finish]

theorem finish_eq_fault {x : Except Fault State} {f : Fault} : finish x = .fault f ↔ x = .error f := by
  cases x <;> simp [finish]

theorem finish_ne_refused (x : Except Fault State) (r : Refusal) : finish x ≠ .refused r := by
  cases x <;> simp [finish]

/-- A sequence answers iff both its parts do. -/
theorem bind_eq_ok {α β : Type} {x : Except Fault α} {f : α → Except Fault β} {b : β} :
    (x >>= f) = .ok b ↔ ∃ a, x = .ok a ∧ f a = .ok b := by
  cases x <;> simp [bind, Except.bind]

/-- A sequence faults iff its first part does, or its second after the first answered. -/
theorem bind_eq_error {α β : Type} {x : Except Fault α} {f : α → Except Fault β} {e : Fault} :
    (x >>= f) = .error e ↔ x = .error e ∨ ∃ a, x = .ok a ∧ f a = .error e := by
  cases x <;> simp [bind, Except.bind]

@[simp] theorem bind_ok {α β : Type} (a : α) (f : α → Except Fault β) : ((Except.ok a : Except Fault α) >>= f) = f a := rfl
@[simp] theorem bind_error {α β : Type} (e : Fault) (f : α → Except Fault β) :
    ((Except.error e : Except Fault α) >>= f) = .error e := rfl
@[simp] theorem pure_eq_ok {α : Type} (a : α) : (pure a : Except Fault α) = .ok a := rfl

@[simp] theorem orRaise_some {α : Type} (kind : Addr → Option Debug → Fault) (s : State) (x : α) :
    orRaise kind s (some x) = .ok x := rfl
@[simp] theorem orRaise_none {α : Type} (kind : Addr → Option Debug → Fault) (s : State) :
    (orRaise kind s none : Except Fault α) = .error (kind s.faultPc s.debug) := rfl

theorem orRaise_eq_ok {α : Type} {kind : Addr → Option Debug → Fault} {s : State} {o : Option α} {x : α} :
    orRaise kind s o = .ok x ↔ o = some x := by
  cases o <;> simp

theorem orRaise_eq_error {α : Type} {kind : Addr → Option Debug → Fault} {s : State} {o : Option α} {f : Fault} :
    orRaise kind s o = .error f ↔ o = none ∧ f = kind s.faultPc s.debug := by
  cases o <;> simp [eq_comm]

@[simp] theorem raise_eq (kind : Addr → Option Debug → Fault) (s : State) : raise kind s = kind s.faultPc s.debug := rfl

/-! ### The widths as numbers, for arithmetic -/

theorem cell_toNat_lt (c : Cell) : c.toNat < 256 := c.isLt
theorem addr_toNat_lt (a : Addr) : a.toNat < 65536 := a.isLt
theorem sp_toNat_lt (p : StackPtr) : p.toNat < 65536 := p.isLt

/-! ### Stacks -/

/-- Depth is sp, the sentinel being 0 (decision D6). -/
theorem Stack.depth_eq (S : Stack) : S.depth = S.sp.toNat := by simp [Stack.depth, Config.stackEmptySp]

theorem Stack.depth_lt (S : Stack) : S.depth < 65536 := by rw [Stack.depth_eq]; exact S.sp.isLt

theorem Stack.depth_eq_zero (S : Stack) : S.depth = 0 ↔ S.sp = Config.stackEmptySp := by
  rw [Stack.depth_eq, Config.stackEmptySp]; constructor
  · intro h; exact BitVec.eq_of_toNat_eq (by simpa using h)
  · intro h; simp [h]

/-- An element is live iff its place is below the depth. -/
theorem Stack.elem_isSome (S : Stack) (k : Nat) : (S.elem k).isSome ↔ k < S.depth := by
  unfold Stack.elem; split
  · simp; omega
  · split <;> simp <;> omega

theorem Stack.elem_eq_none {S : Stack} {k : Nat} : S.elem k = none ↔ S.depth ≤ k := by
  unfold Stack.elem; split
  · simp [*]
  · split <;> simp <;> omega

theorem Stack.elem_zero {S : Stack} {x : Cell} : S.elem 0 = some x ↔ 0 < S.depth ∧ S.tos = x := by
  unfold Stack.elem; split <;> simp <;> omega

theorem Stack.elem_succ {S : Stack} {k : Nat} {x : Cell} :
    S.elem (k + 1) = some x ↔ k + 1 < S.depth ∧ S.data.read (S.sp - BitVec.ofNat 16 k) = x := by
  unfold Stack.elem; split <;> simp <;> omega

theorem Stack.pop_eq_none {S : Stack} : S.pop = none ↔ S.sp = Config.stackEmptySp := by
  unfold Stack.pop; split <;> simp [*]

theorem Stack.pop_eq_some {S T : Stack} {c : Cell} :
    S.pop = some (c, T) ↔
      S.sp ≠ Config.stackEmptySp ∧ c = S.tos ∧ T = { sp := S.sp - 1, tos := S.data.read S.sp, data := S.data } := by
  unfold Stack.pop; split
  · simp [*]
  · next h =>
    simp only [Option.some.injEq, Prod.mk.injEq, ne_eq, h, not_false_eq_true, true_and]
    exact and_congr eq_comm eq_comm

theorem Stack.swap_eq_none {S : Stack} : S.swap = none ↔ S.depth < 2 := by
  unfold Stack.swap; split <;> simp [*]

theorem Stack.swap_eq_some {S T : Stack} :
    S.swap = some T ↔ 2 ≤ S.depth ∧ T = { sp := S.sp, tos := S.data.read S.sp, data := S.data.write S.sp S.tos } := by
  unfold Stack.swap; split
  · simp; omega
  · simp [eq_comm]; omega

@[simp] theorem Stack.push_sp (S : Stack) (v : Cell) : (S.push v).sp = S.sp + 1 := rfl
@[simp] theorem Stack.push_tos (S : Stack) (v : Cell) : (S.push v).tos = v := rfl

theorem Stack.push_read (S : Stack) (v : Cell) (a : StackPtr) :
    (S.push v).data.read a = if a = S.sp + 1 then S.tos else S.data.read a := by
  simp [Stack.push, Memory.read_write]

/-- A stack with the backing array of a canonical one is canonical. -/
theorem Stack.wf_of_data {S T : Stack} (h : T.data = S.data) (hS : S.wf) : T.wf := by
  unfold Stack.wf; rw [h]; exact hS

theorem Stack.push_wf {S : Stack} {v : Cell} (h : S.wf) : (S.push v).wf := Stack.dataWf_write h

/-! ### Operands -/

/-- A pop of DS answers the top and the popped stack, and changes DS alone. -/
theorem popDs_eq_ok {s t : State} {c : Cell} :
    popDs s = .ok (c, t) ↔ s.ds.pop = some (c, t.ds) ∧ t = s.withDs t.ds := by
  simp only [popDs, bind_eq_ok, orRaise_eq_ok, pure_eq_ok]
  constructor
  · rintro ⟨⟨c', S⟩, h, h'⟩
    simp only [Except.ok.injEq, Prod.mk.injEq] at h'
    obtain ⟨rfl, rfl⟩ := h'
    exact ⟨h, rfl⟩
  · rintro ⟨h, ht⟩
    exact ⟨(c, t.ds), h, by rw [← ht]⟩

theorem popDs_eq_error {s : State} {f : Fault} :
    popDs s = .error f ↔ s.ds.pop = none ∧ f = .stackUnderflow s.faultPc s.debug := by
  simp [popDs, bind_eq_error, orRaise_eq_error]

/-- A pop of RS answers the top and the popped stack, and changes RS alone. -/
theorem popRs_eq_ok {s t : State} {c : Cell} :
    popRs s = .ok (c, t) ↔ s.rs.pop = some (c, t.rs) ∧ t = s.withRs t.rs := by
  simp only [popRs, bind_eq_ok, orRaise_eq_ok, pure_eq_ok]
  constructor
  · rintro ⟨⟨c', S⟩, h, h'⟩
    simp only [Except.ok.injEq, Prod.mk.injEq] at h'
    obtain ⟨rfl, rfl⟩ := h'
    exact ⟨h, rfl⟩
  · rintro ⟨h, ht⟩
    exact ⟨(c, t.rs), h, by rw [← ht]⟩

theorem popRs_eq_error {s : State} {f : Fault} :
    popRs s = .error f ↔ s.rs.pop = none ∧ f = .stackUnderflow s.faultPc s.debug := by
  simp [popRs, bind_eq_error, orRaise_eq_error]

/-- A pop of DS above the sentinel, computed. -/
theorem popDs_of_ne {s : State} (h : s.ds.sp ≠ Config.stackEmptySp) :
    popDs s = .ok (s.ds.tos, s.withDs { sp := s.ds.sp - 1, tos := s.ds.data.read s.ds.sp, data := s.ds.data }) :=
  popDs_eq_ok.mpr ⟨Stack.pop_eq_some.mpr ⟨h, rfl, rfl⟩, rfl⟩

/-- A pop of DS at the sentinel. -/
theorem popDs_of_eq {s : State} (h : s.ds.sp = Config.stackEmptySp) :
    popDs s = .error (.stackUnderflow s.faultPc s.debug) :=
  popDs_eq_error.mpr ⟨Stack.pop_eq_none.mpr h, rfl⟩

/-- A pop of RS above the sentinel, computed. -/
theorem popRs_of_ne {s : State} (h : s.rs.sp ≠ Config.stackEmptySp) :
    popRs s = .ok (s.rs.tos, s.withRs { sp := s.rs.sp - 1, tos := s.rs.data.read s.rs.sp, data := s.rs.data }) :=
  popRs_eq_ok.mpr ⟨Stack.pop_eq_some.mpr ⟨h, rfl, rfl⟩, rfl⟩

/-- A pop of RS at the sentinel. -/
theorem popRs_of_eq {s : State} (h : s.rs.sp = Config.stackEmptySp) :
    popRs s = .error (.stackUnderflow s.faultPc s.debug) :=
  popRs_eq_error.mpr ⟨Stack.pop_eq_none.mpr h, rfl⟩

/-- A pop of DS in a state whose DS was just set. -/
theorem popDs_withDs {s : State} {S : Stack} (h : S.sp ≠ Config.stackEmptySp) :
    popDs (s.withDs S) = .ok (S.tos, s.withDs { sp := S.sp - 1, tos := S.data.read S.sp, data := S.data }) :=
  popDs_of_ne h

/-- A pop of RS in a state whose RS was just set. -/
theorem popRs_withRs {s : State} {S : Stack} (h : S.sp ≠ Config.stackEmptySp) :
    popRs (s.withRs S) = .ok (S.tos, s.withRs { sp := S.sp - 1, tos := S.data.read S.sp, data := S.data }) :=
  popRs_of_ne h

/-- Below the top `k` pops, sp is not at the sentinel while more than `k` elements are live. -/
theorem Stack.sp_sub_ne {S : Stack} {k : Nat} (h : k < S.depth) :
    S.sp - BitVec.ofNat 16 k ≠ Config.stackEmptySp := by
  rw [Stack.depth_eq] at h
  intro hk
  have h16 := sp_toNat_lt S.sp
  have := congrArg BitVec.toNat hk
  rw [BitVec.toNat_sub, BitVec.toNat_ofNat] at this
  change (65536 - k % 65536 + S.sp.toNat) % 65536 = 0 at this
  omega

theorem elemDs_eq_ok {s : State} {k : Nat} {c : Cell} : elemDs k s = .ok c ↔ s.ds.elem k = some c := orRaise_eq_ok

theorem elemDs_eq_error {s : State} {k : Nat} {f : Fault} :
    elemDs k s = .error f ↔ s.ds.elem k = none ∧ f = .stackUnderflow s.faultPc s.debug := orRaise_eq_error

/-- Two pops answer the two top elements, `a` below `b`, and change DS alone. -/
theorem popOperands_eq_ok {s t : State} {a b : Cell} :
    popOperands s = .ok (a, b, t) ↔ ∃ u, popDs s = .ok (b, u) ∧ popDs u = .ok (a, t) := by
  simp only [popOperands, bind_eq_ok, pure_eq_ok]
  constructor
  · rintro ⟨⟨b', u⟩, h1, ⟨a', t'⟩, h2, h3⟩
    simp only [Except.ok.injEq, Prod.mk.injEq] at h3
    obtain ⟨rfl, rfl, rfl⟩ := h3
    exact ⟨u, h1, h2⟩
  · rintro ⟨u, h1, h2⟩
    exact ⟨(b, u), h1, (a, t), h2, rfl⟩

/-! ### Halves of a 16-bit register -/

theorem high_of_append (h l : Cell) : highHalf (h ++ l) = h := by
  show (h ++ l).extractLsb' 8 8 = h
  apply BitVec.eq_of_getLsbD_eq
  intro i hi
  rw [BitVec.getLsbD_extractLsb', BitVec.getLsbD_append, if_neg (show ¬ 8 + i < 8 by omega), Nat.add_sub_cancel_left, decide_eq_true hi,
    Bool.true_and]

theorem low_of_append (h l : Cell) : lowHalf (h ++ l) = l := by
  show (h ++ l).extractLsb' 0 8 = l
  apply BitVec.eq_of_getLsbD_eq
  intro i hi
  rw [BitVec.getLsbD_extractLsb', BitVec.getLsbD_append, Nat.zero_add, if_pos hi, decide_eq_true hi, Bool.true_and]

/-- The two bytes of a register put together again. -/
theorem append_halves (x : Addr) : highHalf x ++ lowHalf x = x := by
  show x.extractLsb' 8 8 ++ x.extractLsb' 0 8 = x
  apply BitVec.eq_of_getLsbD_eq
  intro i hi
  rw [BitVec.getLsbD_append, BitVec.getLsbD_extractLsb', BitVec.getLsbD_extractLsb', Nat.zero_add]
  by_cases h : i < 8
  · rw [if_pos h, decide_eq_true h, Bool.true_and]
  · rw [if_neg h, show 8 + (i - 8) = i by omega, decide_eq_true (show i - 8 < 8 by omega), Bool.true_and]

/-- Latching both halves, in either order, leaves the two bytes: for `ad`, whatever it held. -/
theorem latch_high_then_low (h l : Cell) (s : State) : latchLow l (latchHigh h s) = s.withAd (h ++ l) := by
  simp only [latchLow, latchHigh, State.withAd_ad, high_of_append]
  rfl

theorem latch_low_then_high (h l : Cell) (s : State) : latchHigh h (latchLow l s) = s.withAd (h ++ l) := by
  simp only [latchLow, latchHigh, State.withAd_ad, low_of_append]
  rfl

theorem latchPc_high_then_low (h l : Cell) (s : State) : latchPcLow l (latchPcHigh h s) = s.withPc (h ++ l) := by
  simp only [latchPcLow, latchPcHigh, State.withPc_pc, high_of_append]
  rfl

/-! ### Tables -/

theorem tableByte_eq_ok {s : State} {a : Addr} {b : Cell} : tableByte s a = .ok b ↔ s.imem.read a = .data b := by
  unfold tableByte; split <;> simp [*]

theorem tableByte_eq_error {s : State} {a : Addr} {f : Fault} :
    tableByte s a = .error f ↔ (∀ b, s.imem.read a ≠ .data b) ∧ f = .badAddress s.faultPc s.debug := by
  unfold tableByte; split <;> simp [*, eq_comm]

/-- The two states of a table read that answers; `latchHi` must not change instruction memory. -/
theorem tableTicks_eq_ok {s hi lo : State} {base i : Nat} {latchHi latchLo : Cell → State → State}
    (keeps : ∀ b u, (latchHi b u).imem = u.imem) :
    tableTicks base i latchHi latchLo s = .ok (hi, lo) ↔
      ∃ h l, s.imem.read (BitVec.ofNat 16 (base + 2 * i)) = .data h ∧
        s.imem.read (BitVec.ofNat 16 (base + 2 * i) + 1) = .data l ∧ hi = latchHi h s ∧ lo = latchLo l (latchHi h s) := by
  simp only [tableTicks, bind_eq_ok, tableByte_eq_ok, pure_eq_ok, keeps, Except.ok.injEq, Prod.mk.injEq, Config.slotBytes]
  constructor
  · rintro ⟨h, hh, l, hl, rfl, rfl⟩; exact ⟨h, l, hh, hl, rfl, rfl⟩
  · rintro ⟨h, l, hh, hl, rfl, rfl⟩; exact ⟨h, hh, l, hl, rfl, rfl⟩

/-- What a table read that answers has read; `latchHi` must not change instruction memory. -/
theorem tableRead_eq_ok {s t : State} {base i : Nat} {latchHi latchLo : Cell → State → State}
    (keeps : ∀ b u, (latchHi b u).imem = u.imem) :
    tableRead base i latchHi latchLo s = .ok t ↔
      ∃ h l, s.imem.read (BitVec.ofNat 16 (base + 2 * i)) = .data h ∧
        s.imem.read (BitVec.ofNat 16 (base + 2 * i) + 1) = .data l ∧ t = latchLo l (latchHi h s) := by
  simp only [tableRead, bind_eq_ok, pure_eq_ok, Except.ok.injEq]
  constructor
  · rintro ⟨⟨hi, lo⟩, hr, rfl⟩
    obtain ⟨h, l, hh, hl, -, rfl⟩ := (tableTicks_eq_ok keeps).mp hr
    exact ⟨h, l, hh, hl, rfl⟩
  · rintro ⟨h, l, hh, hl, rfl⟩
    exact ⟨(latchHi h s, latchLo l (latchHi h s)), (tableTicks_eq_ok keeps).mpr ⟨h, l, hh, hl, rfl, rfl⟩, rfl⟩

/-- A table read into `ad`. -/
theorem tableRead_ad {s : State} {base i : Nat} {h l : Cell}
    (hh : s.imem.read (BitVec.ofNat 16 (base + 2 * i)) = .data h)
    (hl : s.imem.read (BitVec.ofNat 16 (base + 2 * i) + 1) = .data l) :
    tableRead base i latchHigh latchLow s = .ok (s.withAd (h ++ l)) :=
  (tableRead_eq_ok (latchHi := latchHigh) (latchLo := latchLow) fun _ _ => rfl).mpr
    ⟨h, l, hh, hl, (latch_high_then_low h l s).symm⟩

/-- A table read into pc. -/
theorem tableRead_pc {s : State} {base i : Nat} {h l : Cell}
    (hh : s.imem.read (BitVec.ofNat 16 (base + 2 * i)) = .data h)
    (hl : s.imem.read (BitVec.ofNat 16 (base + 2 * i) + 1) = .data l) :
    tableRead base i latchPcHigh latchPcLow s = .ok (s.withPc (h ++ l)) :=
  (tableRead_eq_ok (latchHi := latchPcHigh) (latchLo := latchPcLow) fun _ _ => rfl).mpr
    ⟨h, l, hh, hl, (latchPc_high_then_low h l s).symm⟩

/-- The fault of a table read: a slot that is no data byte, BadAddress; `latchHi` must not change what a fault records. -/
theorem tableRead_eq_error {s : State} {base i : Nat} {latchHi latchLo : Cell → State → State} {f : Fault}
    (keeps : ∀ b u, (latchHi b u).imem = u.imem ∧ (latchHi b u).faultPc = u.faultPc ∧ (latchHi b u).debug = u.debug)
    (h : tableRead base i latchHi latchLo s = .error f) : f = .badAddress s.faultPc s.debug := by
  simp only [tableRead, tableTicks, bind_eq_error, tableByte_eq_error, pure_eq_ok, keeps] at h
  rcases h with (⟨-, rfl⟩ | ⟨h, -, ⟨-, rfl⟩ | ⟨l, -, hl⟩⟩) | ⟨x, -, hx⟩
  · rfl
  · rfl
  · cases hl
  · cases hx

/-! ### Relative targets -/

theorem relTarget_eq_ok {off : Int} {s : State} {t : Addr} :
    relTarget off s = .ok t ↔ (0 ≤ (s.pc.toNat : Int) + off ∧ (s.pc.toNat : Int) + off ≤ 65535) ∧
      (t.toNat : Int) = s.pc.toNat + off := by
  have ht := addr_toNat_lt t
  by_cases h : 0 ≤ (s.pc.toNat : Int) + off ∧ (s.pc.toNat : Int) + off ≤ 65535
  · have hr : relTarget off s = .ok (BitVec.ofInt 16 (s.pc.toNat + off)) :=
      if_neg (by show ¬ (_ ∨ (65536 : Int) ≤ _); omega)
    have hn : ((BitVec.ofInt 16 ((s.pc.toNat : Int) + off)).toNat : Int) = s.pc.toNat + off := by
      rw [BitVec.toNat_ofInt]; omega
    simp only [hr, Except.ok.injEq, h, and_self, true_and]
    constructor
    · rintro rfl; exact hn
    · intro h'
      apply BitVec.eq_of_toNat_eq
      omega
  · have hr : relTarget off s = .error (raise .badAddress s) :=
      if_pos (by show _ ∨ (65536 : Int) ≤ _; omega)
    simp [hr, h]

theorem relTarget_eq_error {off : Int} {s : State} {f : Fault} :
    relTarget off s = .error f ↔ ((s.pc.toNat : Int) + off < 0 ∨ 65535 < (s.pc.toNat : Int) + off) ∧
      f = .badAddress s.faultPc s.debug := by
  by_cases h : (s.pc.toNat : Int) + off < 0 ∨ 65535 < (s.pc.toNat : Int) + off
  · have hr : relTarget off s = .error (raise .badAddress s) :=
      if_pos (by show _ ∨ (65536 : Int) ≤ _; omega)
    simp [hr, h, eq_comm]
  · have hr : relTarget off s = .ok (BitVec.ofInt 16 (s.pc.toNat + off)) :=
      if_neg (by show ¬ (_ ∨ (65536 : Int) ≤ _); omega)
    simp [hr, h]

theorem jumpRelative_eq_ok {off : Int} {s t : State} :
    jumpRelative off s = .ok t ↔ relTarget off s = .ok t.pc ∧ t = s.withPc t.pc := by
  simp only [jumpRelative, bind_eq_ok, pure_eq_ok, Except.ok.injEq]
  constructor
  · rintro ⟨p, hp, rfl⟩; exact ⟨hp, rfl⟩
  · rintro ⟨hp, ht⟩; exact ⟨t.pc, hp, ht.symm⟩

theorem jumpRelative_eq_error {off : Int} {s : State} {f : Fault} :
    jumpRelative off s = .error f ↔ relTarget off s = .error f := by
  simp [jumpRelative, bind_eq_error]

/-! ### The cycle -/

/-- A fetch answers iff the slot at pc holds a record. -/
theorem fetch_eq_ok {s t : State} {r : Record} :
    fetch s = .ok (r, t) ↔ s.imem.read s.pc = .instr r ∧ t = s.fetched r := by
  unfold fetch
  split
  · simp [*]
  · simp [*]
  · next r' h =>
    simp only [h, Except.ok.injEq, Prod.mk.injEq, Slot.instr.injEq]
    constructor <;> (rintro ⟨rfl, rfl⟩; exact ⟨rfl, rfl⟩)

theorem decodeFetched_eq_ok {r : Record} {s : State} {i : Instr} : decodeFetched r s = .ok i ↔ decodeRecord r = .ok i := by
  unfold decodeFetched; split <;> simp [*]

theorem decodeFetched_eq_error {r : Record} {s : State} {f : Fault} :
    decodeFetched r s = .error f ↔ (∀ i, decodeRecord r ≠ .ok i) ∧ f = .unknownOpcode s.faultPc s.debug := by
  unfold decodeFetched; split <;> simp [*, eq_comm]

theorem fetchDecode_eq_ok {s t : State} {i : Instr} :
    fetchDecode s = .ok (i, t) ↔ ∃ r, s.imem.read s.pc = .instr r ∧ decodeRecord r = .ok i ∧ t = s.fetched r := by
  simp only [fetchDecode, bind_eq_ok, pure_eq_ok]
  constructor
  · rintro ⟨⟨r, u⟩, h1, j, h2, h3⟩
    simp only [Except.ok.injEq, Prod.mk.injEq] at h3
    obtain ⟨rfl, rfl⟩ := h3
    obtain ⟨hr, rfl⟩ := fetch_eq_ok.mp h1
    exact ⟨r, hr, decodeFetched_eq_ok.mp h2, rfl⟩
  · rintro ⟨r, hr, hi, rfl⟩
    exact ⟨(r, s.fetched r), fetch_eq_ok.mpr ⟨hr, rfl⟩, i, decodeFetched_eq_ok.mpr hi, rfl⟩

@[simp] theorem fetched_pc (s : State) (r : Record) : (s.fetched r).pc = s.pc + 1 := rfl
@[simp] theorem fetched_flags (s : State) (r : Record) : (s.fetched r).flags = s.flags := rfl
@[simp] theorem fetched_ds (s : State) (r : Record) : (s.fetched r).ds = s.ds := rfl
@[simp] theorem fetched_rs (s : State) (r : Record) : (s.fetched r).rs = s.rs := rfl
@[simp] theorem fetched_ram (s : State) (r : Record) : (s.fetched r).ram = s.ram := rfl
@[simp] theorem fetched_ad (s : State) (r : Record) : (s.fetched r).ad = s.ad := rfl
@[simp] theorem fetched_imem (s : State) (r : Record) : (s.fetched r).imem = s.imem := rfl
@[simp] theorem fetched_inBuf (s : State) (r : Record) : (s.fetched r).inBuf = s.inBuf := rfl
@[simp] theorem fetched_outBuf (s : State) (r : Record) : (s.fetched r).outBuf = s.outBuf := rfl
@[simp] theorem fetched_tick (s : State) (r : Record) : (s.fetched r).tick = s.tick := rfl
@[simp] theorem fetched_status (s : State) (r : Record) : (s.fetched r).status = s.status := rfl
@[simp] theorem fetched_faultPc (s : State) (r : Record) : (s.fetched r).faultPc = s.pc := rfl
@[simp] theorem fetched_debug (s : State) (r : Record) : (s.fetched r).debug = r.debug := rfl

theorem retire_eq_next {i : Instr} {o : Outcome} {t : State} :
    retire i o = .next t ↔ ∃ u, o = .next u ∧ t = addTicks (leastTicks i) u := by
  cases o <;> simp [retire, eq_comm]

theorem retire_eq_fault {i : Instr} {o : Outcome} {f : Fault} : retire i o = .fault f ↔ o = .fault f := by
  cases o <;> simp [retire]

theorem retire_eq_refused {i : Instr} {o : Outcome} {r : Refusal} : retire i o = .refused r ↔ o = .refused r := by
  cases o <;> simp [retire]

/-- Counting ticks changes the tick counter and the count of free values alone. -/
theorem addTicks_eq (n : Nat) (s : State) :
    addTicks n s = (s.withTick (s.tick + n + Config.freeTicks s.draws)).withDraws (s.draws + 1) := rfl

/-- A step that answers a next state ran the decoded instruction from the fetched state and counted its ticks. -/
theorem step_eq_next {s t : State} :
    step s = .next t ↔ s.status = .running ∧ ∃ r i u, s.imem.read s.pc = .instr r ∧ decodeRecord r = .ok i ∧
      exec i (s.fetched r) = .next u ∧ t = addTicks (leastTicks i) u := by
  unfold step
  cases hs : s.status <;> simp
  cases hf : fetchDecode s with
  | ok p =>
    obtain ⟨i, v⟩ := p
    obtain ⟨r, hr, hi, rfl⟩ := fetchDecode_eq_ok.mp hf
    simp only [retire_eq_next]
    constructor
    · rintro ⟨u, hu, ht⟩; exact ⟨r, hr, i, hi, u, hu, ht⟩
    · rintro ⟨r', hr', i', hi', u, hu, ht⟩
      rw [hr] at hr'; obtain rfl := Slot.instr.inj hr'
      rw [hi] at hi'; obtain rfl := Except.ok.inj hi'
      exact ⟨u, hu, ht⟩
  | error e =>
    simp only [reduceCtorEq, false_iff]
    rintro ⟨r, hr, i, hi, -⟩
    have := fetchDecode_eq_ok.mpr ⟨r, hr, hi, rfl⟩
    rw [hf] at this; cases this

end Sys2Proof.Machine
end

