-- ==== Sys2Proof/Laws/Frame.lean ====
section
/-! SUPPORT. What each shape of instruction, and each instruction, leaves of the state when it answers a next state. -/

namespace Sys2Proof.Machine

/-- A pop of DS answers the top and leaves the backing array and the rest of the state. -/
theorem popDs_frame {s t : State} {c} (h : popDs s = .ok (c, t)) : c = s.ds.tos ∧ ∃ S : Stack, S.data = s.ds.data ∧ t = s.withDs S := by
  obtain ⟨hp, ht⟩ := popDs_eq_ok.mp h
  obtain ⟨-, hc, hS⟩ := Stack.pop_eq_some.mp hp
  exact ⟨hc, t.ds, by rw [hS], ht⟩

/-- A pop of RS answers the top and leaves the backing array and the rest of the state. -/
theorem popRs_frame {s t : State} {c} (h : popRs s = .ok (c, t)) : c = s.rs.tos ∧ ∃ S : Stack, S.data = s.rs.data ∧ t = s.withRs S := by
  obtain ⟨hp, ht⟩ := popRs_eq_ok.mp h
  obtain ⟨-, hc, hS⟩ := Stack.pop_eq_some.mp hp
  exact ⟨hc, t.rs, by rw [hS], ht⟩

/-- Two pops of DS leave the backing array and the rest of the state. -/
theorem popOperands_frame {s t : State} {a b} (h : popOperands s = .ok (a, b, t)) : ∃ S : Stack, S.data = s.ds.data ∧ t = s.withDs S := by
  obtain ⟨u, h1, h2⟩ := popOperands_eq_ok.mp h
  obtain ⟨-, S, hS, rfl⟩ := popDs_frame h1
  obtain ⟨-, T, hT, rfl⟩ := popDs_frame h2
  exact ⟨T, hT.trans hS, rfl⟩

/-- A two-operand instruction changes DS and the flags. -/
theorem binaryAlu_frame {f} {s t : State} (h : binaryAlu f s = .ok t) :
   ∃ (S : Stack) (F : Flags), (s.ds.wf → S.wf) ∧ t = (s.withDs S).withFlags F := by
  obtain ⟨⟨a, b, u⟩, h1, h2⟩ := bind_eq_ok.mp h
  obtain ⟨S, hS, rfl⟩ := popOperands_frame h1
  cases h2
  exact ⟨_, _, fun h => Stack.push_wf (Stack.wf_of_data hS h), rfl⟩

/-- A one-operand instruction changes DS and the flags. -/
theorem unaryAlu_frame {f} {s t : State} (h : unaryAlu f s = .ok t) :
   ∃ (S : Stack) (F : Flags), (s.ds.wf → S.wf) ∧ t = (s.withDs S).withFlags F := by
  obtain ⟨x, h1, h2⟩ := bind_eq_ok.mp h
  cases h2
  exact ⟨{ s.ds with tos := (f x s.flags).1 }, _, fun h => h, rfl⟩

/-- Three pops of DS leave the backing array and the rest of the state. -/
theorem pop24_frame {s t : State} {w} (h : pop24 s = .ok (w, t)) : ∃ S : Stack, S.data = s.ds.data ∧ t = s.withDs S := by
  obtain ⟨⟨c1, u1⟩, h1, h⟩ := bind_eq_ok.mp h
  obtain ⟨⟨c2, u2⟩, h2, h⟩ := bind_eq_ok.mp h
  obtain ⟨⟨c3, u3⟩, h3, h⟩ := bind_eq_ok.mp h
  obtain ⟨-, S, hS, rfl⟩ := popDs_frame h1
  obtain ⟨-, T, hT, rfl⟩ := popDs_frame h2
  obtain ⟨-, U, hU, rfl⟩ := popDs_frame h3
  cases h
  exact ⟨U, hU.trans (hT.trans hS), rfl⟩

/-- A 24-bit division changes DS and the flags, and takes three free values. -/
theorem tripleAlu_frame {f} {s t : State} (h : tripleAlu f s = .ok t) :
   ∃ (S : Stack) (F : Flags), (s.ds.wf → S.wf) ∧ t = ((s.withDs S).withFlags F).withDraws (s.draws + 1 + 1 + 1) := by
  obtain ⟨⟨B, u⟩, h1, h⟩ := bind_eq_ok.mp h
  obtain ⟨⟨A, v⟩, h2, h⟩ := bind_eq_ok.mp h
  obtain ⟨S, hS, rfl⟩ := pop24_frame h1
  obtain ⟨T, hT, rfl⟩ := pop24_frame h2
  simp only at h
  split at h
  · cases h
  · cases h
    refine ⟨_, _, fun h => ?_, rfl⟩
    exact Stack.push_wf (Stack.push_wf (Stack.push_wf (Stack.wf_of_data (hT.trans hS) h)))

/-- The address pops change DS and `ad`. -/
theorem popAddress_frame {s t : State} (h : popAddress s = .ok t) : ∃ (S : Stack) (A : Addr), S.data = s.ds.data ∧ t = (s.withAd A).withDs S := by
  obtain ⟨⟨c1, u1⟩, h1, h⟩ := bind_eq_ok.mp h
  obtain ⟨⟨c2, u2⟩, h2, h⟩ := bind_eq_ok.mp h
  obtain ⟨-, S, hS, rfl⟩ := popDs_frame h1
  obtain ⟨-, T, hT, rfl⟩ := popDs_frame h2
  cases h
  exact ⟨T, _, hT.trans hS, rfl⟩

/-- A table read into `ad` changes `ad`. -/
theorem tableRead_ad_frame {s t : State} {b i} (h : tableRead b i latchHigh latchLow s = .ok t) : ∃ A, t = s.withAd A := by
  obtain ⟨h, l, -, -, rfl⟩ := (tableRead_eq_ok (latchHi := latchHigh) (fun b u => rfl)).mp h
  exact ⟨_, latch_high_then_low _ _ _⟩
/-- A table read into pc changes pc. -/
theorem tableRead_pc_frame {s t : State} {b i} (h : tableRead b i latchPcHigh latchPcLow s = .ok t) : ∃ A, t = s.withPc A := by
  obtain ⟨h, l, -, -, rfl⟩ := (tableRead_eq_ok (latchHi := latchPcHigh) (fun b u => rfl)).mp h
  exact ⟨_, latchPc_high_then_low _ _ _⟩

/-- A relative jump changes pc. -/
theorem jumpIf_frame {fl off} {s t : State} (h : jumpIf fl off s = .ok t) : ∃ A, t = s.withPc A := by
  unfold jumpIf at h
  split at h
  · exact ⟨_, (jumpRelative_eq_ok.mp h).2⟩
  · cases h; exact ⟨s.pc, rfl⟩

/-- What an instruction that answers may have changed, and nothing else: the frame, and that it keeps the canonical form of
the stacks it touches. -/
theorem exec_frame {i : Instr} {s t : State} :
    exec i s = .next t → match i with
    | .sum | .sub | .mul | .div | .mod | .inc | .dec =>
      ∃ S F, (s.ds.wf → S.wf) ∧ t = (s.withDs S).withFlags F
    | .tdiv | .tmod => ∃ S F n, (s.ds.wf → S.wf) ∧ t = ((s.withDs S).withFlags F).withDraws n
    | .cmp => ∃ F n, t = (s.withFlags F).withDraws n
    | .dup | .drop | .swap | .overCell | .rot | .pushTrue | .pushFalse => ∃ S, (s.ds.wf → S.wf) ∧ t = s.withDs S
    | .tor | .rfrom =>
      ∃ S R, (s.ds.wf → S.wf) ∧ (s.rs.wf → R.wf) ∧ t = (s.withDs S).withRs R
    | .get | .load _ => ∃ a S, (s.ds.wf → S.wf) ∧ t = (s.withAd a).withDs S
    | .set => ∃ a S v, (s.ds.wf → S.wf) ∧ t = ((s.withAd a).withDs S).withRam (s.ram.write a v)
    | .print => ∃ S, (s.ds.wf → S.wf) ∧ t = (s.withDs S).withOut (s.outBuf ++ [s.ds.tos])
    | .read => ∃ rest x, s.inBuf = rest ++ [x] ∧ t = pushDs x (s.withIn rest)
    | .jmpr _ | .jz _ | .jl _ | .jo _ | .jmpa _ => ∃ p, t = s.withPc p
    | .call _ | .ret => ∃ R p, (s.rs.wf → R.wf) ∧ t = (s.withRs R).withPc p
    | .hlt => t = s.withStatus .halted := by
  intro h
  cases i
  case sum => exact binaryAlu_frame (finish_eq_next.mp h)
  case sub => exact binaryAlu_frame (finish_eq_next.mp h)
  case mul => exact binaryAlu_frame (finish_eq_next.mp h)
  case div => exact binaryAlu_frame (finish_eq_next.mp h)
  case mod => exact binaryAlu_frame (finish_eq_next.mp h)
  case inc => exact unaryAlu_frame (finish_eq_next.mp h)
  case dec => exact unaryAlu_frame (finish_eq_next.mp h)
  case tdiv => obtain ⟨S, F, h1, h2⟩ := tripleAlu_frame (finish_eq_next.mp h); exact ⟨S, F, _, h1, h2⟩
  case tmod => obtain ⟨S, F, h1, h2⟩ := tripleAlu_frame (finish_eq_next.mp h); exact ⟨S, F, _, h1, h2⟩
  case cmp =>
    obtain ⟨b, -, h⟩ := bind_eq_ok.mp (finish_eq_next.mp h)
    obtain ⟨a, -, h⟩ := bind_eq_ok.mp h
    cases h; exact ⟨_, _, rfl⟩
  case dup =>
    obtain ⟨x, -, h⟩ := bind_eq_ok.mp (finish_eq_next.mp h)
    cases h; exact ⟨_, Stack.push_wf, rfl⟩
  case drop =>
    obtain ⟨⟨c, u⟩, h1, h⟩ := bind_eq_ok.mp (finish_eq_next.mp h)
    obtain ⟨-, S, hS, rfl⟩ := popDs_frame h1
    cases h; exact ⟨S, fun h => Stack.wf_of_data hS h, rfl⟩
  case swap =>
    obtain ⟨S, h1, h⟩ := bind_eq_ok.mp (finish_eq_next.mp h)
    have := (Stack.swap_eq_some.mp (orRaise_eq_ok.mp h1)).2
    cases h; exact ⟨S, fun h => by rw [this]; exact Stack.dataWf_write h, rfl⟩
  case overCell =>
    obtain ⟨x, -, h⟩ := bind_eq_ok.mp (finish_eq_next.mp h)
    cases h; exact ⟨_, Stack.push_wf, rfl⟩
  case rot =>
    obtain ⟨⟨c1, u1⟩, h1, h⟩ := bind_eq_ok.mp (finish_eq_next.mp h)
    obtain ⟨⟨c2, u2⟩, h2, h⟩ := bind_eq_ok.mp h
    obtain ⟨⟨c3, u3⟩, h3, h⟩ := bind_eq_ok.mp h
    obtain ⟨-, S, hS, rfl⟩ := popDs_frame h1
    obtain ⟨-, T, hT, rfl⟩ := popDs_frame h2
    obtain ⟨-, U, hU, rfl⟩ := popDs_frame h3
    cases h
    exact ⟨_, fun h => Stack.push_wf (Stack.push_wf (Stack.push_wf (Stack.wf_of_data (hU.trans (hT.trans hS)) h))), rfl⟩
  case pushTrue => cases h; exact ⟨_, Stack.push_wf, rfl⟩
  case pushFalse => cases h; exact ⟨_, Stack.push_wf, rfl⟩
  case tor =>
    obtain ⟨⟨c, u⟩, h1, h⟩ := bind_eq_ok.mp (finish_eq_next.mp h)
    obtain ⟨-, S, hS, rfl⟩ := popDs_frame h1
    cases h; exact ⟨S, _, fun h => Stack.wf_of_data hS h, Stack.push_wf, rfl⟩
  case rfrom =>
    obtain ⟨⟨c, u⟩, h1, h⟩ := bind_eq_ok.mp (finish_eq_next.mp h)
    obtain ⟨-, S, hS, rfl⟩ := popRs_frame h1
    cases h; exact ⟨_, S, Stack.push_wf, fun h => Stack.wf_of_data hS h, rfl⟩
  case get =>
    obtain ⟨u, h1, h⟩ := bind_eq_ok.mp (finish_eq_next.mp h)
    obtain ⟨S, A, hS, rfl⟩ := popAddress_frame h1
    cases h; exact ⟨A, _, fun h => Stack.push_wf (Stack.wf_of_data hS h), rfl⟩
  case load =>
    obtain ⟨u, h1, h⟩ := bind_eq_ok.mp (finish_eq_next.mp h)
    obtain ⟨A, rfl⟩ := tableRead_ad_frame h1
    cases h; exact ⟨A, _, Stack.push_wf, rfl⟩
  case set =>
    obtain ⟨u, h1, h⟩ := bind_eq_ok.mp (finish_eq_next.mp h)
    obtain ⟨S, A, hS, rfl⟩ := popAddress_frame h1
    obtain ⟨⟨v, w⟩, h2, h⟩ := bind_eq_ok.mp h
    obtain ⟨-, T, hT, rfl⟩ := popDs_frame h2
    cases h; exact ⟨A, T, v, fun h => Stack.wf_of_data (hT.trans hS) h, rfl⟩
  case print =>
    obtain ⟨⟨c, u⟩, h1, h⟩ := bind_eq_ok.mp (finish_eq_next.mp h)
    obtain ⟨hc, S, hS, rfl⟩ := popDs_frame h1
    cases h; exact ⟨S, fun h => Stack.wf_of_data hS h, by rw [hc]; rfl⟩
  case read =>
    obtain ⟨x, h1, h⟩ := bind_eq_ok.mp (finish_eq_next.mp h)
    cases h; exact ⟨_, x, (List.dropLast_append_getLast? _ (orRaise_eq_ok.mp h1)).symm, rfl⟩
  case jmpr => exact ⟨_, (jumpRelative_eq_ok.mp (finish_eq_next.mp h)).2⟩
  case jz => exact jumpIf_frame (finish_eq_next.mp h)
  case jl => exact jumpIf_frame (finish_eq_next.mp h)
  case jo => exact jumpIf_frame (finish_eq_next.mp h)
  case jmpa => exact tableRead_pc_frame (finish_eq_next.mp h)
  case call =>
    obtain ⟨p, rfl⟩ := tableRead_pc_frame (finish_eq_next.mp h)
    exact ⟨_, p, fun h => Stack.push_wf (Stack.push_wf h), rfl⟩
  case ret =>
    obtain ⟨⟨c, u⟩, h1, h⟩ := bind_eq_ok.mp (finish_eq_next.mp h)
    obtain ⟨⟨c2, u2⟩, h2, h⟩ := bind_eq_ok.mp h
    obtain ⟨-, S, hS, rfl⟩ := popRs_frame h1
    obtain ⟨-, T, hT, rfl⟩ := popRs_frame h2
    cases h
    exact ⟨T, _, fun h => Stack.wf_of_data (hT.trans hS) h, rfl⟩
  case hlt => cases h; rfl

end Sys2Proof.Machine
end

