-- ==== Sys2Proof/Laws/Image.lean ====
section
/-! SUPPORT. What loading an image leaves in instruction memory and RAM, and which launch State.reset stands for. -/

namespace Sys2Proof.Machine

/-- A slot of a loaded sequence: the element in its place, and what was there elsewhere. -/
theorem loadCode_read (l : List Element) (a : Nat) (m : IMem) (b : Addr) (h : a + l.length ≤ 65536) :
    (loadCode a l m).read b =
      if a ≤ b.toNat ∧ b.toNat < a + l.length then ((l[b.toNat - a]?).map Element.slot).getD .empty else m.read b := by
  induction l generalizing a m with
  | nil => rw [if_neg (fun hb => absurd (Nat.lt_of_le_of_lt hb.1 hb.2) (by simp))]; rfl
  | cons e rest ih =>
    simp only [List.length_cons] at h ⊢
    show (loadCode (a + 1) rest _).read b = _
    rw [ih _ _ (by omega), IMem.read_write]
    have heq : b = BitVec.ofNat 16 a ↔ b.toNat = a := by
      constructor
      · rintro rfl
        exact Nat.mod_eq_of_lt (show a < 65536 by omega)
      · intro hb
        have ha : a % 65536 = a := Nat.mod_eq_of_lt (by omega)
        exact BitVec.eq_of_toNat_eq (by rw [hb, BitVec.toNat_ofNat]; exact ha.symm)
    by_cases h1 : b.toNat = a
    · rw [if_neg (by omega), if_pos (heq.mpr h1), if_pos (by omega), h1]
      simp
    · by_cases h2 : a < b.toNat ∧ b.toNat < a + 1 + rest.length
      · rw [if_pos (by omega), if_pos (by omega), show b.toNat - a = (b.toNat - (a + 1)) + 1 by omega]
        rfl
      · rw [if_neg (by omega), if_neg (fun hb => h1 (heq.mp hb)), if_neg (by omega)]

/-- Loading a sequence keeps the canonical form. -/
theorem loadCode_wf {l : List Element} {a : Nat} {m : IMem} (h : m.wf) : (loadCode a l m).wf := by
  induction l generalizing a m with
  | nil => exact h
  | cons e rest ih => exact ih (IMem.wf_write h)

/-- Loading RAM entries keeps the canonical form. -/
theorem loadRam_wf {l : List (Int × Int)} {m : Memory} (h : m.wf) : (loadRam l m).wf := by
  induction l generalizing m with
  | nil => exact h
  | cons e rest ih => exact ih (Memory.wf_write h)

/-- A cell no entry names keeps what it held. -/
theorem loadRam_read_of_ne {l : List (Int × Int)} {m : Memory} {b : Addr} (h : ∀ e ∈ l, BitVec.ofInt 16 e.1 ≠ b) :
    (loadRam l m).read b = m.read b := by
  induction l generalizing m with
  | nil => rfl
  | cons e rest ih =>
    show (loadRam rest _).read b = _
    rw [ih fun x hx => h x (List.mem_cons_of_mem _ hx), Memory.read_write, if_neg fun hb => h e (by simp) hb.symm]

/-- A cell an entry names holds that entry's value, when no address is named twice and every address is one of RAM. -/
theorem loadRam_read_of_mem {l : List (Int × Int)} {m : Memory} {e : Int × Int} (once : (l.map Prod.fst).Nodup)
    (range : ∀ x ∈ l, 0 ≤ x.1 ∧ x.1 ≤ 65535) (he : e ∈ l) :
    (loadRam l m).read (BitVec.ofInt 16 e.1) = BitVec.ofInt 8 e.2 := by
  induction l generalizing m with
  | nil => cases he
  | cons x rest ih =>
    simp only [List.map_cons, List.nodup_cons] at once
    show (loadRam rest _).read _ = _
    rcases List.mem_cons.mp he with rfl | he
    · rw [loadRam_read_of_ne]
      · exact Memory.read_write_same _ _ _
      · intro y hy heq
        have h1 := range y (List.mem_cons_of_mem _ hy)
        have h2 := range e (by simp)
        have h3 := congrArg BitVec.toNat heq
        rw [BitVec.toNat_ofInt, BitVec.toNat_ofInt] at h3
        have h4 : y.1 = e.1 := by simp at h3; omega
        exact once.1 (h4 ▸ List.mem_map_of_mem hy)
    · exact ih once.2 (fun y hy => range y (List.mem_cons_of_mem _ hy)) he

/-- The image of table bytes alone is well-formed. -/
theorem blankImage_wf (n : Nat) (hn : n = Config.programBase) :
    Image.wf { code := List.replicate n (.data 0), ram := [] } = true := by
  unfold Image.wf
  simp only [List.length_replicate, hn]
  rfl

/-- State.reset is the state the launch with no program starts in (Log 4). -/
theorem boot_blankLaunch : boot blankLaunch = .next State.reset := by
  have hwf : blankLaunch.wf = true := by
    unfold Launch.wf
    rw [show blankLaunch.image.wf = true from blankImage_wf _ rfl]
    decide
  have hcode : ∀ (n a : Nat), a + n ≤ Config.programBase → loadCode a (List.replicate n (.data 0)) [] = [] := by
    intro n
    induction n with
    | zero => intro a _; rfl
    | succ n ih =>
      intro a ha
      have hw : IMem.write [] (BitVec.ofNat 16 a) (Element.data 0).slot = [] := by
        have hlt : (BitVec.ofNat 16 a).toNat < Config.programBase := by
          rw [BitVec.toNat_ofNat]; exact Nat.lt_of_le_of_lt (Nat.mod_le _ _) (by omega)
        have hd : IMem.unlisted (BitVec.ofNat 16 a).toNat = (Element.data 0).slot := if_pos hlt
        simp only [IMem.write, sparseWrite, hd, if_true]
        rfl
      show loadCode (a + 1) (List.replicate n (.data 0)) (IMem.write [] (BitVec.ofNat 16 a) (Element.data 0).slot) = []
      rw [hw]
      exact ih (a + 1) (by omega)
  have := hcode Config.programBase 0 (by decide)
  unfold boot
  rw [if_pos hwf]
  show Host.Outcome.next { State.reset with
    imem := loadCode 0 (List.replicate Config.programBase (.data 0)) [] } = Host.Outcome.next State.reset
  rw [this]
  rfl

end Sys2Proof.Machine
end

