-- ==== Sys2Proof/Laws/Observer.lean ====
section
/-! SUPPORT. What the observer sees of an instruction: the two ticks of a table read, and the last snapshot. -/

namespace Sys2Proof.Machine

/-- Counting ticks shows in no snapshot. -/
@[simp] theorem snapshot_addTicks (n : Nat) (s : State) : snapshot (addTicks n s) = snapshot s := rfl

/-- A register no transfer writes shows what it held. -/
@[simp] theorem shows_never {α : Type} (old new free : α) (written : Bool) :
    Writes.never.shows old new free written = old := rfl

/-- A register one transfer writes shows what it held or what it will. -/
theorem shows_once {α : Type} (old new free : α) (written : Bool) :
    Writes.once.shows old new free written = old ∨ Writes.once.shows old new free written = new := by
  cases written
  · exact .inl rfl
  · exact .inr rfl

@[simp] theorem cut_never : Writes.never.cut = .never := rfl

/-- What a tick of a cycle can show: the state before the fetch, the state after it with the old metadata, or what the execution
shows. -/
theorem phased_cases (draw tick : Nat) (s u : State) (later : Snapshot) :
    phased draw tick s u later = snapshot s ∨ phased draw tick s u later = { snapshot u with debug := s.debug } ∨
      phased draw tick s u later = later := by
  unfold phased
  split
  · exact .inl rfl
  · split
    · exact .inr (.inl rfl)
    · exact .inr (.inr rfl)

/-- Where no flag is written every tick shows the flags as they were. -/
theorem flagsDuring_of_never {draw tick : Nat} {how : WriteSet} {old new : Flags}
    (hz : how.z = .never) (hn : how.n = .never) (hv : how.v = .never) : flagsDuring draw tick how old new = old := by
  simp only [flagsDuring, hz, hn, hv, shows_never]

/-- A table read that answers starts where it is asked to, and its ticks are those of `tableTicks`. -/
theorem ticksFrom_eq_some {base k : Nat} {latchHi latchLo : Cell → State → State} {s : State} {x : TableTicks} :
    ticksFrom base k latchHi latchLo s = some x ↔
      x.start = s ∧ tableTicks base k latchHi latchLo s = .ok (x.high, x.low) := by
  obtain ⟨start, high, low⟩ := x
  unfold ticksFrom
  cases tableTicks base k latchHi latchLo s with
  | ok ticks => simp [Prod.ext_iff, eq_comm]
  | error f => simp

/-- Only a table-indirect instruction has the two ticks of a table read. -/
theorem leastTicks_of_tableTickStates {i : Instr} {u : State} {ticks : TableTicks}
    (h : tableTickStates i u = some ticks) : leastTicks i = 2 := by
  cases i <;> first | rfl | cases h

/-- The snapshots of an instruction with a table read: as many as its ticks. -/
theorem tickSnapshots_length_of_table {i : Instr} {s u t : State} {ticks : TableTicks}
    (h : tableTickStates i u = some ticks) :
    (tickSnapshots i s u t).length = leastTicks i + Config.freeTicks t.draws := by
  rw [leastTicks_of_tableTickStates h]
  unfold tickSnapshots
  rw [h]
  dsimp only
  split <;> simp <;> omega

/-- The last snapshot of an instruction is of the state after it. -/
theorem tickSnapshots_getLast (i : Instr) (s u t : State) :
    (tickSnapshots i s u t).getLast? = some (snapshot t) := by
  unfold tickSnapshots
  cases tableTickStates i u with
  | none => exact List.getLast?_concat
  | some ticks =>
    dsimp only
    split
    · exact List.getLast?_append_of_ne_nil _ (by simp) |>.trans rfl
    · rw [← List.cons_append, ← List.append_assoc]
      exact List.getLast?_concat

/-- The snapshots of a step that runs an instruction to a next state. -/
theorem observeStep_of_next {s t : State} {r : Record} {i : Instr} (hs : s.status = .running)
    (hr : s.imem.read s.pc = .instr r) (hi : decodeRecord r = .ok i) (he : exec i (s.fetched r) = .next t) :
    observeStep s = tickSnapshots i s (s.fetched r) t := by
  simp only [observeStep, hs, fetch, hr, decodeFetched, hi, he]

/-- The snapshots of a step whose instruction faults. -/
theorem observeStep_of_fault {s : State} {r : Record} {i : Instr} {f : Fault} (hs : s.status = .running)
    (hr : s.imem.read s.pc = .instr r) (hi : decodeRecord r = .ok i) (he : exec i (s.fetched r) = .fault f) :
    observeStep s = faultSnapshots s fun tick =>
      phased s.draws tick s (s.fetched r) (executing s.draws tick (faultWriteSet i) (s.fetched r) (s.fetched r)) := by
  simp only [observeStep, hs, fetch, hr, decodeFetched, hi, he]

/-- The snapshots of a step that fetches no record: the state as it was. -/
theorem observeStep_of_no_record {s : State} (hs : s.status = .running) (hr : ∀ r, s.imem.read s.pc ≠ .instr r) :
    observeStep s = faultSnapshots s fun _ => snapshot s := by
  unfold observeStep
  rw [hs]
  dsimp only
  cases hf : fetch s with
  | ok p => exact absurd (fetch_eq_ok.mp hf).1 (hr p.1)
  | error f => rfl

/-- No snapshot where no step is taken. -/
theorem observeStep_of_not_running {s : State} (hs : s.status ≠ .running) : observeStep s = [] := by
  unfold observeStep
  split
  · exact absurd ‹_› hs
  · rfl
  · rfl

end Sys2Proof.Machine
end

