-- ==== Sys2Proof/Laws/PerInstr.lean ====
section
/-! SUPPORT. The laws stated of every instruction as syntax, one lemma per constructor. -/

namespace Sys2Proof.Laws.Naming

/-- The names of an instruction agree: its tag is what its spelling and its opcode number give back (30_encoding.md R92,
R103), and it has an offset iff its class is not direct (R93 to R95). -/
def Statement (i : Instr) : Prop :=
  Mnemonic.ofName i.mnemonic.name = some i.mnemonic ∧ Mnemonic.ofOp i.mnemonic.op = i.mnemonic ∧
    (i.offset = none ↔ i.mnemonic.operandClass = .direct)

/-- The part of the statement that does not look at the instruction. -/
theorem statement_of_class {i : Instr} (h : i.offset = none ↔ i.mnemonic.operandClass = .direct) : Statement i :=
  ⟨ofName_name _, ofOp_op _, h⟩

theorem sum : Statement .sum := statement_of_class (iff_of_true rfl rfl)
theorem sub : Statement .sub := statement_of_class (iff_of_true rfl rfl)
theorem mul : Statement .mul := statement_of_class (iff_of_true rfl rfl)
theorem div : Statement .div := statement_of_class (iff_of_true rfl rfl)
theorem mod : Statement .mod := statement_of_class (iff_of_true rfl rfl)
theorem dup : Statement .dup := statement_of_class (iff_of_true rfl rfl)
theorem drop : Statement .drop := statement_of_class (iff_of_true rfl rfl)
theorem swap : Statement .swap := statement_of_class (iff_of_true rfl rfl)
theorem overCell : Statement .overCell := statement_of_class (iff_of_true rfl rfl)
theorem rot : Statement .rot := statement_of_class (iff_of_true rfl rfl)
theorem tor : Statement .tor := statement_of_class (iff_of_true rfl rfl)
theorem rfrom : Statement .rfrom := statement_of_class (iff_of_true rfl rfl)
theorem get : Statement .get := statement_of_class (iff_of_true rfl rfl)
theorem set : Statement .set := statement_of_class (iff_of_true rfl rfl)
theorem print : Statement .print := statement_of_class (iff_of_true rfl rfl)
theorem read : Statement .read := statement_of_class (iff_of_true rfl rfl)
theorem inc : Statement .inc := statement_of_class (iff_of_true rfl rfl)
theorem dec : Statement .dec := statement_of_class (iff_of_true rfl rfl)
theorem cmp : Statement .cmp := statement_of_class (iff_of_true rfl rfl)
theorem pushTrue : Statement .pushTrue := statement_of_class (iff_of_true rfl rfl)
theorem pushFalse : Statement .pushFalse := statement_of_class (iff_of_true rfl rfl)
theorem ret : Statement .ret := statement_of_class (iff_of_true rfl rfl)
theorem hlt : Statement .hlt := statement_of_class (iff_of_true rfl rfl)
theorem tmod : Statement .tmod := statement_of_class (iff_of_true rfl rfl)
theorem tdiv : Statement .tdiv := statement_of_class (iff_of_true rfl rfl)
theorem jmpr (off : Int) : Statement (.jmpr off) := statement_of_class (iff_of_false nofun nofun)
theorem jz (off : Int) : Statement (.jz off) := statement_of_class (iff_of_false nofun nofun)
theorem jl (off : Int) : Statement (.jl off) := statement_of_class (iff_of_false nofun nofun)
theorem jo (off : Int) : Statement (.jo off) := statement_of_class (iff_of_false nofun nofun)
theorem load (i : Nat) : Statement (.load i) := statement_of_class (iff_of_false nofun nofun)
theorem call (i : Nat) : Statement (.call i) := statement_of_class (iff_of_false nofun nofun)
theorem jmpa (i : Nat) : Statement (.jmpa i) := statement_of_class (iff_of_false nofun nofun)

end Sys2Proof.Laws.Naming
end

