-- ==== Sys2Proof/Laws/Run.lean ====
section
/-! SUPPORT. Runs, one instruction at a time: what RunsFor and a budget of ticks make of the first one. -/

namespace Sys2Proof.Machine

@[simp] theorem runsFor_zero {s t : State} : RunsFor 0 s t ↔ s = t := Iff.rfl

/-- No run goes on from a step that does not lead to a running state. -/
theorem runsFor_of_stop {s t : State} {k : Nat} (stop : ∀ u, step s = .next u → u.status ≠ .running)
    (h : RunsFor k s t) : k = 0 ∧ t = s := by
  cases k with
  | zero => exact ⟨rfl, h.symm⟩
  | succ k =>
    obtain ⟨u, hu, running, -⟩ := h
    exact absurd running (stop u hu)

/-- A run of an instruction more, from a step that leads on. -/
theorem runsFor_succ_of_next {s t u : State} {k : Nat} (h : step s = .next u) (running : u.status = .running) :
    RunsFor (k + 1) s t ↔ RunsFor k u t := by
  constructor
  · rintro ⟨v, hv, -, rest⟩
    rw [h] at hv
    cases hv
    exact rest
  · exact fun rest => ⟨u, h, running, rest⟩

theorem endsAtTick_of_next {s t : State} (h : step s = .next t) : endsAtTick s = some t.tick := by
  unfold endsAtTick
  rw [h]

theorem endsAtTick_of_fault {s : State} {f : Fault} (h : step s = .fault f) :
    endsAtTick s = some (s.tick + Config.faultTicks s.draws) := by
  unfold endsAtTick
  rw [h]

/-- A run to a tick, one instruction on. -/
theorem runToTick_of_next {s t : State} {limit k : Nat} (h : step s = .next t) :
    runToTick limit (k + 1) s =
      if limit < t.tick then .aborted else if t.status = .halted then .halted t else runToTick limit k t := by
  rw [runToTick, h]

/-- A run to a tick whose next instruction faults. -/
theorem runToTick_of_fault {s : State} {f : Fault} {limit k : Nat} (h : step s = .fault f) :
    runToTick limit (k + 1) s = if limit < s.tick + Config.faultTicks s.draws then .aborted else .faulted f := by
  rw [runToTick, h]

end Sys2Proof.Machine
end

