-- ==== Sys2Proof/Tests/Slice0.lean ====
section
/-! SUPPORT. Tests. Every expected value is from spec/: the encodings of 30_encoding.md R101 to R105 written out, and the
vectors of 95_test_vectors.md. Then, for each statement with hypotheses, a witness that meets them. -/

namespace Sys2Proof.Tests

open Sys2Proof.Machine

/-! ### Small states -/

/-- A stack with these cells, bottom to top, pushed on the empty one of reset. -/
def stackOf (cells : List Cell) : Stack := cells.foldl Stack.push Stack.reset

/-- A stack with this many live elements, every cell 0 but the top. -/
def deepStack (depth : Nat) (top : Cell) : Stack := { sp := BitVec.ofNat Config.spBits depth, tos := top, data := [] }

/-- Reset with these cells on DS. -/
def onDs (cells : List Cell) : State := State.reset.withDs (stackOf cells)

/-- Reset with these cells on RS. -/
def onRs (cells : List Cell) : State := State.reset.withRs (stackOf cells)

/-- The live elements, bottom to top. -/
def live (S : Stack) : List Cell := (List.range S.depth).reverse.filterMap S.elem

/-- DS after an instruction. -/
def dsAfter (i : Instr) (s : State) : Option (List Cell) := (nextState? (exec i s)).map fun t => live t.ds

/-- RS after an instruction. -/
def rsAfter (i : Instr) (s : State) : Option (List Cell) := (nextState? (exec i s)).map fun t => live t.rs

/-- The flags after an instruction, in the order Z, N, V. -/
def flagsAfter (i : Instr) (s : State) : Option (Bool × Bool × Bool) :=
  (nextState? (exec i s)).map fun t => (t.flags.z, t.flags.n, t.flags.v)

/-- pc after an instruction. -/
def pcAfter (i : Instr) (s : State) : Option Addr := (nextState? (exec i s)).map State.pc

/-- The code of the fault of an outcome (60_exceptions.md R252). -/
def faultCode (o : Outcome) : Option Nat := (faultOf? o).map Fault.code

/-- A record. -/
def record (opcode : String) (offset : Option Int) : Record := { opcode := opcode, offset := offset, debug := none }

/-- Reset with one record at the reset address. -/
def atReset (opcode : String) (offset : Option Int) : State :=
  State.reset.withImem [(192, .instr (record opcode offset))]

/-! ### Decode: every constructor, by its word of R101 to R103 -/

theorem test_decode_direct_0_to_8 :
    decodeWord 0x80000000#32 = .instr .sum ∧ decodeWord 0x81000000#32 = .instr .sub ∧
    decodeWord 0x82000000#32 = .instr .mul ∧ decodeWord 0x83000000#32 = .instr .div ∧
    decodeWord 0x84000000#32 = .instr .mod ∧ decodeWord 0x85000000#32 = .instr .dup ∧
    decodeWord 0x86000000#32 = .instr .drop ∧ decodeWord 0x87000000#32 = .instr .swap ∧
    decodeWord 0x88000000#32 = .instr .overCell := by decide

theorem test_decode_direct_9_to_17 :
    decodeWord 0x89000000#32 = .instr .rot ∧ decodeWord 0x8A000000#32 = .instr .tor ∧
    decodeWord 0x8B000000#32 = .instr .rfrom ∧ decodeWord 0x8C000000#32 = .instr .get ∧
    decodeWord 0x8D000000#32 = .instr .set ∧ decodeWord 0x8E000000#32 = .instr .print ∧
    decodeWord 0x8F000000#32 = .instr .read ∧ decodeWord 0x90000000#32 = .instr .inc ∧
    decodeWord 0x91000000#32 = .instr .dec := by decide

theorem test_decode_direct_18_to_24 :
    decodeWord 0x92000000#32 = .instr .cmp ∧ decodeWord 0x93000000#32 = .instr .pushTrue ∧
    decodeWord 0x94000000#32 = .instr .pushFalse ∧ decodeWord 0x95000000#32 = .instr .ret ∧
    decodeWord 0x96000000#32 = .instr .hlt ∧ decodeWord 0x97000000#32 = .instr .tmod ∧
    decodeWord 0x98000000#32 = .instr .tdiv := by decide

/-- 95_test_vectors.md 2.1: `JMPR -7`, the two ends of the offset field, `JZ 1`, `JL 2`, `JO 1`. -/
theorem test_decode_relative :
    decodeWord 0xB9FFFFF9#32 = .instr (.jmpr (-7)) ∧ decodeWord 0xB97FFFFF#32 = .instr (.jmpr 8388607) ∧
    decodeWord 0xB9800000#32 = .instr (.jmpr (-8388608)) ∧ decodeWord 0xBA000001#32 = .instr (.jz 1) ∧
    decodeWord 0xBB000002#32 = .instr (.jl 2) ∧ decodeWord 0xBC000001#32 = .instr (.jo 1) := by decide

theorem test_decode_table :
    decodeWord 0xBD00001F#32 = .instr (.load 31) ∧ decodeWord 0xBE000005#32 = .instr (.call 5) ∧
    decodeWord 0xBF000000#32 = .instr (.jmpa 0) ∧ decodeWord 0x00000041#32 = .data 0x41 := by decide

/-- The illegal words of 95_test_vectors.md 2.1. -/
theorem test_decode_illegal_words :
    decodeWord 0xBD000020#32 = .invalid .operandField ∧ decodeWord 0x9D000000#32 = .invalid .operandField ∧
    decodeWord 0x99000000#32 = .invalid .operandField ∧ decodeWord 0xA0000000#32 = .invalid .operandField ∧
    decodeWord 0x80000001#32 = .invalid .operandField ∧ decodeWord 0xC0000000#32 = .invalid .reservedBitSet ∧
    decodeWord 0x00000100#32 = .invalid .dataWordTooWide := by decide

/-- 95_test_vectors.md 2.1, encode. -/
theorem test_encode :
    encodeWord (.jmpr (-1)) = some 0xB9FFFFFF#32 ∧ encodeWord (.jl 2) = some 0xBB000002#32 ∧
    encodeWord (.jo 1) = some 0xBC000001#32 ∧ encodeWord (.call 5) = some 0xBE000005#32 ∧
    encodeWord .tdiv = some 0x98000000#32 := by decide

/-- Record-level decode, 95_test_vectors.md 2.1. -/
theorem test_decode_record_failures :
    decodeRecord (record "NOP" none) = .error .unknownTag ∧
    decodeRecord (record "HLT" (some 0)) = .error .offsetOnDirect ∧
    decodeRecord (record "JZ" none) = .error .offsetMissing ∧
    decodeRecord (record "LOAD" (some 32)) = .error .indexOutOfRange ∧
    decodeRecord (record "CALL" (some (-1))) = .error .indexOutOfRange := by decide

/-- 95_test_vectors.md 2.1: the record decodes, whatever the packing has a word for. -/
theorem test_decode_record_far_jump : decodeRecord (record "JMPR" (some 100000)) = .ok (.jmpr 100000) := by decide

/-- A slot and its word, both ways (R101, R102). -/
theorem test_pack_slot :
    packSlot (.instr (record "JMPR" (some (-7)))) = some 0xB9FFFFF9#32 ∧ packSlot (.data 0x41) = some 0x41#32 ∧
    packSlot .empty = none ∧ packSlot (.instr (record "NOP" none)) = none := by decide

/-! ### Well-formedness -/

theorem test_wf_refuses_load_32 : (Instr.load 32).wf = false ∧ encodeWord (.load 32) = none := by decide
theorem test_wf_refuses_call_32 : (Instr.call 32).wf = false ∧ encodeWord (.call 32) = none := by decide
theorem test_wf_refuses_jmpa_32 : (Instr.jmpa 32).wf = false ∧ encodeWord (.jmpa 32) = none := by decide
theorem test_packable_refuses_jmpr :
    (Instr.jmpr 8388608).packable = false ∧ encodeWord (.jmpr (-8388609)) = none := by decide
theorem test_packable_refuses_jz : (Instr.jz 8388608).packable = false ∧ encodeWord (.jz (-8388609)) = none := by decide
theorem test_packable_refuses_jl : (Instr.jl 8388608).packable = false ∧ encodeWord (.jl (-8388609)) = none := by decide
theorem test_packable_refuses_jo : (Instr.jo 8388608).packable = false ∧ encodeWord (.jo (-8388609)) = none := by decide

/-! ### The host's names -/

theorem test_decodeTableWord :
    decodeTableWord 32 0xB9FFFFF9 = some (.jmpr (-7)) ∧ decodeTableWord 32 0xBD000020 = none := by decide

/-- HLT placed at the reset address runs as the first instruction: 95_test_vectors.md 2.5, HLT. -/
theorem test_withFetchWord_hlt :
    (nextState? (step (State.reset.withFetchWord 32 0x96000000))).map (fun t => (t.pc, t.status)) =
      some (193, .halted) := by decide

/-- TRUE placed at the reset address runs. -/
theorem test_withFetchWord_true :
    (nextState? (step (State.reset.withFetchWord 32 0x93000000))).map (fun t => (t.pc, t.ds.sp)) = some (193, 1) := by
  decide

/-- 95_test_vectors.md 2.6: an image of 192 table bytes and no records faults BadAddress at 192. -/
theorem test_reset_without_program : faultOf? (step State.reset) = some (.badAddress 192 none) := by decide

/-- 95_test_vectors.md 3.8: the outcomes of one-instruction programs. -/
theorem test_fault_programs :
    faultOf? (step (State.reset.withFetchWord 32 0x86000000)) = some (.stackUnderflow 192 none) ∧
    faultOf? (step (State.reset.withFetchWord 32 0x8F000000)) = some (.ioUnderflow 192 none) ∧
    faultOf? (step (State.reset.withFetchWord 32 0xB9FFFF38)) = some (.badAddress 192 none) ∧
    faultOf? (step (State.reset.withFetchWord 32 0x95000000)) = some (.stackUnderflow 192 none) ∧
    faultOf? (step (atReset "HLT" (some 0))) = some (.unknownOpcode 192 none) := by decide

/-- An image's checks (30_encoding.md R112), one ill-formed image for each: too short, too long, a record among the table
bytes, a data byte among the records, a table byte that is no cell, a RAM address out of range, one given twice. -/
theorem test_image_checks :
    Image.wf { code := List.replicate 191 (.data 0), ram := [] } = false ∧
    Image.wf { code := List.replicate 191 (.data 0) ++ [.instr (record "HLT" none)], ram := [] } = false ∧
    Image.wf { code := List.replicate 193 (.data 0), ram := [] } = false ∧
    Image.wf { code := List.replicate 192 (.data 256), ram := [] } = false ∧
    Image.wf { code := List.replicate 192 (.data 0), ram := [(65536, 0)] } = false ∧
    Image.wf { code := List.replicate 192 (.data 0), ram := [(0, 1), (0, 2)] } = false := by
  decide +kernel

theorem test_image_too_long : Image.wf { code := List.replicate 65537 (.instr (record "HLT" none)), ram := [] } = false := by
  simp only [Image.wf, List.length_replicate]
  decide +kernel

/-- A launch's check of the input (R112 e). -/
theorem test_launch_checks_input : Launch.wf { blankLaunch with input := [256] } = false := by decide +kernel

/-! ### ALU: 95_test_vectors.md 2.2 -/

theorem test_sum_overflows :
    dsAfter .sum (onDs [9, 0x7F, 0x01]) = some [9, 0x80] ∧
    flagsAfter .sum (onDs [9, 0x7F, 0x01]) = some (false, true, true) := by decide
theorem test_sum_wraps_without_overflow :
    dsAfter .sum (onDs [0xFF, 0x01]) = some [0] ∧ flagsAfter .sum (onDs [0xFF, 0x01]) = some (true, false, false) := by
  decide
theorem test_sub_order :
    dsAfter .sub (onDs [5, 3]) = some [2] ∧ flagsAfter .sub (onDs [5, 3]) = some (false, false, false) := by decide
theorem test_sub_overflows :
    dsAfter .sub (onDs [0x80, 0x01]) = some [0x7F] ∧
    flagsAfter .sub (onDs [0x80, 0x01]) = some (false, false, true) := by decide
theorem test_mul_overflows :
    dsAfter .mul (onDs [0x80, 0xFF]) = some [0x80] ∧
    flagsAfter .mul (onDs [0x80, 0xFF]) = some (false, true, true) := by decide
theorem test_mul_signed_in_range :
    dsAfter .mul (onDs [0xF0, 0x08]) = some [0x80] ∧
    flagsAfter .mul (onDs [0xF0, 0x08]) = some (false, true, false) := by decide
theorem test_div_by_zero_goes_on :
    dsAfter .div (onDs [9, 0x42, 0]) = some [9, 0] ∧
    flagsAfter .div (onDs [9, 0x42, 0]) = some (true, false, true) := by decide
theorem test_div_rounding :
    divCells .trunc 0xF9 0x02 = (0xFD, ⟨false, true, false⟩) ∧ divCells .floor 0xF9 0x02 = (0xFC, ⟨false, true, false⟩) ∧
    divCells .trunc 0x80 0xFF = (0x80, ⟨false, true, true⟩) ∧ divCells .floor 100 7 = (14, ⟨false, false, false⟩) := by
  decide
theorem test_mod_by_zero_goes_on :
    dsAfter .mod (onDs [0x42, 0]) = some [0] ∧ flagsAfter .mod (onDs [0x42, 0]) = some (true, false, true) := by decide
theorem test_mod_rounding :
    modCells .trunc 0xF9 0x02 = (0xFF, ⟨false, true, false⟩) ∧ modCells .floor 0xF9 0x02 = (0x01, ⟨false, false, false⟩) ∧
    modCells .floor 0x07 0xFE = (0xFF, ⟨false, true, false⟩) ∧ modCells .trunc 0x80 0xFF = (0, ⟨true, false, false⟩) := by
  decide
theorem test_inc_wraps :
    dsAfter .inc (onDs [9, 0xFF]) = some [9, 0] ∧ flagsAfter .inc (onDs [9, 0xFF]) = some (true, false, true) := by decide
theorem test_inc_without_wrap :
    incCell .clear 0x7F ⟨false, false, true⟩ = (0x80, ⟨false, true, false⟩) ∧
    incCell .keep 0x7F ⟨false, false, true⟩ = (0x80, ⟨false, true, true⟩) := by decide
theorem test_dec_in_place : dsAfter .dec (onDs [9, 3]) = some [9, 2] := by decide
theorem test_dec_wraps :
    decCell .clear 0x00 ⟨false, false, true⟩ = (0xFF, ⟨false, true, false⟩) ∧
    decCell .keep 0x00 ⟨false, false, true⟩ = (0xFF, ⟨false, true, true⟩) := by decide
theorem test_cmp_signed_less :
    dsAfter .cmp (onDs [0x80, 0x7F]) = some [0x80, 0x7F] ∧
    (flagsAfter .cmp (onDs [0x80, 0x7F])).map (fun f => (f.1, f.2.1)) = some (false, true) := by decide
theorem test_cmp_order_and_equal :
    (flagsAfter .cmp (onDs [0x01, 0xFF])).map (fun f => (f.1, f.2.1)) = some (false, false) ∧
    (flagsAfter .cmp (onDs [4, 4])).map (fun f => (f.1, f.2.1)) = some (true, false) := by decide
theorem test_tdiv_quotients :
    tripleQuotient false .trunc 0xFFFFF9 2 = 0x7FFFFC ∧ tripleQuotient true .trunc 0xFFFFF9 2 = 0xFFFFFD ∧
    tripleQuotient true .floor 0xFFFFF9 2 = 0xFFFFFC ∧ tripleQuotient true .trunc 0x800000 0xFFFFFF = 0x800000 := by decide
theorem test_tdiv_by_zero_is_fatal :
    faultCode (exec .tdiv (onDs [1, 2, 3, 0, 0, 0])) = some 4 ∧
    faultCode (exec .tdiv (onDs [1, 2, 0, 0, 0])) = some 1 := by decide
theorem test_tmod_remainders :
    tripleRemainder false .trunc 0xFFFFF9 2 = 1 ∧ tripleRemainder true .trunc 0xFFFFF9 2 = 0xFFFFFF ∧
    tripleRemainder true .floor 0xFFFFF9 2 = 1 := by decide
theorem test_tmod_by_zero_is_fatal : faultCode (exec .tmod (onDs [1, 2, 3, 0, 0, 0])) = some 4 := by decide
/-- The layout of a 24-bit operand and its order (R160): `( al am ah bl bm bh )`, the divisor on top. -/
theorem test_triple_layout :
    ((nextState? (finish (tripleAlu (fun A _ => A) (onDs [0xE8, 0x03, 0x01, 7, 0, 0])))).map fun t => live t.ds) =
      some [0xE8, 0x03, 0x01] ∧
    ((nextState? (finish (tripleAlu (fun A B => A / B) (onDs [0xE8, 0x03, 0x00, 7, 0, 0])))).map fun t => live t.ds) =
      some [0x8E, 0, 0] := by decide

/-! ### Stack: 95_test_vectors.md 2.3 -/

theorem test_dup : dsAfter .dup (onDs [7]) = some [7, 7] ∧ faultCode (exec .dup (onDs [])) = some 1 := by decide
theorem test_drop : dsAfter .drop (onDs [7, 9]) = some [7] ∧ faultCode (exec .drop (onDs [])) = some 1 := by decide
theorem test_drop_to_empty : (nextState? (exec .drop (onDs [7]))).map (fun t => (t.ds.sp, t.ds.tos)) = some (0, 0) := by
  decide
theorem test_swap : dsAfter .swap (onDs [9, 1, 2]) = some [9, 2, 1] ∧ faultCode (exec .swap (onDs [1])) = some 1 := by
  decide
theorem test_over : dsAfter .overCell (onDs [1, 2]) = some [1, 2, 1] ∧ faultCode (exec .overCell (onDs [1])) = some 1 := by
  decide
theorem test_rot : dsAfter .rot (onDs [1, 2, 3]) = some [2, 3, 1] ∧ faultCode (exec .rot (onDs [1, 2])) = some 1 := by
  decide
theorem test_tor :
    dsAfter .tor ((onRs [0x00, 0xC3]).withDs (stackOf [4, 5])) = some [4] ∧
    rsAfter .tor ((onRs [0x00, 0xC3]).withDs (stackOf [4, 5])) = some [0x00, 0xC3, 5] := by decide
theorem test_rfrom :
    dsAfter .rfrom ((onRs [5]).withDs (stackOf [4])) = some [4, 5] ∧
    rsAfter .rfrom ((onRs [5]).withDs (stackOf [4])) = some [] ∧ faultCode (exec .rfrom (onDs [4])) = some 1 := by decide
theorem test_true : exec .pushTrue (onDs [4]) = .next (pushDs Config.trueCell (onDs [4])) := rfl
theorem test_false : exec .pushFalse (onDs []) = .next (pushDs Config.falseCell (onDs [])) := rfl
/-- 20_memory.md R57: the 65536th push wraps sp to 0, where a pop underflows. -/
theorem test_stack_wraps :
    ((deepStack 65535 7).push 1).sp = 0 ∧ ((deepStack 65535 7).push 1).pop = none ∧ (stackOf []).pop = none := by decide

/-! ### Memory and I/O: 95_test_vectors.md 2.4 -/

theorem test_load :
    (nextState? (exec (.load 0) ((State.reset.withImem [(1, .data 0x10)]).withRam [(0x10, 5)]))).map
      (fun t => (live t.ds, t.ad)) = some ([5], 0x0010) := by decide
theorem test_load_31 :
    (nextState? (exec (.load 31) ((State.reset.withImem [(62, .data 0xFF), (63, .data 0xFF)]).withRam [(0xFFFF, 0x99)]))).map
      (fun t => (live t.ds, t.ad)) = some ([0x99], 0xFFFF) := by decide
theorem test_get :
    (nextState? (exec .get ((onDs [9, 0xAB, 0xCD]).withRam [(0xABCD, 0x5A)]))).map (fun t => (live t.ds, t.ad)) =
      some ([9, 0x5A], 0xABCD) := by decide
theorem test_get_underflow : faultCode (exec .get (onDs [0x01])) = some 1 := by decide
theorem test_set :
    (nextState? (exec .set (onDs [0x33, 0x12, 0x34]))).map (fun t => (live t.ds, t.ad, t.ram)) =
      some ([], 0x1234, [(0x1234, 0x33)]) := by decide
theorem test_set_underflow : faultCode (exec .set (onDs [0x01, 0x00])) = some 1 := by decide
theorem test_print :
    (nextState? (exec .print ((onDs [0xFF]).withOut [1]))).map (fun t => (live t.ds, t.outBuf)) = some ([], [1, 0xFF]) := by
  decide
theorem test_read :
    (nextState? (exec .read (State.reset.withIn [105, 72]))).map (fun t => (live t.ds, t.inBuf)) = some ([72], [105]) := by
  decide
theorem test_read_empty : faultCode (exec .read State.reset) = some 5 := by decide

/-! ### Control transfer: 95_test_vectors.md 2.5; the meaning starts with pc one past the instruction -/

theorem test_jmpr :
    pcAfter (.jmpr (-7)) (State.reset.withPc 200) = some 193 ∧
    pcAfter (.jmpr 65342) (State.reset.withPc 193) = some 65535 := by decide
theorem test_jmpr_out_of_range :
    faultCode (exec (.jmpr (-200)) (State.reset.withPc 193)) = some 2 ∧
    faultCode (exec (.jmpr 65343) (State.reset.withPc 193)) = some 2 := by decide
theorem test_jz :
    pcAfter (.jz 1) ((State.reset.withPc 199).withFlags ⟨true, false, false⟩) = some 200 ∧
    pcAfter (.jz 1) ((State.reset.withPc 199).withFlags ⟨false, true, true⟩) = some 199 := by decide
theorem test_jz_not_taken_is_not_checked :
    pcAfter (.jz (-5000)) (State.reset.withPc 199) = some 199 ∧
    faultCode (exec (.jz (-5000)) ((State.reset.withPc 199).withFlags ⟨true, false, false⟩)) = some 2 := by decide
theorem test_jl :
    pcAfter (.jl 2) ((State.reset.withPc 205).withFlags ⟨false, true, false⟩) = some 207 ∧
    pcAfter (.jl 2) ((State.reset.withPc 205).withFlags ⟨true, false, true⟩) = some 205 := by decide
theorem test_jo :
    pcAfter (.jo 3) ((State.reset.withPc 301).withFlags ⟨false, false, true⟩) = some 304 ∧
    pcAfter (.jo 3) ((State.reset.withPc 301).withFlags ⟨true, true, false⟩) = some 301 := by decide
theorem test_jmpa :
    pcAfter (.jmpa 2) (State.reset.withImem [(133, .data 0xC8)]) = some 200 := by decide
theorem test_call :
    pcAfter (.call 0) ((State.reset.withPc 0x0200).withImem [(64, .data 0x03)]) = some 0x0300 ∧
    rsAfter (.call 0) ((State.reset.withPc 0x0200).withImem [(64, .data 0x03)]) = some [0x02, 0x00] := by decide
theorem test_ret :
    pcAfter .ret (onRs [0x12, 0x00, 0xC3]) = some 195 ∧ rsAfter .ret (onRs [0x12, 0x00, 0xC3]) = some [0x12] := by decide
theorem test_ret_underflow : faultCode (exec .ret (onRs [0xC3])) = some 1 := by decide
theorem test_hlt : (nextState? (exec .hlt State.reset)).map State.status = some .halted := by decide

/-! ### Witnesses: for each statement with hypotheses, data that meets them, clause by clause, at the ends of a range -/

theorem witness_DecodeOfEncodedWordIsTheInstruction :
    (Instr.jmpr (-8388608)).wf = true ∧ (Instr.jmpr (-8388608)).packable = true ∧ (Instr.jo 8388607).packable = true ∧
    (Instr.load 31).wf = true ∧ (Instr.jmpa 0).wf = true ∧ (Instr.load 31).packable = true := by decide

theorem witness_EncodeOfDecodedWordIsTheWord : decodeWord 0xB9800000#32 = .instr (.jmpr (-8388608)) := by decide

theorem witness_IllegalWordsAreExactlyThoseListed :
    (∃ reason, decodeWord 0xBD000020#32 = .invalid reason) ∧ ¬ ∃ reason, decodeWord 0xBD00001F#32 = .invalid reason := by
  constructor
  · exact ⟨.operandField, by decide⟩
  · rintro ⟨reason, h⟩
    rw [show decodeWord 0xBD00001F#32 = .instr (.load 31) by decide] at h
    cases h

theorem witness_RecordDecodeAcceptsExactlyTheLegalRecords :
    decodeRecord (record "LOAD" (some 31)) = .ok (.load 31) ∧ decodeRecord (record "LOAD" (some 32)) ≠ .ok (.load 32) := by
  decide

/-- Its refusal clause: an index too great, an offset past each end of the field. -/
theorem witness_DecodeOfEncodedWordIsTheInstruction_refused :
    (Instr.call 32).wf = false ∧ (Instr.jz 8388608).packable = false ∧ (Instr.jo (-8388609)).packable = false := by decide

/-- A data byte at its two ends (R102), an instruction word, an illegal word. -/
theorem witness_WordFormAndRecordFormAgree :
    decodeWord 0x00000000#32 = .data 0 ∧ decodeWord 0x000000FF#32 = .data 0xFF ∧
    decodeWord 0x96000000#32 = .instr .hlt ∧ decodeWord 0x00000100#32 = .invalid .dataWordTooWide := by decide

theorem witness_PushAdvancesAndCopiesTheTopDown : (deepStack 65535 1).depth = 65535 := by decide

theorem witness_PopReturnsTheTopAndFailsAtTheSentinel :
    (onDs []).ds.sp = Config.stackEmptySp ∧ (onDs [1]).ds.sp ≠ Config.stackEmptySp ∧
    (State.reset.withDs (deepStack 65535 1)).ds.sp ≠ Config.stackEmptySp ∧
    (onRs []).rs.sp = Config.stackEmptySp ∧ (onRs [1]).rs.sp ≠ Config.stackEmptySp := by decide

theorem witness_PushShiftsTheElementsAndPopUndoesIt :
    (stackOf []).depth < 65535 ∧ (deepStack 65534 1).depth < 65535 ∧ (deepStack 65535 1).depth = 65535 := by decide

/-- For SumRule, SubRule, MulRule, CmpRule, SwapRule, OverRule and GetRule: one element, two, and 65535. -/
theorem witness_two_operands :
    (onDs []).ds.depth < 2 ∧ (onDs [1]).ds.depth < 2 ∧
    ((onDs [1, 2]).ds.elem 1 = some 1 ∧ (onDs [1, 2]).ds.elem 0 = some 2) ∧
    ((State.reset.withDs (deepStack 65535 2)).ds.elem 1 = some 0 ∧
      (State.reset.withDs (deepStack 65535 2)).ds.elem 0 = some 2) := by decide

theorem witness_DivRule_and_ModRule :
    (onDs [1]).ds.depth < 2 ∧ ((onDs [0x80, 0]).ds.elem 1 = some 0x80 ∧ (onDs [0x80, 0]).ds.elem 0 = some 0) ∧
    ((onDs [0x80, 0xFF]).ds.elem 1 = some 0x80 ∧ (onDs [0x80, 0xFF]).ds.elem 0 = some 0xFF ∧ (0xFF : Cell) ≠ 0) := by
  decide

theorem witness_IncRule_and_DecRule :
    (onDs []).ds.depth = 0 ∧ (onDs [255]).ds.elem 0 = some 255 ∧ (onDs [0]).ds.elem 0 = some 0 := by decide

/-- For TdivRule and TmodRule: five elements, six with a zero divisor, six with a divisor of one byte. -/
theorem witness_TdivRule_and_TmodRule :
    (onDs [1, 2, 3, 4, 5]).ds.depth < 6 ∧
    ((onDs [1, 2, 3, 0, 0, 0]).ds.elem 5 = some 1 ∧ (onDs [1, 2, 3, 0, 0, 0]).ds.elem 4 = some 2 ∧
      (onDs [1, 2, 3, 0, 0, 0]).ds.elem 3 = some 3 ∧ (onDs [1, 2, 3, 0, 0, 0]).ds.elem 2 = some 0 ∧
      (onDs [1, 2, 3, 0, 0, 0]).ds.elem 1 = some 0 ∧ (onDs [1, 2, 3, 0, 0, 0]).ds.elem 0 = some 0 ∧
      ((0 : Cell) ++ (0 : Cell) ++ (0 : Cell) = (0 : Triple))) ∧
    ((onDs [1, 2, 3, 1, 0, 0]).ds.elem 5 = some 1 ∧ (onDs [1, 2, 3, 1, 0, 0]).ds.elem 4 = some 2 ∧
      (onDs [1, 2, 3, 1, 0, 0]).ds.elem 3 = some 3 ∧ (onDs [1, 2, 3, 1, 0, 0]).ds.elem 2 = some 1 ∧
      (onDs [1, 2, 3, 1, 0, 0]).ds.elem 1 = some 0 ∧ (onDs [1, 2, 3, 1, 0, 0]).ds.elem 0 = some 0 ∧
      ((0 : Cell) ++ (0 : Cell) ++ (1 : Cell) ≠ (0 : Triple))) := by decide

/-- For DupRule, DropRule, TorRule and PrintRule: none, one, and 65535 elements. -/
theorem witness_one_operand :
    (onDs []).ds.depth = 0 ∧ (onDs [7]).ds.elem 0 = some 7 ∧
    (State.reset.withDs (deepStack 65535 7)).ds.elem 0 = some 7 := by decide

/-- For RotRule and SetRule: two elements, three, and 65535. -/
theorem witness_three_operands :
    (onDs [1, 2]).ds.depth < 3 ∧
    ((onDs [1, 2, 3]).ds.elem 2 = some 1 ∧ (onDs [1, 2, 3]).ds.elem 1 = some 2 ∧ (onDs [1, 2, 3]).ds.elem 0 = some 3) ∧
    (State.reset.withDs (deepStack 65535 3)).ds.elem 2 = some 0 := by decide

theorem witness_RfromRule : (onRs []).rs.depth = 0 ∧ (onRs [7]).rs.elem 0 = some 7 := by decide

theorem witness_RetRule :
    (onRs []).rs.depth < 2 ∧ (onRs [1]).rs.depth < 2 ∧ (onRs [1, 2]).rs.elem 1 = some 1 ∧
    (onRs [1, 2]).rs.elem 0 = some 2 := by decide

/-- No offset in 0..31, and none at all: what the index check of LoadRule, JmpaRule and CallRule refuses. -/
theorem witness_index_check :
    ∀ tag ∈ ["LOAD", "JMPA", "CALL"], ∀ o ∈ [none, some (-1), some 32],
      (atReset tag o).status = .running ∧ (atReset tag o).imem.read (atReset tag o).pc = .instr (record tag o) ∧
      (record tag o).opcode = tag ∧ ∀ k : Nat, k < 32 → (record tag o).offset ≠ some (k : Int) := by decide

/-- A read and a missing byte, high or low, for the first and the last slot of the table at `base`. -/
theorem witness_table_slots :
    ∀ base ∈ [0, 64, 128],
      (∀ i ∈ [0, 31], TableSlot State.reset base i 0 0) ∧
      (State.reset.withImem [(base, .empty)]).imem.read (BitVec.ofNat 16 (base + 2 * 0)) = .empty ∧
      (State.reset.withImem [(base + 63, .empty)]).imem.read (BitVec.ofNat 16 (base + 2 * 31 + 1)) = .empty := by
  unfold TableSlot
  decide

/-- The fault clauses of LoadRule, CallRule and JmpaRule: no bytes `h`, `l` are in a slot with an empty half. -/
theorem witness_no_table_slot :
    (∀ h l, ¬ TableSlot (State.reset.withImem [(0, .empty)]) 0 0 h l) ∧
    (∀ h l, ¬ TableSlot (State.reset.withImem [(127, .empty)]) 64 31 h l) ∧
    (∀ h l, ¬ TableSlot (State.reset.withImem [(191, .empty)]) 128 31 h l) :=
  ⟨fun _ _ h => Slot.noConfusion h.1, fun _ _ h => Slot.noConfusion h.2, fun _ _ h => Slot.noConfusion h.2⟩

theorem witness_ReadRule : State.reset.inBuf = [] ∧ (State.reset.withIn [5, 6]).inBuf = [5] ++ [6] ∧
    (State.reset.withIn [6]).inBuf = [] ++ [6] := by decide

/-- The range of a target, at its two ends and one beyond each: pc 193 and the offsets of 95_test_vectors.md 2.5. -/
theorem witness_jump_targets :
    (0 ≤ ((193 : Addr).toNat : Int) + 65342 ∧ ((193 : Addr).toNat : Int) + 65342 ≤ 65535) ∧
    (0 ≤ ((193 : Addr).toNat : Int) + -193) ∧ 65535 < ((193 : Addr).toNat : Int) + 65343 ∧
    ((193 : Addr).toNat : Int) + -194 < 0 := by decide

/-- The missing offset that JmprRule and ConditionalJumpRules refuse. -/
theorem witness_offset_check :
    ∀ tag ∈ ["JMPR", "JZ", "JL", "JO"],
      (atReset tag none).status = .running ∧ (atReset tag none).imem.read (atReset tag none).pc = .instr (record tag none) ∧
      (record tag none).opcode = tag ∧ (record tag none).offset = none := by decide

theorem witness_ConditionalJumpRules :
    Flags.z ⟨true, false, false⟩ = true ∧ Flags.z ⟨false, true, true⟩ = false ∧
    Flags.n ⟨false, true, false⟩ = true ∧ Flags.n ⟨true, false, true⟩ = false ∧
    Flags.v ⟨false, false, true⟩ = true ∧ Flags.v ⟨true, true, false⟩ = false := by decide

theorem witness_DivisionRoundsAsItsParameterSays :
    (-1 : Int) ≠ 0 ∧ divq .trunc (-7) 2 = -3 ∧ divr .trunc (-7) 2 = -1 ∧ divq .floor (-7) 2 = -4 ∧ divr .floor (-7) 2 = 1 := by
  decide

/-- RS empty, and RS one short of too full: the CALL answers, whatever the byte values. -/
theorem witness_CallThenRetComesBack :
    (State.reset.rs.depth < 65534 ∧ ∃ t, exec (.call 0) State.reset = .next t) ∧
    ((State.reset.withRs (deepStack 65533 1)).rs.depth < 65534 ∧
      ∃ t, exec (.call 31) (State.reset.withRs (deepStack 65533 1)) = .next t) :=
  ⟨⟨by decide, _, rfl⟩, ⟨by decide, _, rfl⟩⟩

theorem witness_OnlyAluInstructionsWriteFlags :
    writesFlags .dup = false ∧ ∃ t, exec .dup (onDs [7]) = .next t := ⟨rfl, _, rfl⟩

/-- SET, which stores; LOAD, which moves `ad`; DUP, which does neither. -/
theorem witness_MemoriesChangeOnlyAsTheirRulesSay :
    (∃ t, exec .set (onDs [7, 1, 0]) = .next t ∧ (0 : Addr) ≠ t.ad) ∧
    (∃ t, exec (.load 0) (State.reset.withImem [(1, .data 0x10)]) = .next t ∧ t.ad ≠ State.reset.ad) ∧
    (∃ t, exec .dup (onDs [7]) = .next t) :=
  ⟨⟨_, rfl, by decide⟩, ⟨_, rfl, by decide⟩, ⟨_, rfl⟩⟩

theorem witness_BuffersChangeOnlyAtTheirEnds :
    (∃ t, exec .print (onDs [72]) = .next t) ∧ (∃ t, exec .read (State.reset.withIn [105, 72]) = .next t) ∧
    (∃ t, exec .hlt State.reset = .next t) ∧ (∃ f, exec .print (onDs []) = .fault f) :=
  ⟨⟨_, rfl⟩, ⟨_, rfl⟩, ⟨_, rfl⟩, ⟨_, rfl⟩⟩

theorem witness_NoInstructionReadsTheTickCounter :
    (∃ t, exec .dup (onDs [7]) = .next t) ∧ ∃ f, exec .dup (onDs []) = .fault f := ⟨⟨_, rfl⟩, ⟨_, rfl⟩⟩

theorem witness_EachStackIsTouchedOnlyByItsInstructions :
    (∃ t, exec .cmp (onDs [1, 2]) = .next t) ∧ (∃ t, exec .ret (onRs [1, 2]) = .next t) ∧
    (∃ t, exec (.jmpa 0) State.reset = .next t) ∧ ∃ t, exec (.jmpr 0) State.reset = .next t :=
  ⟨⟨_, rfl⟩, ⟨_, rfl⟩, ⟨_, rfl⟩, ⟨_, rfl⟩⟩

/-- For TicksAdvanceWithEveryInstruction: a step of DUP, and of LOAD 0. -/
theorem witness_TicksAdvanceWithEveryInstruction :
    (∃ t, step ((atReset "DUP" none).withDs (stackOf [7])) = .next t) ∧ (∃ t, step (atReset "LOAD" (some 0)) = .next t) ∧
    (atReset "LOAD" (some 0)).imem.read (atReset "LOAD" (some 0)).pc = .instr (record "LOAD" (some 0)) ∧
    decodeRecord (record "LOAD" (some 0)) = .ok (.load 0) :=
  ⟨⟨_, rfl⟩, ⟨_, rfl⟩, by decide, by decide⟩

theorem witness_StepRunsTheDecodedInstruction :
    (atReset "TRUE" none).status = .running ∧
    (atReset "TRUE" none).imem.read (atReset "TRUE" none).pc = .instr (record "TRUE" none) ∧
    decodeRecord (record "TRUE" none) = .ok .pushTrue ∧
    ∃ t, exec .pushTrue ((((atReset "TRUE" none).withFaultPc 192).withDebug none).withPc 193) = .next t :=
  ⟨by decide, by decide, by decide, _, rfl⟩

theorem witness_FetchAndDecodeFaults :
    State.reset.status = .running ∧ State.reset.imem.read State.reset.pc = .empty ∧
    (State.reset.withPc 191).imem.read (State.reset.withPc 191).pc = .data 0 ∧
    (atReset "NOP" none).imem.read (atReset "NOP" none).pc = .instr (record "NOP" none) ∧
    decodeRecord (record "NOP" none) = .error .unknownTag := by decide

theorem witness_FaultNamesTheInstruction :
    (∃ f, step State.reset = .fault f) ∧ (∃ f, step (atReset "DUP" none) = .fault f) ∧
    (State.reset.withStatus (.faulted (.badAddress 0 none))).status = .faulted (.badAddress 0 none) :=
  ⟨⟨_, rfl⟩, ⟨_, rfl⟩, rfl⟩

theorem witness_FaultKindsBelongToTheirInstructions :
    exec .dup (onDs []) = .fault (.stackUnderflow 0 none) ∧
    exec (.jmpr (-200)) State.reset = .fault (.badAddress 0 none) ∧
    exec .tdiv (onDs [1, 2, 3, 0, 0, 0]) = .fault (.divideByZeroFatal 0 none) ∧
    exec .read State.reset = .fault (.ioUnderflow 0 none) :=
  ⟨rfl, rfl, rfl, rfl⟩

theorem witness_RunEndsOnlyByHltOrAFault :
    (∃ t, step (atReset "HLT" none) = .next t) ∧ (∃ t, step (atReset "TRUE" none) = .next t) ∧
    (∃ r, step (State.reset.withStatus .halted) = .refused r) ∧ (State.reset.withStatus .halted).status ≠ .running :=
  ⟨⟨_, rfl⟩, ⟨_, rfl⟩, ⟨_, rfl⟩, nofun⟩

/-- The ends of a run, at the budgets where they meet: HLT in the last instruction of the budget, a fault in it (TRUE, then the
empty slot 193), and the budget spent before either. -/
theorem witness_RunEndsOnlyByHltOrAFault_ends :
    (atReset "HLT" none).status = .running ∧ (∃ t, HaltsWithin 1 (atReset "HLT" none) t ∧ t.status = .halted) ∧
    runWithin 0 (atReset "HLT" none) = .aborted ∧
    runWithin 2 (atReset "TRUE" none) = .faulted (.badAddress 193 none) ∧
    runWithin 1 (atReset "TRUE" none) = .aborted ∧ (∃ t, RunsFor 1 (atReset "TRUE" none) t) ∧
    RunsFor 0 (atReset "HLT" none) (atReset "HLT" none) :=
  ⟨rfl, ⟨_, rfl, rfl⟩, rfl, rfl, rfl, ⟨_, _, rfl, rfl, rfl⟩, rfl⟩

/-- The ends of a run within a budget of ticks, where they meet: HLT with the budget its ticks just fill and one tick short of
it, a fault with the budget its ticks just fill, and no budget at all. -/
theorem witness_RunEndsOnlyByHltOrAFault_ticks :
    (∃ t, HaltsWithinTicks (1 + Config.freeTicks 0) (atReset "HLT" none) t ∧ t.status = .halted) ∧
    runWithinTicks (Config.freeTicks 0) (atReset "HLT" none) = .aborted ∧
    runWithinTicks (Config.faultTicks 0) State.reset = .faulted (.badAddress 192 none) ∧
    runWithinTicks 0 (atReset "TRUE" none) = .aborted := by
  have ticks (limit : Nat) : limit < 0 + 1 + Config.freeTicks 0 ↔ limit ≤ Config.freeTicks 0 := by omega
  refine ⟨⟨_, (runToTick_of_next rfl).trans ((if_neg ?_).trans (if_pos rfl)), rfl⟩, (runToTick_of_next rfl).trans (if_pos ?_),
    (runToTick_of_fault rfl).trans (if_neg ?_), (runToTick_of_next rfl).trans (if_pos ?_)⟩
  · show ¬ 0 + (1 + Config.freeTicks 0) < 0 + 1 + Config.freeTicks 0
    omega
  · exact (ticks _).mpr (by show 0 + Config.freeTicks 0 ≤ _; omega)
  · exact Nat.lt_irrefl _
  · exact (ticks _).mpr (Nat.zero_le _)

/-- A step of each form: a relative jump, a conditional one taken and not, JMPA, CALL, RET, and another instruction. -/
theorem witness_PcChangesOnlyAsTheRulesSay :
    (∃ t, step (atReset "JMPR" (some (-193))) = .next t) ∧
    (∃ t, step ((atReset "JZ" (some 1)).withFlags ⟨true, false, false⟩) = .next t) ∧
    (∃ t, step (atReset "JZ" (some 1)) = .next t) ∧
    (∃ t, step ((atReset "JL" (some 1)).withFlags ⟨false, true, false⟩) = .next t) ∧
    (∃ t, step ((atReset "JO" (some 1)).withFlags ⟨false, false, true⟩) = .next t) ∧
    (∃ t, step (atReset "JMPA" (some 31)) = .next t) ∧ (∃ t, step (atReset "CALL" (some 0)) = .next t) ∧
    (∃ t, step ((atReset "RET" none).withRs (stackOf [1, 2])) = .next t) ∧ (∃ t, step (atReset "HLT" none) = .next t) :=
  ⟨⟨_, rfl⟩, ⟨_, rfl⟩, ⟨_, rfl⟩, ⟨_, rfl⟩, ⟨_, rfl⟩, ⟨_, rfl⟩, ⟨_, rfl⟩, ⟨_, rfl⟩, ⟨_, rfl⟩⟩

/-- The other hypotheses of PcChangesOnlyAsTheRulesSay in those states: the record at pc, and what it decodes to. -/
theorem witness_PcChangesOnlyAsTheRulesSay_decoded :
    ∀ x ∈ [("JMPR", some (-193), Instr.jmpr (-193)), ("JZ", some 1, .jz 1), ("JL", some 1, .jl 1), ("JO", some 1, .jo 1),
        ("JMPA", some 31, .jmpa 31), ("CALL", some 0, .call 0), ("RET", none, .ret), ("HLT", none, .hlt)],
      (atReset x.1 x.2.1).imem.read (atReset x.1 x.2.1).pc = .instr (record x.1 x.2.1) ∧
      decodeRecord (record x.1 x.2.1) = .ok x.2.2 := by decide

/-- One record at the reset address is an image's shape. -/
theorem atReset_inv (opcode : String) (offset : Option Int) : (atReset opcode offset).Inv := by
  refine ⟨⟨Memory.wf_nil, Memory.wf_nil, Memory.wf_nil, ?_⟩, fun a => ?_, nofun⟩
  · refine ⟨List.pairwise_singleton _ _, fun e he => ?_⟩
    rw [List.mem_singleton.mp he]
    exact ⟨show 192 < 65536 by decide, nofun⟩
  · have hread : (atReset opcode offset).imem.read a =
        if 192 = a.toNat then .instr (record opcode offset) else IMem.unlisted a.toNat := rfl
    rw [hread]
    by_cases h1 : a.toNat < Config.programBase
    · have h2 : ¬ 192 = a.toNat := fun h => absurd h1 (by rw [← h]; decide)
      rw [if_pos h1, if_neg h2]
      exact ⟨0, if_pos h1⟩
    · rw [if_neg h1, IMem.unlisted, if_neg h1]
      split <;> nofun

theorem witness_EveryStepKeepsTheInvariant :
    (atReset "TRUE" none).Inv ∧ ∃ t, step (atReset "TRUE" none) = .next t := ⟨atReset_inv _ _, _, rfl⟩

/-- A jump out of range under the invariant, and DUP on an empty stack, whose fault is another kind. -/
theorem witness_TableReadsNeverFaultInAWellFormedImage :
    ((atReset "JMPR" (some (-200))).Inv ∧ step (atReset "JMPR" (some (-200))) = .fault (.badAddress 192 none)) ∧
    ((atReset "DUP" none).Inv ∧ ∃ f, step (atReset "DUP" none) = .fault f) :=
  ⟨⟨atReset_inv _ _, rfl⟩, ⟨atReset_inv _ _, _, rfl⟩⟩

/-- A launch that is refused, and one with a record, RAM entries at the first and last address, and an input. -/
theorem witness_LaunchLoadsTheImage :
    Launch.wf { blankLaunch with input := [-1] } = false ∧
    Launch.wf { blankLaunch with
      image := { code := List.replicate 192 (.data 255) ++ [.instr (record "HLT" none)], ram := [(0, 1), (65535, 255)] }
      input := [0, 255] } = true := by decide +kernel

/-! ### The observer -/

/-- The two ticks of JMPA 0 whose slot holds 0x12, 0x34, from pc 0x00C1 (20_memory.md R68): the half-written pc, then both halves. -/
theorem test_table_ticks_of_jmpa :
    (tableTickStates (.jmpa 0) ((State.reset.withPc 0x00C1).withImem [(128, .data 0x12), (129, .data 0x34)])).map
      (fun x => (x.high.pc, x.low.pc)) = some (0x12C1, 0x1234) := by decide

/-- The two ticks of LOAD 0: `ad`, half by half, and DS not yet pushed. -/
theorem test_table_ticks_of_load :
    (tableTickStates (.load 0) (State.reset.withImem [(0, .data 0x12), (1, .data 0x34)])).map
      (fun x => (x.high.ad, x.low.ad, x.low.ds.sp)) = some (0x1200, 0x1234, 0) := by decide

/-- At every tick of DUP, or of a DUP that faults, RS and the flags are as they were (10_state.md R23, 20_memory.md R59). -/
theorem test_ticks_of_dup (draw tick : Nat) (u t : State) :
    (executing draw tick (writeSet .dup) u t).rsSp = u.rs.sp ∧ (executing draw tick (writeSet .dup) u t).flags = u.flags.bits ∧
    (executing draw tick (faultWriteSet .dup) u u).rsTos = u.rs.tos := ⟨rfl, rfl, rfl⟩

/-- At every tick of CMP the stacks and pc are as the fetch left them (41_alu.md R159). -/
theorem test_ticks_of_cmp (draw tick : Nat) (u t : State) :
    (executing draw tick (writeSet .cmp) u t).dsSp = u.ds.sp ∧ (executing draw tick (writeSet .cmp) u t).dsTos = u.ds.tos ∧
    (executing draw tick (writeSet .cmp) u t).pc = u.pc := ⟨rfl, rfl, rfl⟩

/-- A run that has ended shows nothing (R33). -/
theorem test_observe_after_the_end : observe 3 (State.reset.withStatus .halted) = [] := by decide

/-- A budget of no tick shows nothing and aborts (60_exceptions.md R265). -/
theorem test_observe_no_ticks : observeWithinTicks 0 (atReset "TRUE" none) = [] := rfl

/-- For ObserverSeesEveryTick: a step of CALL, JMPA and LOAD, with their slots, a step of HLT, and an ended run. -/
theorem witness_ObserverSeesEveryTick :
    (∃ t, step (atReset "CALL" (some 0)) = .next t) ∧ TableSlot (atReset "CALL" (some 0)) 64 0 0 0 ∧
    (∃ t, step (atReset "JMPA" (some 31)) = .next t) ∧ TableSlot (atReset "JMPA" (some 31)) 128 31 0 0 ∧
    (∃ t, step (atReset "LOAD" (some 0)) = .next t) ∧
    (∃ t, step (atReset "HLT" none) = .next t ∧ t.status = .halted) ∧
    (State.reset.withStatus .halted).status ≠ .running :=
  ⟨⟨_, rfl⟩, ⟨by decide, by decide⟩, ⟨_, rfl⟩, ⟨by decide, by decide⟩, ⟨_, rfl⟩, ⟨_, rfl, rfl⟩, nofun⟩

/-- A step that shows something: DUP, with its record, and a state that fetches no record. -/
theorem witness_ObserverSeesEveryTick_fixed :
    (∃ t, step ((atReset "DUP" none).withDs (stackOf [7])) = .next t ∧
      snapshot t ∈ observeStep ((atReset "DUP" none).withDs (stackOf [7]))) ∧
    (∀ r, State.reset.imem.read State.reset.pc ≠ .instr r) := by
  refine ⟨⟨_, rfl, ?_⟩, nofun⟩
  exact List.mem_of_getLast? (tickSnapshots_getLast .dup ((atReset "DUP" none).withDs (stackOf [7])) _ _)

/-- The rest of its hypotheses: the records at pc, and what they decode to. -/
theorem witness_ObserverSeesEveryTick_decoded :
    ∀ x ∈ [("CALL", some 0, Instr.call 0), ("JMPA", some 31, .jmpa 31), ("LOAD", some 0, .load 0), ("DUP", none, .dup)],
      (atReset x.1 x.2.1).imem.read (atReset x.1 x.2.1).pc = .instr (record x.1 x.2.1) ∧
      decodeRecord (record x.1 x.2.1) = .ok x.2.2 := by decide

end Sys2Proof.Tests
end

section
/-! PROOFS, the stacks and RAM (20_memory.md): what a push, a pop, a latch, a load and a store do, and what each leaves. -/

namespace Sys2Proof.Machine

/-! ### Stacks -/

theorem Stack.pushed_push (S : Stack) (v : Cell) : Pushed S (S.push v) v :=
  ⟨Stack.push_sp S v, Stack.push_tos S v, Stack.push_read S v⟩

/-- A push on a full stack wraps sp to the sentinel (R52). -/
theorem Stack.push_sp_of_full {S : Stack} (h : S.depth = 65535) (v : Cell) : (S.push v).sp = Config.stackEmptySp := by
  rw [Stack.depth_eq] at h
  have hsp : S.sp = 65535#16 := BitVec.eq_of_toNat_eq h
  rw [Stack.push_sp, hsp]
  rfl

/-- A pop that answers is one as R53 words it. -/
theorem Stack.popped_of_pop_eq_some {S T : Stack} {c : Cell} (h : S.pop = some (c, T)) : Popped S T c := by
  obtain ⟨hne, rfl, rfl⟩ := Stack.pop_eq_some.mp h
  exact ⟨hne, rfl, rfl, rfl, fun _ => rfl⟩

theorem popDs_popped {s : State} (h : s.ds.sp ≠ Config.stackEmptySp) :
    ∃ c T, popDs s = .ok (c, s.withDs T) ∧ Popped s.ds T c :=
  ⟨_, _, popDs_of_ne h, Stack.popped_of_pop_eq_some (Stack.pop_eq_some.mpr ⟨h, rfl, rfl⟩)⟩

theorem popRs_popped {s : State} (h : s.rs.sp ≠ Config.stackEmptySp) :
    ∃ c T, popRs s = .ok (c, s.withRs T) ∧ Popped s.rs T c :=
  ⟨_, _, popRs_of_ne h, Stack.popped_of_pop_eq_some (Stack.pop_eq_some.mpr ⟨h, rfl, rfl⟩)⟩

/-- Settles O7: the push meets `Pushed` field by field, and at depth 65535 sp is the last pointer, which wraps. -/
theorem pushAdvancesAndCopiesTheTopDown : Obligations.PushAdvancesAndCopiesTheTopDown :=
  fun S v => ⟨S.pushed_push v, fun h => Stack.push_sp_of_full h v⟩

/-- Settles O8: on each stack a pop either meets the sentinel and faults, or answers as `Popped` says. -/
theorem popReturnsTheTopAndFailsAtTheSentinel : Obligations.PopReturnsTheTopAndFailsAtTheSentinel :=
  fun _ => ⟨popDs_of_eq, popDs_popped, popRs_of_eq, popRs_popped⟩

/-! ### RAM and its address register -/

@[simp] theorem latchHigh_ad (b : Cell) (s : State) : (latchHigh b s).ad = b ++ lowHalf s.ad := rfl
@[simp] theorem latchLow_ad (b : Cell) (s : State) : (latchLow b s).ad = highHalf s.ad ++ b := rfl

/-- `latch_high` sets the high half of `ad` and keeps the low one. -/
theorem latchHigh_halves (b : Cell) (s : State) :
    highHalf (latchHigh b s).ad = b ∧ lowHalf (latchHigh b s).ad = lowHalf s.ad := by
  rw [latchHigh_ad]
  exact ⟨high_of_append b _, low_of_append b _⟩

/-- `latch_low` sets the low half of `ad` and keeps the high one. -/
theorem latchLow_halves (b : Cell) (s : State) :
    lowHalf (latchLow b s).ad = b ∧ highHalf (latchLow b s).ad = highHalf s.ad := by
  rw [latchLow_ad]
  exact ⟨low_of_append _ b, high_of_append _ b⟩

/-- A load after a store: the stored cell at `ad`, every other cell as it was. -/
theorem memWrite_read (v : Cell) (s : State) (a : Addr) :
    (memWrite v s).ram.read a = if a = s.ad then v else s.ram.read a :=
  Memory.read_write s.ram s.ad v a

/-- Settles O10: each latch by the two halves of the address it writes, the store by the read-after-write law of RAM;
the frames and the load are the definitions. -/
theorem latchesLoadAndStoreAct : Obligations.LatchesLoadAndStoreAct :=
  fun s b v => ⟨⟨rfl, latchHigh_halves b s⟩, ⟨rfl, latchLow_halves b s⟩, rfl, rfl, memWrite_read v s⟩

end Sys2Proof.Machine
end

section
/-! PROOFS, the two-operand ALU instructions (41_alu.md section 2): SUM, SUB, MUL. One rule says what `binaryAlu` does to the
state; each instruction adds its word and its result. -/

namespace Sys2Proof.Machine

/-! ### The operands -/

/-- Below two live elements one of the two pops meets the sentinel. -/
theorem popOperands_of_depth_lt_two {s : State} (h : s.ds.depth < 2) :
    popOperands s = .error (.stackUnderflow s.faultPc s.debug) := by
  by_cases h0 : s.ds.sp = Config.stackEmptySp
  · exact bind_eq_error.mpr (.inl (popDs_of_eq h0))
  · have hpos : s.ds.depth ≠ 0 := mt s.ds.depth_eq_zero.mp h0
    rw [Stack.depth_eq] at h hpos
    have hsp : s.ds.sp = 1#16 := BitVec.eq_of_toNat_eq (by change s.ds.sp.toNat = 1; omega)
    have h1 : s.ds.sp - 1 = Config.stackEmptySp := by rw [hsp]; rfl
    exact bind_eq_error.mpr (.inr ⟨_, popDs_of_ne h0, bind_eq_error.mpr (.inl (popDs_of_eq h1))⟩)

/-- On `( a b )` the two pops answer `b`, then `a`, each as R53 words it. -/
theorem popOperands_popped {s : State} {a b : Cell} (ha : s.ds.elem 1 = some a) (hb : s.ds.elem 0 = some b) :
    ∃ T U, popOperands s = .ok (a, b, s.withDs U) ∧ Popped s.ds T b ∧ Popped T U a := by
  obtain ⟨hdepth, hread⟩ := Stack.elem_succ.mp ha
  obtain ⟨hpos, htos⟩ := Stack.elem_zero.mp hb
  obtain ⟨c, T, hpop, hc⟩ := popDs_popped (mt s.ds.depth_eq_zero.mpr hpos.ne')
  have ⟨_, hctos, hTtos, hTsp, _⟩ := hc
  obtain rfl : c = b := hctos.trans htos
  have hT : (s.withDs T).ds.sp ≠ Config.stackEmptySp := hTsp ▸ Stack.sp_sub_ne hdepth
  obtain ⟨d, U, hpop', hd⟩ := popDs_popped hT
  have ⟨_, hdtos, _⟩ := hd
  have hsp : s.ds.sp - BitVec.ofNat 16 0 = s.ds.sp := BitVec.sub_zero _
  obtain rfl : d = a := by rw [hdtos, State.withDs_ds, hTtos, ← hread, hsp]
  exact ⟨T, U, popOperands_eq_ok.mpr ⟨_, hpop, hpop'⟩, hc, hd⟩

/-- After two pops a push writes back to its place the element it copies down, so the array reads as it did. -/
theorem topReplaced_of_popped_popped {S T U : Stack} {a b : Cell} (hT : Popped S T b) (hU : Popped T U a) (r : Cell) :
    TopReplaced 2 S (U.push r) r := by
  obtain ⟨_, _, _, hTsp, hTread⟩ := hT
  obtain ⟨_, _, hUtos, hUsp, hUread⟩ := hU
  have hsp : (U.push r).sp = S.sp - 1 := by rw [Stack.push_sp, hUsp, BitVec.sub_add_cancel, hTsp]
  refine ⟨hsp, U.push_tos r, fun p => ?_⟩
  rw [Stack.push_read, hUsp, BitVec.sub_add_cancel]
  split
  · next hp => rw [hUtos, hTread, hp]
  · rw [hUread, hTread]

/-! ### The shape of a two-operand instruction -/

theorem binaryAlu_of_popOperands_ok {s t : State} {a b : Cell} (h : popOperands s = .ok (a, b, t))
    (f : Cell → Cell → Cell × Flags) : binaryAlu f s = .ok ((pushDs (f a b).1 t).withFlags (f a b).2) :=
  bind_eq_ok.mpr ⟨_, h, rfl⟩

theorem binaryAlu_of_popOperands_error {s : State} {e : Fault} (h : popOperands s = .error e)
    (f : Cell → Cell → Cell × Flags) : binaryAlu f s = .error e :=
  bind_eq_error.mpr (.inl h)

/-- An instruction whose meaning is `binaryAlu f` meets the rule of two-operand instructions, for whatever `f` answers. -/
theorem binaryRule_of_binaryAlu {word : SlotWord} {i : Instr} {f : Cell → Cell → Cell × Flags}
    {post : Cell → Cell → Cell → Flags → Prop} (hword : decodeWord word = .instr i)
    (hexec : ∀ s, exec i s = finish (binaryAlu f s)) (hpost : ∀ a b, post a b (f a b).1 (f a b).2) :
    BinaryRule word i post := by
  refine ⟨hword, fun s => ⟨fun hdepth => ?_, fun a b ha hb => ?_⟩⟩
  · rw [hexec, binaryAlu_of_popOperands_error (popOperands_of_depth_lt_two hdepth), finish_error]
  · obtain ⟨T, U, hpop, hT, hU⟩ := popOperands_popped ha hb
    exact ⟨_, by rw [hexec, binaryAlu_of_popOperands_ok hpop, finish_ok], rfl, topReplaced_of_popped_popped hT hU _,
      hpost a b⟩

/-! ### The reduced result -/

theorem cell_msb_eq (c : Cell) : c.msb = decide (128 ≤ c.toNat) := BitVec.msb_eq_decide (w := 8) c

theorem leavesRange_eq (x : Int) : leavesRange x = decide (x < -128 ∨ 127 < x) := rfl

/-- `reduced` answers the cell and the flags that R128 and R152 give an exact result. -/
theorem reducedResult_reduced (x : Int) : ReducedResult x (reduced x).1 (reduced x).2 := by
  refine ⟨?_, rfl, cell_msb_eq _, leavesRange_eq x⟩
  change ((BitVec.ofInt 8 x).toNat : Int) = x % 256
  rw [BitVec.toNat_ofInt]
  exact Int.toNat_of_nonneg (Int.emod_nonneg x (by decide))

/-! ### The rules -/

/-- Settles O11, the exact sum reduced. -/
theorem sumRule : Obligations.SumRule :=
  binaryRule_of_binaryAlu (f := sumCells) (by decide) (fun _ => rfl) fun _ _ => reducedResult_reduced _

/-- Settles O12, the exact difference reduced: `a`, the lower operand, less `b`, the top. -/
theorem subRule : Obligations.SubRule :=
  binaryRule_of_binaryAlu (f := subCells) (by decide) (fun _ => rfl) fun _ _ => reducedResult_reduced _

/-- Settles O13, the exact signed product reduced. -/
theorem mulRule : Obligations.MulRule :=
  binaryRule_of_binaryAlu (f := mulCells) (by decide) (fun _ => rfl) fun _ _ => reducedResult_reduced _

end Sys2Proof.Machine
end

section
/-! PROOFS, the I/O instructions (43_memory_io.md R204, R205): PRINT answers or faults as its pop does, READ as In is empty or not. -/

namespace Sys2Proof.Machine

/-! ### PRINT -/

theorem exec_print_of_popDs_ok {s t : State} {c : Cell} (h : popDs s = .ok (c, t)) :
    exec .print s = .next (t.withOut (t.outBuf ++ [c])) :=
  finish_eq_next.mpr (bind_eq_ok.mpr ⟨_, h, rfl⟩)

theorem exec_print_of_popDs_error {s : State} {f : Fault} (h : popDs s = .error f) : exec .print s = .fault f :=
  finish_eq_fault.mpr (bind_eq_error.mpr (.inl h))

/-- Settles O32: PRINT faults where its pop does, and otherwise appends the cell the pop answers, which is element 0. -/
theorem printRule : Obligations.PrintRule := by
  refine ⟨by decide, fun s => ⟨fun hdepth => ?_, fun x hx => ?_⟩⟩
  · exact exec_print_of_popDs_error (popDs_of_eq (s.ds.depth_eq_zero.mp hdepth))
  · obtain ⟨hpos, htos⟩ := Stack.elem_zero.mp hx
    obtain ⟨c, T, hpop, hpopped⟩ := popDs_popped (mt s.ds.depth_eq_zero.mpr hpos.ne')
    have ⟨_, hc, _⟩ := hpopped
    obtain rfl : c = x := hc.trans htos
    exact ⟨_, exec_print_of_popDs_ok hpop, rfl, hpopped⟩

/-! ### READ -/

theorem exec_read_of_nil {s : State} (h : s.inBuf = []) : exec .read s = .fault (.ioUnderflow s.faultPc s.debug) :=
  finish_eq_fault.mpr (bind_eq_error.mpr (.inl (orRaise_eq_error.mpr ⟨by rw [h, List.getLast?_nil], rfl⟩)))

theorem exec_read_of_concat {s : State} {rest : List Cell} {x : Cell} (h : s.inBuf = rest ++ [x]) :
    exec .read s = .next (pushDs x (s.withIn rest)) := by
  have hlast : s.inBuf.getLast? = some x := by rw [h, List.getLast?_concat]
  have hrest : s.inBuf.dropLast = rest := by rw [h, List.dropLast_concat]
  exact finish_eq_next.mpr (bind_eq_ok.mpr ⟨x, orRaise_eq_ok.mpr hlast, by rw [hrest, pure_eq_ok]⟩)

/-- Settles O33, by the two forms of In: empty, or a rest and a last cell. -/
theorem readRule : Obligations.ReadRule :=
  ⟨by decide, fun s => ⟨exec_read_of_nil, fun _ x hx => ⟨_, exec_read_of_concat hx, rfl, s.ds.pushed_push x⟩⟩⟩

end Sys2Proof.Machine
end

section
/-! PROOFS, what no instruction reads: Out and the tick counter. An operation run with other values there answers as before, but
for those values: said once for each shared operation and each instruction, in the order of the model's definitions. -/

namespace Sys2Proof.Machine

/-- `s` with Out changed by `o` and the tick counter by `n`: any other contents of either are a constant there, and the identity
leaves the other as it was. -/
def State.mapOutTick (o : List Cell → List Cell) (n : Nat → Nat) (s : State) : State :=
  (s.withOut (o s.outBuf)).withTick (n s.tick)

theorem State.mapOutTick_const_id (out : List Cell) : State.mapOutTick (fun _ => out) id = (State.withOut · out) := rfl

/-- The outcome with its next state changed by `g`. -/
def mapNext (g : State → State) : Outcome → Outcome
  | .next s => .next (g s)
  | .fault f => .fault f
  | .refused r => .refused r

@[simp] theorem mapNext_next (g : State → State) (s : State) : mapNext g (.next s) = .next (g s) := rfl
@[simp] theorem mapNext_fault (g : State → State) (f : Fault) : mapNext g (.fault f) = .fault f := rfl

/-! ### Answers -/

theorem finish_eq_mapNext {x' x : Except Fault State} {g : State → State} (h : x' = x.map g) :
    finish x' = mapNext g (finish x) := by
  subst h
  cases x <;> rfl

/-- A sequence answers with `k` applied if its first part answers with `g` applied and its second carries `g` to `k`. -/
theorem bind_eq_map_bind {α β : Type} {x' x : Except Fault α} {f' f : α → Except Fault β} {g : α → α} {k : β → β}
    (hx : x' = x.map g) (hf : ∀ a, x = .ok a → f' (g a) = (f a).map k) : (x' >>= f') = (x >>= f).map k := by
  subst hx
  cases x with
  | ok a => exact hf a rfl
  | error e => rfl

section
variable (o : List Cell → List Cell) (n : Nat → Nat)

theorem orRaise_mapOutTick {α : Type} (kind : Addr → Option Debug → Fault) (s : State) (x : Option α) :
    orRaise kind (s.mapOutTick o n) x = (orRaise kind s x).map id := by
  cases x <;> rfl

/-! ### Operands -/

theorem popDs_mapOutTick (s : State) :
    popDs (s.mapOutTick o n) = (popDs s).map (Prod.map id (State.mapOutTick o n)) :=
  bind_eq_map_bind (orRaise_mapOutTick o n _ s s.ds.pop) fun _ _ => rfl

theorem popRs_mapOutTick (s : State) :
    popRs (s.mapOutTick o n) = (popRs s).map (Prod.map id (State.mapOutTick o n)) :=
  bind_eq_map_bind (orRaise_mapOutTick o n _ s s.rs.pop) fun _ _ => rfl

theorem elemDs_mapOutTick (k : Nat) (s : State) : elemDs k (s.mapOutTick o n) = (elemDs k s).map id :=
  orRaise_mapOutTick o n _ s (s.ds.elem k)

theorem popOperands_mapOutTick (s : State) :
    popOperands (s.mapOutTick o n) = (popOperands s).map (Prod.map id (Prod.map id (State.mapOutTick o n))) :=
  bind_eq_map_bind (popDs_mapOutTick o n s) fun (_, s1) _ =>
    bind_eq_map_bind (popDs_mapOutTick o n s1) fun _ _ => rfl

theorem popAddress_mapOutTick (s : State) :
    popAddress (s.mapOutTick o n) = (popAddress s).map (State.mapOutTick o n) :=
  bind_eq_map_bind (popDs_mapOutTick o n s) fun (lo, s1) _ =>
    bind_eq_map_bind (popDs_mapOutTick o n (latchLow lo s1)) fun _ _ => rfl

theorem pop24_mapOutTick (s : State) :
    pop24 (s.mapOutTick o n) = (pop24 s).map (Prod.map id (State.mapOutTick o n)) :=
  bind_eq_map_bind (popDs_mapOutTick o n s) fun (_, s1) _ =>
    bind_eq_map_bind (popDs_mapOutTick o n s1) fun (_, s2) _ =>
      bind_eq_map_bind (popDs_mapOutTick o n s2) fun _ _ => rfl

theorem push24_mapOutTick (w : Triple) (s : State) : push24 w (s.mapOutTick o n) = (push24 w s).mapOutTick o n := rfl

theorem drawFlags_mapOutTick (s : State) : drawFlags (s.mapOutTick o n) = (drawFlags s).mapOutTick o n := rfl

/-! ### Tables and jumps -/

theorem tableByte_mapOutTick (s : State) (a : Addr) : tableByte (s.mapOutTick o n) a = (tableByte s a).map id := by
  have himem : (s.mapOutTick o n).imem = s.imem := rfl
  unfold tableByte
  rw [himem]
  split <;> rfl

/-- A table read, whose latches must themselves not look at Out or the tick counter. -/
theorem tableRead_mapOutTick (base i : Nat) {latchHi latchLo : Cell → State → State}
    (hi : ∀ b u, latchHi b (u.mapOutTick o n) = (latchHi b u).mapOutTick o n)
    (lo : ∀ b u, latchLo b (u.mapOutTick o n) = (latchLo b u).mapOutTick o n) (s : State) :
    tableRead base i latchHi latchLo (s.mapOutTick o n) =
      (tableRead base i latchHi latchLo s).map (State.mapOutTick o n) := by
  have hticks : tableTicks base i latchHi latchLo (s.mapOutTick o n) =
      (tableTicks base i latchHi latchLo s).map (Prod.map (State.mapOutTick o n) (State.mapOutTick o n)) := by
    refine bind_eq_map_bind (tableByte_mapOutTick o n s _) fun h _ => ?_
    dsimp only [id]
    rw [hi]
    refine bind_eq_map_bind (tableByte_mapOutTick o n (latchHi h s) _) fun l _ => ?_
    dsimp only [id]
    rw [lo]
    rfl
  exact bind_eq_map_bind hticks fun _ _ => rfl

theorem tableRead_ad_mapOutTick (base i : Nat) (s : State) :
    tableRead base i latchHigh latchLow (s.mapOutTick o n) =
      (tableRead base i latchHigh latchLow s).map (State.mapOutTick o n) :=
  tableRead_mapOutTick o n base i (latchHi := latchHigh) (latchLo := latchLow) (fun _ _ => rfl) (fun _ _ => rfl) s

theorem tableRead_pc_mapOutTick (base i : Nat) (s : State) :
    tableRead base i latchPcHigh latchPcLow (s.mapOutTick o n) =
      (tableRead base i latchPcHigh latchPcLow s).map (State.mapOutTick o n) :=
  tableRead_mapOutTick o n base i (latchHi := latchPcHigh) (latchLo := latchPcLow) (fun _ _ => rfl) (fun _ _ => rfl) s

theorem jumpRelative_mapOutTick (off : Int) (s : State) :
    jumpRelative off (s.mapOutTick o n) = (jumpRelative off s).map (State.mapOutTick o n) := by
  have htarget : relTarget off (s.mapOutTick o n) = (relTarget off s).map id := by
    rw [Except.map_id]
    rfl
  exact bind_eq_map_bind htarget fun _ _ => rfl

theorem jumpIf_mapOutTick (flag : Bool) (off : Int) (s : State) :
    jumpIf flag off (s.mapOutTick o n) = (jumpIf flag off s).map (State.mapOutTick o n) := by
  cases flag with
  | true => exact jumpRelative_mapOutTick o n off s
  | false => rfl

/-! ### The shapes of the ALU instructions -/

theorem binaryAlu_mapOutTick (f : Cell → Cell → Cell × Flags) (s : State) :
    binaryAlu f (s.mapOutTick o n) = (binaryAlu f s).map (State.mapOutTick o n) :=
  bind_eq_map_bind (popOperands_mapOutTick o n s) fun _ _ => rfl

theorem unaryAlu_mapOutTick (f : Cell → Flags → Cell × Flags) (s : State) :
    unaryAlu f (s.mapOutTick o n) = (unaryAlu f s).map (State.mapOutTick o n) :=
  bind_eq_map_bind (elemDs_mapOutTick o n 0 s) fun _ _ => rfl

theorem tripleAlu_mapOutTick (f : Triple → Triple → Triple) (s : State) :
    tripleAlu f (s.mapOutTick o n) = (tripleAlu f s).map (State.mapOutTick o n) :=
  bind_eq_map_bind (pop24_mapOutTick o n s) fun (B, s1) _ =>
    bind_eq_map_bind (pop24_mapOutTick o n s1) fun _ _ => by
      dsimp only [Prod.map, id]
      rw [push24_mapOutTick, drawFlags_mapOutTick]
      split <;> rfl

/-! ### The instructions -/

/-- Every instruction but PRINT, which extends Out, answers alike but for what Out and the tick counter held. -/
theorem exec_mapOutTick {i : Instr} (hi : i ≠ .print) (s : State) :
    exec i (s.mapOutTick o n) = mapNext (State.mapOutTick o n) (exec i s) := by
  cases i with
  | print => exact absurd rfl hi
  | sum | sub | mul | div | mod => exact finish_eq_mapNext (binaryAlu_mapOutTick o n _ s)
  | inc | dec => exact finish_eq_mapNext (unaryAlu_mapOutTick o n _ s)
  | tdiv | tmod => exact finish_eq_mapNext (tripleAlu_mapOutTick o n _ s)
  | cmp =>
    exact finish_eq_mapNext <| bind_eq_map_bind (elemDs_mapOutTick o n 0 s) fun _ _ =>
      bind_eq_map_bind (elemDs_mapOutTick o n 1 s) fun _ _ => rfl
  | dup => exact finish_eq_mapNext <| bind_eq_map_bind (elemDs_mapOutTick o n 0 s) fun _ _ => rfl
  | overCell => exact finish_eq_mapNext <| bind_eq_map_bind (elemDs_mapOutTick o n 1 s) fun _ _ => rfl
  | drop | tor => exact finish_eq_mapNext <| bind_eq_map_bind (popDs_mapOutTick o n s) fun _ _ => rfl
  | rfrom => exact finish_eq_mapNext <| bind_eq_map_bind (popRs_mapOutTick o n s) fun _ _ => rfl
  | swap => exact finish_eq_mapNext <| bind_eq_map_bind (orRaise_mapOutTick o n _ s s.ds.swap) fun _ _ => rfl
  | rot =>
    exact finish_eq_mapNext <| bind_eq_map_bind (popDs_mapOutTick o n s) fun (_, s1) _ =>
      bind_eq_map_bind (popDs_mapOutTick o n s1) fun (_, s2) _ =>
        bind_eq_map_bind (popDs_mapOutTick o n s2) fun _ _ => rfl
  | pushTrue | pushFalse | hlt => rfl
  | get => exact finish_eq_mapNext <| bind_eq_map_bind (popAddress_mapOutTick o n s) fun _ _ => rfl
  | set =>
    exact finish_eq_mapNext <| bind_eq_map_bind (popAddress_mapOutTick o n s) fun s1 _ =>
      bind_eq_map_bind (popDs_mapOutTick o n s1) fun _ _ => rfl
  | read => exact finish_eq_mapNext <| bind_eq_map_bind (orRaise_mapOutTick o n _ s s.inBuf.getLast?) fun _ _ => rfl
  | ret =>
    exact finish_eq_mapNext <| bind_eq_map_bind (popRs_mapOutTick o n s) fun (_, s1) _ =>
      bind_eq_map_bind (popRs_mapOutTick o n s1) fun _ _ => rfl
  | jmpr off => exact finish_eq_mapNext (jumpRelative_mapOutTick o n off s)
  | jz off | jl off | jo off => exact finish_eq_mapNext (jumpIf_mapOutTick o n _ off s)
  | load k => exact finish_eq_mapNext <| bind_eq_map_bind (tableRead_ad_mapOutTick o n _ k s) fun _ _ => rfl
  | jmpa k => exact finish_eq_mapNext (tableRead_pc_mapOutTick o n _ k s)
  | call k => exact finish_eq_mapNext (tableRead_pc_mapOutTick o n _ k (pushReturn s))

/-- PRINT answers alike too, but that it leaves whatever Out held with the top appended. -/
theorem exec_print_mapOutTick (s : State) :
    exec .print (s.mapOutTick o n) =
      mapNext (State.mapOutTick (fun _ => o s.outBuf ++ [s.ds.tos]) n) (exec .print s) :=
  finish_eq_mapNext <| bind_eq_map_bind (popDs_mapOutTick o n s) fun (c, t) hpop => by
    obtain ⟨rfl, S, -, rfl⟩ := popDs_frame hpop
    rfl

end

end Sys2Proof.Machine
end

section
/-! PROOFS, the buffers (43_memory_io.md R206, R207). -/

namespace Sys2Proof.Machine

/-- What Out an instruction leaves, of the Out and the state it is run in. -/
def outAfter (i : Instr) (s : State) (out : List Cell) : List Cell := if i = .print then out ++ [s.ds.tos] else out

/-- With any other contents of Out an instruction answers alike but for Out. -/
theorem exec_withOut (i : Instr) (s : State) (out : List Cell) :
    exec i (s.withOut out) = mapNext (State.withOut · (outAfter i s out)) (exec i s) := by
  by_cases hi : i = .print
  · subst hi
    rw [outAfter, if_pos rfl]
    simpa only [State.mapOutTick_const_id] using exec_print_mapOutTick (fun _ => out) id s
  · rw [outAfter, if_neg hi]
    simpa only [State.mapOutTick_const_id] using exec_mapOutTick (fun _ => out) id hi s

/-- PRINT and READ aside, an instruction that answers leaves both buffers. -/
theorem exec_keeps_buffers {i : Instr} {s t : State} (hp : i ≠ .print) (hr : i ≠ .read) (h : exec i s = .next t) :
    t.outBuf = s.outBuf ∧ t.inBuf = s.inBuf := by
  have h := exec_frame h
  cases i with
  | print => exact absurd rfl hp
  | read => exact absurd rfl hr
  | sum | sub | mul | div | mod | inc | dec => obtain ⟨S, F, -, rfl⟩ := h; exact ⟨rfl, rfl⟩
  | tdiv | tmod => obtain ⟨S, F, d, -, rfl⟩ := h; exact ⟨rfl, rfl⟩
  | cmp => obtain ⟨F, d, rfl⟩ := h; exact ⟨rfl, rfl⟩
  | dup | drop | swap | overCell | rot | pushTrue | pushFalse => obtain ⟨S, -, rfl⟩ := h; exact ⟨rfl, rfl⟩
  | tor | rfrom => obtain ⟨S, R, -, -, rfl⟩ := h; exact ⟨rfl, rfl⟩
  | get | load _ => obtain ⟨a, S, -, rfl⟩ := h; exact ⟨rfl, rfl⟩
  | set => obtain ⟨a, S, v, -, rfl⟩ := h; exact ⟨rfl, rfl⟩
  | jmpr _ | jz _ | jl _ | jo _ | jmpa _ => obtain ⟨p, rfl⟩ := h; exact ⟨rfl, rfl⟩
  | call _ | ret => obtain ⟨R, p, -, rfl⟩ := h; exact ⟨rfl, rfl⟩
  | hlt => subst h; exact ⟨rfl, rfl⟩

/-- The buffers after an instruction that answers, and READ's cell. -/
theorem exec_buffers {i : Instr} {s t : State} (h : exec i s = .next t) :
    t.outBuf = outAfter i s s.outBuf ∧
      (i = .read → s.inBuf = t.inBuf ++ [t.ds.tos]) ∧ (i ≠ .read → t.inBuf = s.inBuf) := by
  by_cases hp : i = .print
  · subst hp
    obtain ⟨S, -, rfl⟩ := exec_frame h
    exact ⟨rfl, nofun, fun _ => rfl⟩
  by_cases hr : i = .read
  · subst hr
    obtain ⟨rest, x, hin, rfl⟩ := exec_frame h
    exact ⟨rfl, fun _ => hin, fun hne => absurd rfl hne⟩
  · obtain ⟨hout, hin⟩ := exec_keeps_buffers hp hr h
    exact ⟨by rw [outAfter, if_neg hp, hout], fun hread => absurd hread hr, fun _ => hin⟩

/-- Settles O45: independence of Out by `exec_withOut`, the change of each buffer by `exec_buffers`. -/
theorem buffersChangeOnlyAtTheirEnds : Obligations.BuffersChangeOnlyAtTheirEnds :=
  fun i s =>
    ⟨fun out f hf => by rw [exec_withOut, hf, mapNext_fault],
     fun _ ht => ⟨fun out => by rw [exec_withOut, ht, mapNext_next, outAfter], exec_buffers ht⟩⟩

end Sys2Proof.Machine
end

section
/-! PROOFS, control transfer (44_control_transfer.md R228, R229): RET, by what two pops in a row do to a stack, and HLT. -/

namespace Sys2Proof.Machine

/-! ### Two pops of one stack -/

/-- With two live elements two pops answer element 0, then element 1. -/
theorem Stack.pop_pop_of_elem {S : Stack} {hi lo : Cell} (hhi : S.elem 1 = some hi) (hlo : S.elem 0 = some lo) :
    ∃ T U, S.pop = some (lo, T) ∧ T.pop = some (hi, U) := by
  obtain ⟨hdepth, hread⟩ := Stack.elem_succ.mp hhi
  obtain ⟨hpos, htos⟩ := Stack.elem_zero.mp hlo
  have hsp : S.sp - BitVec.ofNat 16 0 = S.sp := BitVec.sub_zero _
  exact ⟨_, _, Stack.pop_eq_some.mpr ⟨mt S.depth_eq_zero.mpr hpos.ne', htos.symm, rfl⟩,
    Stack.pop_eq_some.mpr ⟨Stack.sp_sub_ne hdepth, hsp ▸ hread.symm, rfl⟩⟩

/-- With one live element a pop leaves the stack at its sentinel. -/
theorem Stack.pop_of_depth_eq_one {S : Stack} (h : S.depth = 1) :
    ∃ c T, S.pop = some (c, T) ∧ T.sp = Config.stackEmptySp := by
  rw [Stack.depth_eq] at h
  have hsp : S.sp = 1#16 := BitVec.eq_of_toNat_eq h
  exact ⟨_, _, Stack.pop_eq_some.mpr ⟨hsp ▸ by decide, rfl, rfl⟩, hsp ▸ rfl⟩

/-! ### RET -/

theorem popRs_of_pop {s : State} {c : Cell} {T : Stack} (h : s.rs.pop = some (c, T)) : popRs s = .ok (c, s.withRs T) :=
  popRs_eq_ok.mpr ⟨h, rfl⟩

theorem exec_ret_of_pop_pop {s : State} {lo hi : Cell} {T U : Stack} (h : s.rs.pop = some (lo, T))
    (h' : T.pop = some (hi, U)) : exec .ret s = .next ((s.withRs U).withPc (hi ++ lo)) :=
  finish_eq_next.mpr (bind_eq_ok.mpr ⟨_, popRs_of_pop h, bind_eq_ok.mpr ⟨_, popRs_of_pop (s := s.withRs T) h', rfl⟩⟩)

/-- RET faults where its first pop or its second does. -/
theorem exec_ret_of_depth_lt_two {s : State} (h : s.rs.depth < 2) :
    exec .ret s = .fault (.stackUnderflow s.faultPc s.debug) := by
  refine finish_eq_fault.mpr (bind_eq_error.mpr ?_)
  obtain h0 | h1 : s.rs.depth = 0 ∨ s.rs.depth = 1 := by omega
  · exact .inl (popRs_of_eq (s.rs.depth_eq_zero.mp h0))
  · obtain ⟨c, T, hpop, hsp⟩ := Stack.pop_of_depth_eq_one h1
    exact .inr ⟨_, popRs_of_pop hpop, bind_eq_error.mpr (.inl (popRs_of_eq (s := s.withRs T) hsp))⟩

/-- Settles O38: below two elements a pop faults; with two, both pops answer, each as R53 words it. -/
theorem retRule : Obligations.RetRule := by
  refine ⟨by decide, fun s => ⟨exec_ret_of_depth_lt_two, fun hi lo hhi hlo => ?_⟩⟩
  obtain ⟨T, U, hpop, hpop'⟩ := Stack.pop_pop_of_elem hhi hlo
  exact ⟨_, T, exec_ret_of_pop_pop hpop hpop', rfl, Stack.popped_of_pop_eq_some hpop, Stack.popped_of_pop_eq_some hpop'⟩

/-! ### HLT -/

/-- A run that has halted takes no step (R33). -/
theorem step_of_halted {s : State} (h : s.status = .halted) : step s = .refused .runEnded := by
  rw [step, h]

/-- Settles O39: HLT's meaning sets the status alone, and a halted run takes no step. -/
theorem hltRule : Obligations.HltRule :=
  ⟨by decide, fun _ => ⟨_, rfl, rfl, step_of_halted rfl⟩⟩

end Sys2Proof.Machine
end

section
/-! PROOFS, faults (60_exceptions.md R251): what a fault records. Whatever of an instruction raises a fault, the fault holds the
address and the metadata the instruction's fetch latched, which no operation changes before it raises. Said once for each shared
operation and each instruction. -/

namespace Sys2Proof.Machine

/-- `f` records the instruction whose address and metadata `s` has latched. -/
def Fault.RaisedAt (f : Fault) (s : State) : Prop := f.address = s.faultPc ∧ f.debugInfo = s.debug

/-- Every fault `x` may end in records the instruction `s` has latched. -/
def RaisesAt {α : Type} (s : State) (x : Except Fault α) : Prop := ∀ f, x = .error f → f.RaisedAt s

/-! ### Answers -/

theorem raisesAt_ok {α : Type} (s : State) (a : α) : RaisesAt s (.ok a) := nofun

theorem raisesAt_bind {α β : Type} {s : State} {x : Except Fault α} {g : α → Except Fault β} (hx : RaisesAt s x)
    (hg : ∀ a, x = .ok a → RaisesAt s (g a)) : RaisesAt s (x >>= g) := by
  intro f h
  obtain h1 | ⟨a, ha, h2⟩ := bind_eq_error.mp h
  · exact hx f h1
  · exact hg a ha f h2

/-- An operation whose answer is only put into the state raises what the operation raises. -/
theorem raisesAt_bind_ok {α β : Type} {s : State} {x : Except Fault α} (hx : RaisesAt s x) (g : α → β) :
    RaisesAt s (x >>= fun a => .ok (g a)) :=
  raisesAt_bind hx fun _ _ => raisesAt_ok s _

/-- A missing answer raises a fault of its kind, and every kind records what `raise` hands it. -/
theorem orRaise_raisesAt {α : Type} {kind : Addr → Option Debug → Fault} {s : State} (hkind : (raise kind s).RaisedAt s)
    (x : Option α) : RaisesAt s (orRaise kind s x) := by
  intro f h
  obtain ⟨-, rfl⟩ := orRaise_eq_error.mp h
  exact hkind

theorem RaisesAt.of_finish {s : State} {x : Except Fault State} {f : Fault} (hx : RaisesAt s x) (h : finish x = .fault f) :
    f.RaisedAt s :=
  hx f (finish_eq_fault.mp h)

/-! ### Operands -/

theorem elemDs_raisesAt (k : Nat) (s : State) : RaisesAt s (elemDs k s) := orRaise_raisesAt ⟨rfl, rfl⟩ _

theorem popDs_raisesAt (s : State) : RaisesAt s (popDs s) := raisesAt_bind_ok (orRaise_raisesAt ⟨rfl, rfl⟩ _) _

theorem popRs_raisesAt (s : State) : RaisesAt s (popRs s) := raisesAt_bind_ok (orRaise_raisesAt ⟨rfl, rfl⟩ _) _

/-- What follows a pop of DS runs in a state that differs from `s` in DS alone. -/
theorem raisesAt_popDs_bind {β : Type} {s : State} {g : Cell × State → Except Fault β}
    (hg : ∀ c S, RaisesAt (s.withDs S) (g (c, s.withDs S))) : RaisesAt s (popDs s >>= g) :=
  raisesAt_bind (popDs_raisesAt s) fun (c, _) h => by
    obtain ⟨-, S, -, rfl⟩ := popDs_frame h
    exact hg c S

theorem popOperands_raisesAt (s : State) : RaisesAt s (popOperands s) :=
  raisesAt_popDs_bind fun _ _ => raisesAt_bind_ok (popDs_raisesAt _) _

theorem popAddress_raisesAt (s : State) : RaisesAt s (popAddress s) :=
  raisesAt_popDs_bind fun _ _ => raisesAt_bind_ok (popDs_raisesAt _) _

theorem pop24_raisesAt (s : State) : RaisesAt s (pop24 s) :=
  raisesAt_popDs_bind fun _ _ => raisesAt_popDs_bind fun _ _ => raisesAt_bind_ok (popDs_raisesAt _) _

/-! ### Tables and jumps -/

theorem tableRead_ad_raisesAt (base i : Nat) (s : State) : RaisesAt s (tableRead base i latchHigh latchLow s) := by
  intro f h
  rw [tableRead_eq_error (latchHi := latchHigh) (fun _ _ => ⟨rfl, rfl, rfl⟩) h]
  exact ⟨rfl, rfl⟩

theorem tableRead_pc_raisesAt (base i : Nat) (s : State) : RaisesAt s (tableRead base i latchPcHigh latchPcLow s) := by
  intro f h
  rw [tableRead_eq_error (latchHi := latchPcHigh) (fun _ _ => ⟨rfl, rfl, rfl⟩) h]
  exact ⟨rfl, rfl⟩

theorem jumpRelative_raisesAt (off : Int) (s : State) : RaisesAt s (jumpRelative off s) := by
  intro f h
  obtain ⟨-, rfl⟩ := relTarget_eq_error.mp (jumpRelative_eq_error.mp h)
  exact ⟨rfl, rfl⟩

theorem jumpIf_raisesAt (flag : Bool) (off : Int) (s : State) : RaisesAt s (jumpIf flag off s) := by
  cases flag with
  | true => exact jumpRelative_raisesAt off s
  | false => exact raisesAt_ok s s

/-! ### The shapes of the ALU instructions -/

theorem binaryAlu_raisesAt (f : Cell → Cell → Cell × Flags) (s : State) : RaisesAt s (binaryAlu f s) :=
  raisesAt_bind_ok (popOperands_raisesAt s) _

theorem unaryAlu_raisesAt (f : Cell → Flags → Cell × Flags) (s : State) : RaisesAt s (unaryAlu f s) :=
  raisesAt_bind_ok (elemDs_raisesAt 0 s) _

/-- A 24-bit division raises where one of its operands does, or at a zero divisor. -/
theorem tripleAlu_raisesAt (f : Triple → Triple → Triple) (s : State) : RaisesAt s (tripleAlu f s) :=
  raisesAt_bind (pop24_raisesAt s) fun (_, _) h => by
    obtain ⟨S, -, rfl⟩ := pop24_frame h
    refine raisesAt_bind (pop24_raisesAt (s.withDs S)) fun (_, _) h => ?_
    obtain ⟨T, -, rfl⟩ := pop24_frame h
    dsimp only
    split
    · rintro _ ⟨⟩
      exact ⟨rfl, rfl⟩
    · exact raisesAt_ok s _

/-! ### The instructions -/

/-- A fault of an instruction records what the state it runs in has latched. -/
theorem exec_raisedAt {i : Instr} {s : State} {f : Fault} (h : exec i s = .fault f) : f.RaisedAt s := by
  cases i with
  | sum | sub | mul | div | mod => exact (binaryAlu_raisesAt _ s).of_finish h
  | inc | dec => exact (unaryAlu_raisesAt _ s).of_finish h
  | tdiv | tmod => exact (tripleAlu_raisesAt _ s).of_finish h
  | cmp =>
    exact RaisesAt.of_finish
      (raisesAt_bind (elemDs_raisesAt 0 s) fun _ _ => raisesAt_bind_ok (elemDs_raisesAt 1 s) _) h
  | dup => exact (raisesAt_bind_ok (elemDs_raisesAt 0 s) _).of_finish h
  | overCell => exact (raisesAt_bind_ok (elemDs_raisesAt 1 s) _).of_finish h
  | drop | tor | print => exact (raisesAt_bind_ok (popDs_raisesAt s) _).of_finish h
  | rfrom => exact (raisesAt_bind_ok (popRs_raisesAt s) _).of_finish h
  | swap | read => exact RaisesAt.of_finish (raisesAt_bind_ok (orRaise_raisesAt ⟨rfl, rfl⟩ _) _) h
  | rot =>
    exact RaisesAt.of_finish (raisesAt_popDs_bind fun _ _ => raisesAt_popDs_bind fun _ _ =>
      raisesAt_bind_ok (popDs_raisesAt _) _) h
  | pushTrue | pushFalse | hlt => exact (raisesAt_ok s _).of_finish h
  | get => exact (raisesAt_bind_ok (popAddress_raisesAt s) _).of_finish h
  | set =>
    refine RaisesAt.of_finish (raisesAt_bind (popAddress_raisesAt s) fun _ hpop => ?_) h
    obtain ⟨S, A, -, rfl⟩ := popAddress_frame hpop
    exact raisesAt_bind_ok (popDs_raisesAt _) _
  | ret =>
    refine RaisesAt.of_finish (raisesAt_bind (popRs_raisesAt s) fun (_, _) hpop => ?_) h
    obtain ⟨-, R, -, rfl⟩ := popRs_frame hpop
    exact raisesAt_bind_ok (popRs_raisesAt _) _
  | jmpr off => exact (jumpRelative_raisesAt off s).of_finish h
  | jz off | jl off | jo off => exact (jumpIf_raisesAt _ off s).of_finish h
  | load k => exact (raisesAt_bind_ok (tableRead_ad_raisesAt _ k s) _).of_finish h
  | jmpa k => exact (tableRead_pc_raisesAt _ k s).of_finish h
  | call k => exact (tableRead_pc_raisesAt _ k (pushReturn s)).of_finish h

end Sys2Proof.Machine
end

section
/-! PROOFS, faults (60_exceptions.md R251): a step that faults, the run it ends, and the status after it. -/

namespace Sys2Proof.Machine

/-- The metadata of a slot: its record's, or none where it holds no record. -/
def slotDebug : Slot → Option Debug
  | .instr r => r.debug
  | .data _ => none
  | .empty => none

/-- Where a fetch faults, the slot holds no record, and the fault has pc's address and no metadata. -/
theorem fetch_error_names {s : State} {f : Fault} (h : fetch s = .error f) :
    f.address = s.pc ∧ f.debugInfo = slotDebug (s.imem.read s.pc) := by
  unfold fetch at h
  split at h
  · next hslot => cases h; rw [hslot]; exact ⟨rfl, rfl⟩
  · next hslot => cases h; rw [hslot]; exact ⟨rfl, rfl⟩
  · cases h

/-- A fault of the fetched state is the fault of the slot at pc: fetch has latched its address and metadata (R121). -/
theorem names_of_raisedAt_fetched {s : State} {r : Record} {f : Fault} (hslot : s.imem.read s.pc = .instr r)
    (h : f.RaisedAt (s.fetched r)) : f.address = s.pc ∧ f.debugInfo = slotDebug (s.imem.read s.pc) := by
  rw [hslot]
  exact h

/-- A step faults in its fetch, in the decode of the fetched record, or in the decoded instruction. -/
theorem step_fault_cases {s : State} {f : Fault} (h : step s = .fault f) :
    fetch s = .error f ∨ ∃ r, s.imem.read s.pc = .instr r ∧
      (decodeFetched r (s.fetched r) = .error f ∨
        ∃ i, decodeRecord r = .ok i ∧ exec i (s.fetched r) = .fault f) := by
  unfold step at h
  split at h
  · split at h
    · next i u hfetch =>
      obtain ⟨r, hslot, hdecode, rfl⟩ := fetchDecode_eq_ok.mp hfetch
      exact .inr ⟨r, hslot, .inr ⟨i, hdecode, retire_eq_fault.mp h⟩⟩
    · next hfetch =>
      cases h
      obtain hf | ⟨⟨r, u⟩, hok, hrest⟩ := bind_eq_error.mp hfetch
      · exact .inl hf
      · obtain ⟨hslot, rfl⟩ := fetch_eq_ok.mp hok
        obtain hdecode | ⟨_, -, ⟨⟩⟩ := bind_eq_error.mp hrest
        exact .inr ⟨r, hslot, .inl hdecode⟩
  · cases h
  · cases h

/-- A fault of a step names the slot it was fetched from. -/
theorem step_fault_names {s : State} {f : Fault} (h : step s = .fault f) :
    f.address = s.pc ∧ f.debugInfo = slotDebug (s.imem.read s.pc) := by
  obtain hfetch | ⟨r, hslot, hdecode | ⟨i, -, hexec⟩⟩ := step_fault_cases h
  · exact fetch_error_names hfetch
  · obtain ⟨-, rfl⟩ := decodeFetched_eq_error.mp hdecode
    exact names_of_raisedAt_fetched hslot ⟨rfl, rfl⟩
  · exact names_of_raisedAt_fetched hslot (exec_raisedAt hexec)

/-- A run within a budget of instructions ends at a step that faults. -/
theorem runWithin_of_fault {s : State} {f : Fault} (k : Nat) (h : step s = .fault f) :
    runWithin (k + 1) s = .faulted f := by
  rw [runWithin, h]

/-- A run that has faulted takes no step (R33). -/
theorem step_of_faulted {s : State} {f : Fault} (h : s.status = .faulted f) : step s = .refused .runEnded := by
  rw [step, h]

/-- Settles O51: what the fault records by the part of the step that raised it, the run's end and the refusal by one step. -/
theorem faultNamesTheInstruction : Obligations.FaultNamesTheInstruction :=
  ⟨fun _ _ => step_fault_names, fun k _ _ h => by rw [runWithin_of_fault k h, RunEnd.status], fun _ _ => step_of_faulted⟩

end Sys2Proof.Machine
end

section
/-! PROOFS, the packing and the records (30_encoding.md): an instruction is its tag and its offset, so one rule a decoder says
what it answers, and the round trips of the words and of the records follow. -/

namespace Sys2Proof

open Sys2Proof.Machine (cell_toNat_lt)

/-! ### An instruction by its tag and its offset -/

theorem directInstr_eq_some {m : Mnemonic} {i : Instr} : directInstr m = some i ↔ i.mnemonic = m ∧ i.offset = none := by
  constructor
  · intro h
    cases m <;> cases h <;> exact ⟨rfl, rfl⟩
  · rintro ⟨rfl, h⟩
    cases i <;> cases h <;> rfl

theorem relativeInstr_eq_some {m : Mnemonic} {off : Int} {i : Instr} :
    relativeInstr m off = some i ↔ i.mnemonic = m ∧ m.operandClass = .relative ∧ i.offset = some off := by
  constructor
  · intro h
    cases m <;> cases h <;> exact ⟨rfl, rfl, rfl⟩
  · rintro ⟨rfl, hclass, hoff⟩
    cases i <;> cases hclass <;> cases hoff <;> rfl

theorem tableInstr_eq_some {m : Mnemonic} {k : Nat} {i : Instr} :
    tableInstr m k = some i ↔ i.mnemonic = m ∧ m.operandClass = .table ∧ i.offset = some (k : Int) := by
  constructor
  · intro h
    cases m <;> cases h <;> exact ⟨rfl, rfl, rfl⟩
  · rintro ⟨rfl, hclass, hoff⟩
    cases i <;> cases hclass <;> (obtain rfl := Int.ofNat.inj (Option.some.inj hoff); rfl)

/-- What an instruction's class says of its offset and of the two checks on it (R93 to R98, R101). -/
theorem operand_of_class (i : Instr) : match i.mnemonic.operandClass with
    | .direct => i.offset = none ∧ i.wf = true ∧ i.packable = true
    | .relative => ∃ off, i.offset = some off ∧ i.wf = true ∧ i.packable = decide (-8388608 ≤ off ∧ off ≤ 8388607)
    | .table => ∃ k : Nat, i.offset = some (k : Int) ∧ i.wf = decide (k < 32) ∧ i.packable = true := by
  cases i with
  | jmpr off | jz off | jl off | jo off => exact ⟨off, rfl, rfl, rfl⟩
  | load k | call k | jmpa k => exact ⟨k, rfl, rfl, rfl⟩
  | _ => exact ⟨rfl, rfl, rfl⟩

/-! ### The operand fields of a word -/

/-- A 24-bit offset is the only one with its signed value. -/
theorem toInt_eq_iff {off : BitVec 24} {o : Int} :
    off.toInt = o ↔ (-8388608 ≤ o ∧ o ≤ 8388607) ∧ off = BitVec.ofInt 24 o := by
  constructor
  · rintro rfl
    have hle := BitVec.le_toInt (x := off)
    have hlt := BitVec.toInt_lt (x := off)
    exact ⟨by omega, BitVec.ofInt_toInt.symm⟩
  · rintro ⟨hrange, rfl⟩
    rw [BitVec.toInt_ofInt, Int.bmod_eq_of_le] <;> omega

/-- An offset field with its high 19 bits zero is the index its low 5 bits give. -/
theorem indexField_iff {off : BitVec 24} {k : Nat} :
    off.extractLsb' 5 19 = 0 ∧ (off.extractLsb' 0 5).toNat = k ↔ k < 32 ∧ off = BitVec.ofInt 24 k := by
  have hlt := off.isLt
  rw [← BitVec.toNat_inj, ← BitVec.toNat_inj, BitVec.extractLsb'_toNat, BitVec.extractLsb'_toNat, BitVec.ofInt_natCast,
    BitVec.toNat_ofNat, Nat.shiftRight_eq_div_pow, Nat.shiftRight_zero]
  change off.toNat / 32 % 524288 = 0 ∧ off.toNat % 32 = k ↔ k < 32 ∧ off.toNat = k % 16777216
  omega

theorem mnemonic_of_decodeOperand {m : Mnemonic} {p : Bool} {off : BitVec 24} {i : Instr}
    (h : decodeOperand m p off = some i) : i.mnemonic = m := by
  unfold decodeOperand at h
  split at h <;> split at h
  · exact (directInstr_eq_some.mp h).1
  · cases h
  · exact (relativeInstr_eq_some.mp h).1
  · cases h
  · exact (tableInstr_eq_some.mp h).1
  · cases h

/-- The fields P and OFF that stand for an instruction, tag by tag, are those the encoder gives it (R101). -/
theorem decodeOperand_eq_some {m : Mnemonic} {p : Bool} {off : BitVec 24} {i : Instr} :
    decodeOperand m p off = some i ↔ i.mnemonic = m ∧ i.wf = true ∧ i.packable = true ∧ p = i.offset.isSome ∧
      off = BitVec.ofInt 24 (i.offset.getD 0) := by
  by_cases hm : i.mnemonic = m
  swap
  · exact iff_of_false (fun h => hm (mnemonic_of_decodeOperand h)) (fun h => hm h.1)
  subst hm
  have hop := operand_of_class i
  unfold decodeOperand
  cases hclass : i.mnemonic.operandClass with
  | direct =>
    rw [hclass] at hop
    obtain ⟨hoff, hwf, hpack⟩ := hop
    simp [directInstr_eq_some, hoff, hwf, hpack]
  | relative =>
    rw [hclass] at hop
    obtain ⟨o, hoff, hwf, hpack⟩ := hop
    simp only [hclass, relativeInstr_eq_some, hoff, hwf, hpack, Option.ite_none_right_eq_some, true_and, Option.some.injEq,
      Option.isSome_some, Option.getD_some, decide_eq_true_eq]
    rw [@eq_comm _ o, toInt_eq_iff]
    exact and_left_comm
  | table =>
    rw [hclass] at hop
    obtain ⟨k, hoff, hwf, hpack⟩ := hop
    simp only [hclass, tableInstr_eq_some, hoff, hwf, hpack, Option.ite_none_right_eq_some, true_and, Option.some.injEq,
      Option.isSome_some, Option.getD_some, decide_eq_true_eq, Nat.cast_inj]
    rw [@eq_comm _ k, and_assoc]
    exact (and_congr_right fun _ => indexField_iff).trans and_left_comm

/-! ### Words -/

theorem encodeWord_eq_some {i : Instr} {w : SlotWord} :
    encodeWord i = some w ↔ i.wf = true ∧ i.packable = true ∧
      packFields i.offset.isSome i.mnemonic.op (BitVec.ofInt 24 (i.offset.getD 0)) = w := by
  simp only [encodeWord, Option.ite_none_right_eq_some, Bool.and_eq_true, and_assoc, Option.some.injEq]

theorem decodeWord_of_data {w : SlotWord} (h31 : w.getLsbD 31 = false) :
    decodeWord w = if w.extractLsb' 8 23 = 0 then .data (w.extractLsb' 0 8) else .invalid .dataWordTooWide :=
  if_pos h31

theorem decodeWord_of_reserved {w : SlotWord} (h31 : w.getLsbD 31 = true) (h30 : w.getLsbD 30 = true) :
    decodeWord w = .invalid .reservedBitSet := by
  rw [decodeWord, h31, h30, if_neg nofun, if_pos rfl]

theorem decodeWord_of_fields {w : SlotWord} (h31 : w.getLsbD 31 = true) (h30 : w.getLsbD 30 = false) :
    decodeWord w = (decodeOperand (Mnemonic.ofOp (w.extractLsb' 24 5)) (w.getLsbD 29) (w.extractLsb' 0 24)).elim
      (.invalid .operandField) .instr := by
  rw [decodeWord, h31, h30, if_neg nofun, if_neg nofun]
  generalize decodeOperand _ _ _ = operand
  cases operand <;> rfl

/-- The three ways to decode a word, told by bits 31 and 30 (R104). -/
theorem decodeWord_cases (w : SlotWord) :
    (w.getLsbD 31 = false) ∨ (w.getLsbD 31 = true ∧ w.getLsbD 30 = true) ∨ (w.getLsbD 31 = true ∧ w.getLsbD 30 = false) := by
  cases w.getLsbD 31 <;> cases w.getLsbD 30 <;> decide

theorem decodeWord_eq_instr {w : SlotWord} {i : Instr} :
    decodeWord w = .instr i ↔ w.getLsbD 31 = true ∧ w.getLsbD 30 = false ∧
      decodeOperand (Mnemonic.ofOp (w.extractLsb' 24 5)) (w.getLsbD 29) (w.extractLsb' 0 24) = some i := by
  obtain h31 | ⟨h31, h30⟩ | ⟨h31, h30⟩ := decodeWord_cases w
  · rw [decodeWord_of_data h31, h31]
    split <;> simp
  · rw [decodeWord_of_reserved h31 h30, h30]
    simp
  · rw [decodeWord_of_fields h31 h30, h31, h30]
    cases decodeOperand _ _ _ <;> simp

/-- The fields of a data word, put together (R102). -/
theorem dataFields_iff {w : SlotWord} {b : Cell} :
    w.getLsbD 31 = false ∧ w.extractLsb' 8 23 = 0 ∧ w.extractLsb' 0 8 = b ↔ w = b.setWidth 32 := by
  have hw := w.isLt
  have hb := cell_toNat_lt b
  have h31 : w.getLsbD 31 = decide (2147483648 ≤ w.toNat) :=
    (BitVec.msb_eq_getLsbD_last w).symm.trans (BitVec.msb_eq_decide w)
  rw [h31, decide_eq_false_iff_not, ← BitVec.toNat_inj, ← BitVec.toNat_inj, ← BitVec.toNat_inj, BitVec.extractLsb'_toNat,
    BitVec.extractLsb'_toNat, BitVec.toNat_setWidth, Nat.shiftRight_eq_div_pow, Nat.shiftRight_zero]
  change ¬ 2147483648 ≤ w.toNat ∧ w.toNat / 256 % 8388608 = 0 ∧ w.toNat % 256 = b.toNat ↔ w.toNat = b.toNat % 4294967296
  omega

theorem decodeWord_eq_data {w : SlotWord} {b : Cell} : decodeWord w = .data b ↔ w = b.setWidth 32 := by
  rw [← dataFields_iff]
  obtain h31 | ⟨h31, h30⟩ | ⟨h31, h30⟩ := decodeWord_cases w
  · rw [decodeWord_of_data h31, h31]
    split <;> simp_all
  · rw [decodeWord_of_reserved h31 h30, h31]
    simp
  · rw [decodeWord_of_fields h31 h30, h31]
    cases decodeOperand _ _ _ <;> simp

theorem directInstr_ne_none {m : Mnemonic} (h : m.operandClass = .direct) : directInstr m ≠ none := by
  cases m <;> cases h <;> nofun

theorem relativeInstr_ne_none {m : Mnemonic} (h : m.operandClass = .relative) (off : Int) : relativeInstr m off ≠ none := by
  cases m <;> cases h <;> nofun

theorem tableInstr_ne_none {m : Mnemonic} (h : m.operandClass = .table) (k : Nat) : tableInstr m k ≠ none := by
  cases m <;> cases h <;> nofun

/-- The fields P and OFF that break the rule of the tag's class (R105). -/
theorem decodeOperand_eq_none {m : Mnemonic} {p : Bool} {off : BitVec 24} :
    decodeOperand m p off = none ↔ match m.operandClass with
      | .direct => p = true ∨ off ≠ 0
      | .relative => p = false
      | .table => p = false ∨ off.extractLsb' 5 19 ≠ 0 := by
  unfold decodeOperand
  cases h : m.operandClass with
  | direct => simp [directInstr_ne_none h, imp_iff_not_or]
  | relative => simp [relativeInstr_ne_none h]
  | table =>
    change (if p = true ∧ off.extractLsb' 5 19 = 0 then _ else _) = none ↔ (_ ∨ _)
    simp [tableInstr_ne_none h, imp_iff_not_or]

/-- The index field's high bits are the word's own. -/
theorem extractLsb'_offField (w : SlotWord) : (w.extractLsb' 0 24).extractLsb' 5 19 = w.extractLsb' 5 19 := by
  apply BitVec.eq_of_getLsbD_eq
  intro i hi
  rw [BitVec.getLsbD_extractLsb', BitVec.getLsbD_extractLsb', BitVec.getLsbD_extractLsb', Nat.zero_add,
    decide_eq_true (show 5 + i < 24 by omega), Bool.true_and]

/-- A word fails as data, by its reserved bit, or by its operand fields. -/
theorem decodeWord_eq_invalid {w : SlotWord} :
    (∃ reason, decodeWord w = .invalid reason) ↔
      (w.getLsbD 31 = false ∧ w.extractLsb' 8 23 ≠ 0) ∨
      (w.getLsbD 31 = true ∧ w.getLsbD 30 = true) ∨
      (w.getLsbD 31 = true ∧ w.getLsbD 30 = false ∧
        decodeOperand (Mnemonic.ofOp (w.extractLsb' 24 5)) (w.getLsbD 29) (w.extractLsb' 0 24) = none) := by
  obtain h31 | ⟨h31, h30⟩ | ⟨h31, h30⟩ := decodeWord_cases w
  · rw [decodeWord_of_data h31, h31]
    split <;> simp_all
  · rw [decodeWord_of_reserved h31 h30, h31, h30]
    simp
  · rw [decodeWord_of_fields h31 h30, h31, h30]
    cases decodeOperand _ _ _ <;> simp

/-- Settles O2: a word is its fields, and the fields the encoder gives an instruction decode to it. -/
theorem decodeOfEncodedWordIsTheInstruction : Obligations.DecodeOfEncodedWordIsTheInstruction := by
  intro i
  constructor
  · intro hwf hpack
    refine ⟨_, encodeWord_eq_some.mpr ⟨hwf, hpack, rfl⟩, ?_⟩
    rw [decodeWord_packFields, ofOp_op, decodeOperand_eq_some.mpr ⟨rfl, hwf, hpack, rfl, rfl⟩]
  · rintro (h | h)
    · rw [encodeWord, h, Bool.false_and, if_neg nofun]
    · rw [encodeWord, h, Bool.and_false, if_neg nofun]

/-- Settles O3: the fields of the word are those of the instruction, and the word is the packing of its fields. -/
theorem encodeOfDecodedWordIsTheWord : Obligations.EncodeOfDecodedWordIsTheWord := by
  intro w i h
  obtain ⟨h31, h30, hfields⟩ := decodeWord_eq_instr.mp h
  obtain ⟨htag, hwf, hpack, hp, hoff⟩ := decodeOperand_eq_some.mp hfields
  exact encodeWord_eq_some.mpr ⟨hwf, hpack, by rw [htag, op_ofOp, ← hp, ← hoff, packFields_of_word w h31 h30]⟩

/-- Settles O4: the three ways a word fails, the last by the rule of its class. -/
theorem illegalWordsAreExactlyThoseListed : Obligations.IllegalWordsAreExactlyThoseListed := by
  intro w
  have h := decodeWord_eq_invalid (w := w)
  rw [decodeOperand_eq_none, extractLsb'_offField] at h
  exact h

/-! ### Records -/

theorem wf_of_offset_none {i : Instr} (h : i.offset = none) : i.wf = true := by
  cases i <;> cases h <;> rfl

theorem wf_of_relative {i : Instr} (h : i.mnemonic.operandClass = .relative) : i.wf = true := by
  cases i <;> cases h <;> rfl

/-- A table-indirect instruction is well-formed iff its offset is an index of its table (R95). -/
theorem wf_iff_of_table {i : Instr} {k : Nat} (h : i.mnemonic.operandClass = .table) (hoff : i.offset = some (k : Int)) :
    i.wf = true ↔ k < 32 := by
  have hop := operand_of_class i
  rw [h] at hop
  obtain ⟨j, hj, hwf, -⟩ := hop
  obtain rfl : k = j := Int.ofNat.inj (Option.some.inj (hoff.symm.trans hj))
  rw [hwf, decide_eq_true_eq]

theorem decodeParts_eq_ok {m : Mnemonic} {offset : Option Int} {i : Instr} :
    decodeParts m offset = .ok i ↔ i.mnemonic = m ∧ offset = i.offset ∧ i.wf = true := by
  constructor
  · intro h
    unfold decodeParts at h
    split at h
    · next j hdirect =>
      cases h
      obtain ⟨hm, hoff⟩ := directInstr_eq_some.mp hdirect
      exact ⟨hm, hoff.symm, wf_of_offset_none hoff⟩
    · cases h
    · cases h
    · next off hdirect =>
      split at h
      · next hrel =>
        cases h
        obtain ⟨rfl, hclass, hoff⟩ := relativeInstr_eq_some.mp hrel
        exact ⟨rfl, hoff.symm, wf_of_relative hclass⟩
      · split at h
        · next hrange =>
          split at h
          · next htable =>
            cases h
            obtain ⟨rfl, hclass, hoff⟩ := tableInstr_eq_some.mp htable
            obtain ⟨hlo, hhi⟩ := hrange
            change off < 32 at hhi
            exact ⟨rfl, by rw [hoff, Int.toNat_of_nonneg hlo], (wf_iff_of_table hclass hoff).mpr (by omega)⟩
          · cases h
        · cases h
  · rintro ⟨rfl, rfl, hwf⟩
    cases i with
    | load k | call k | jmpa k =>
      have hk : k < 32 := of_decide_eq_true hwf
      exact if_pos ⟨Int.natCast_nonneg k, Int.ofNat_lt.mpr hk⟩
    | _ => rfl

theorem decodeRecord_eq_ok {r : Record} {i : Instr} :
    decodeRecord r = .ok i ↔ r.opcode = i.mnemonic.name ∧ r.offset = i.offset ∧ i.wf = true := by
  rw [← ofName_eq_some]
  unfold decodeRecord
  cases Mnemonic.ofName r.opcode with
  | none => simp
  | some m => simp only [decodeParts_eq_ok, Option.some.injEq, @eq_comm _ m]

/-- Settles O5: record decode answers the one instruction with the record's tag and offset, if that is well-formed. -/
theorem recordDecodeAcceptsExactlyTheLegalRecords : Obligations.RecordDecodeAcceptsExactlyTheLegalRecords :=
  fun _ _ => decodeRecord_eq_ok

/-! ### The slot of a word -/

theorem slotOfWord_of_data {w : SlotWord} {b : Cell} (h : decodeWord w = .data b) : slotOfWord w = .data b := by
  rw [slotOfWord, h]

theorem slotOfWord_of_instr {w : SlotWord} {i : Instr} (h : decodeWord w = .instr i) :
    slotOfWord w = .instr (encodeRecord i none) := by
  rw [slotOfWord, h]

/-- An Invalid word's slot is the record with the empty tag (Log 12). -/
theorem slotOfWord_of_invalid {w : SlotWord} {reason : InvalidReason} (h : decodeWord w = .invalid reason) :
    slotOfWord w = .instr { opcode := "", offset := none, debug := none } := by
  rw [slotOfWord, h]

/-- The record of a well-formed instruction decodes to it. -/
theorem decodeRecord_encodeRecord {i : Instr} (hwf : i.wf = true) (debug : Option Debug) :
    decodeRecord (encodeRecord i debug) = .ok i :=
  decodeRecord_eq_ok.mpr ⟨rfl, rfl, hwf⟩

/-- Settles O6: a data word by its fields, an instruction word by record decode of the instruction it decodes to, and an Invalid
word by the empty tag, which is none of the 32. -/
theorem wordFormAndRecordFormAgree : Obligations.WordFormAndRecordFormAgree := by
  refine ⟨fun b => ⟨rfl, decodeWord_eq_data.mpr rfl⟩, fun w => ?_⟩
  cases h : decodeWord w with
  | data b => exact ⟨decodeWord_eq_data.mp h, slotOfWord_of_data h⟩
  | instr i =>
    obtain ⟨-, -, hfields⟩ := decodeWord_eq_instr.mp h
    obtain ⟨-, hwf, -⟩ := decodeOperand_eq_some.mp hfields
    exact ⟨_, slotOfWord_of_instr h, decodeRecord_encodeRecord hwf none⟩
  | invalid reason => exact ⟨_, .unknownTag, slotOfWord_of_invalid h, by decide⟩

end Sys2Proof
end

section
/-! PROOFS, what an instruction and a step keep: each field of the state, said once of every instruction, and the invariants that
follow. -/

namespace Sys2Proof.Machine

/-- What an instruction `i` that takes `s` to `t` keeps. Each field of the structure is by default kept because it is not written;
a case names what its instruction writes. -/
structure Kept (i : Instr) (s t : State) : Prop where
  imem : t.imem = s.imem := by rfl
  tick : t.tick = s.tick := by rfl
  debug : t.debug = s.debug := by rfl
  flags : writesFlags i = false → t.flags = s.flags := by exact fun _ => rfl
  ds : writesDs i = false → t.ds = s.ds := by exact fun _ => rfl
  rs : writesRs i = false → t.rs = s.rs := by exact fun _ => rfl
  pc : transfersControl i = false → t.pc = s.pc := by exact fun _ => rfl
  ram : i ≠ .set → t.ram = s.ram := by exact fun _ => rfl
  ramCell : ∀ a, a ≠ t.ad → t.ram.read a = s.ram.read a := by exact fun _ _ => rfl
  ad : i ≠ .get → i ≠ .set → (∀ k, i ≠ .load k) → t.ad = s.ad := by exact fun _ _ _ => rfl
  status : i ≠ .hlt → t.status = s.status := by exact fun _ => rfl
  dsWf : s.ds.wf → t.ds.wf := by exact id
  rsWf : s.rs.wf → t.rs.wf := by exact id
  ramWf : s.ram.wf → t.ram.wf := by exact id

theorem exec_kept {i : Instr} {s t : State} (h : exec i s = .next t) : Kept i s t := by
  have h := exec_frame h
  cases i with
  | sum | sub | mul | div | mod | inc | dec =>
    obtain ⟨S, F, hS, rfl⟩ := h
    exact { flags := nofun, ds := nofun, dsWf := hS }
  | tdiv | tmod =>
    obtain ⟨S, F, d, hS, rfl⟩ := h
    exact { flags := nofun, ds := nofun, dsWf := hS }
  | cmp =>
    obtain ⟨F, d, rfl⟩ := h
    exact { flags := nofun }
  | dup | drop | swap | overCell | rot | pushTrue | pushFalse =>
    obtain ⟨S, hS, rfl⟩ := h
    exact { ds := nofun, dsWf := hS }
  | tor | rfrom =>
    obtain ⟨S, R, hS, hR, rfl⟩ := h
    exact { ds := nofun, rs := nofun, dsWf := hS, rsWf := hR }
  | get =>
    obtain ⟨a, S, hS, rfl⟩ := h
    exact { ds := nofun, dsWf := hS, ad := fun hne => absurd rfl hne }
  | load k =>
    obtain ⟨a, S, hS, rfl⟩ := h
    exact { ds := nofun, dsWf := hS, ad := fun _ _ hne => absurd rfl (hne k) }
  | set =>
    obtain ⟨a, S, v, hS, rfl⟩ := h
    exact { ds := nofun, dsWf := hS, ad := fun _ hne => absurd rfl hne, ram := fun hne => absurd rfl hne
            ramCell := fun b hb => (Memory.read_write s.ram a v b).trans (if_neg hb), ramWf := Memory.wf_write }
  | print =>
    obtain ⟨S, hS, rfl⟩ := h
    exact { ds := nofun, dsWf := hS }
  | read =>
    obtain ⟨rest, x, -, rfl⟩ := h
    exact { ds := nofun, dsWf := Stack.push_wf }
  | jmpr _ | jz _ | jl _ | jo _ | jmpa _ =>
    obtain ⟨p, rfl⟩ := h
    exact { pc := nofun }
  | call _ | ret =>
    obtain ⟨R, p, hR, rfl⟩ := h
    exact { pc := nofun, rs := nofun, rsWf := hR }
  | hlt =>
    subst h
    exact { status := fun hne => absurd rfl hne }

/-- HLT is the one instruction that ends the run (R229). -/
theorem exec_status {i : Instr} {s t : State} (h : exec i s = .next t) :
    t.status = if i = .hlt then .halted else s.status := by
  split
  · next hi =>
    subst hi
    rw [exec_frame h]
    rfl
  · next hi => exact (exec_kept h).status hi

/-! ### The laws over the instructions -/

/-- Settles O43, the flags among what an instruction keeps. -/
theorem onlyAluInstructionsWriteFlags : Obligations.OnlyAluInstructionsWriteFlags :=
  fun _ _ _ hi h => (exec_kept h).flags hi

/-- Settles O44, the memories and `ad` among what an instruction keeps. -/
theorem memoriesChangeOnlyAsTheirRulesSay : Obligations.MemoriesChangeOnlyAsTheirRulesSay := by
  intro i s t h
  have hkept := exec_kept h
  refine ⟨hkept.imem, hkept.ram, fun _ => hkept.ramCell, fun hne => ?_⟩
  by_contra hi
  obtain ⟨hget, hset, hload⟩ := not_or.mp hi |>.imp_right not_or.mp
  exact hne (hkept.ad hget hset (not_exists.mp hload))

/-- Settles O47, the stacks among what an instruction keeps. -/
theorem eachStackIsTouchedOnlyByItsInstructions : Obligations.EachStackIsTouchedOnlyByItsInstructions := by
  intro i s t h
  have hkept := exec_kept h
  refine ⟨fun htor hrfrom hret hcall => hkept.rs ?_, fun hi => hkept.ds ?_⟩
  · cases i with
    | tor => exact absurd rfl htor
    | rfrom => exact absurd rfl hrfrom
    | ret => exact absurd rfl hret
    | call k => exact absurd rfl (hcall k)
    | _ => rfl
  · obtain rfl | rfl | rfl | ⟨k, rfl | rfl⟩ | ⟨o, rfl | rfl | rfl | rfl⟩ := hi <;> rfl

/-- With any other value in the tick counter an instruction answers alike but for the counter. -/
theorem exec_withTick (i : Instr) (s : State) (n : Nat) :
    exec i (s.withTick n) = mapNext (State.withTick · n) (exec i s) := by
  by_cases hi : i = .print
  · subst hi
    have hmap := exec_print_mapOutTick id (fun _ => n) s
    cases h : exec .print s with
    | next t =>
      obtain ⟨S, -, rfl⟩ := exec_frame h
      rw [h] at hmap
      exact hmap
    | fault f => rw [h] at hmap; exact hmap
    | refused r => rw [h] at hmap; exact hmap
  · exact exec_mapOutTick id (fun _ => n) hi s

/-- Settles O46: `exec_withTick`, and the counter among what an instruction keeps. -/
theorem noInstructionReadsTheTickCounter : Obligations.NoInstructionReadsTheTickCounter :=
  fun i s n =>
    ⟨fun t h => ⟨(exec_kept h).tick, by rw [exec_withTick, h, mapNext_next]⟩,
     fun f h => by rw [exec_withTick, h, mapNext_fault]⟩

/-! ### The invariant -/

@[simp] theorem addTicks_tick (n : Nat) (s : State) : (addTicks n s).tick = s.tick + n + Config.freeTicks s.draws := rfl
@[simp] theorem addTicks_status (n : Nat) (s : State) : (addTicks n s).status = s.status := rfl

/-- What depends on the memories and the status alone holds after an instruction's ticks are counted if it did before. -/
theorem inv_addTicks {n : Nat} {s : State} (h : s.Inv) : (addTicks n s).Inv := h

theorem inv_fetched {s : State} {r : Record} (h : s.Inv) : (s.fetched r).Inv := h

/-- An instruction keeps the invariant. -/
theorem exec_keeps_inv {i : Instr} {s t : State} (hs : s.Inv) (h : exec i s = .next t) : t.Inv := by
  have hkept := exec_kept h
  obtain ⟨⟨hram, hds, hrs, himem⟩, hshape, hstatus⟩ := hs
  refine ⟨⟨hkept.ramWf hram, hkept.dsWf hds, hkept.rsWf hrs, hkept.imem ▸ himem⟩, ?_, ?_⟩
  · unfold State.ImageShaped
    rw [hkept.imem]
    exact hshape
  · rw [exec_status h]
    split
    · nofun
    · exact hstatus

/-- Settles O56: the fetch and the count of ticks touch nothing the invariant speaks of, and the instruction keeps it. -/
theorem everyStepKeepsTheInvariant : Obligations.EveryStepKeepsTheInvariant := by
  intro s t hs h
  obtain ⟨-, r, i, u, -, -, hexec, rfl⟩ := step_eq_next.mp h
  exact inv_addTicks (exec_keeps_inv (inv_fetched hs) hexec)

/-- Settles O55: the empty lists are canonical, and an unlisted slot reads as the layout of an image asks. -/
theorem invariantHoldsAtReset : Obligations.InvariantHoldsAtReset := by
  refine ⟨by decide, fun a => ?_, nofun⟩
  have hread : State.reset.imem.read a = IMem.unlisted a.toNat := rfl
  rw [hread, IMem.unlisted]
  split
  · exact ⟨0, rfl⟩
  · nofun

end Sys2Proof.Machine
end

section
/-! PROOFS, the elements of a stack (20_memory.md R55, R57): a pop and a push move each by one place. -/

namespace Sys2Proof.Machine

/-- Two places counted from two pointers one apart are one place. -/
theorem sp_add_one_sub_succ (p : StackPtr) (k : Nat) :
    p + 1 - BitVec.ofNat 16 (k + 1) = p - BitVec.ofNat 16 k := by
  rw [BitVec.ofNat_add]
  exact add_sub_add_right_eq_sub p _ _

/-- The place below the top `k` is none above the top. -/
theorem sp_sub_ne_sp_add_one {S : Stack} {k : Nat} (h : k < S.depth) (hfull : S.depth < 65535) :
    S.sp - BitVec.ofNat 16 k ≠ S.sp + 1 := by
  rw [Stack.depth_eq] at h hfull
  intro heq
  have := congrArg BitVec.toNat heq
  rw [BitVec.toNat_sub, BitVec.toNat_add, BitVec.toNat_ofNat] at this
  change (65536 - k % 65536 + S.sp.toNat) % 65536 = (S.sp.toNat + 1) % 65536 at this
  omega

theorem Stack.depth_push {S : Stack} (h : S.depth < 65535) (v : Cell) : (S.push v).depth = S.depth + 1 := by
  rw [Stack.depth_eq] at h
  rw [Stack.depth_eq, Stack.depth_eq, Stack.push_sp, BitVec.toNat_add]
  exact Nat.mod_eq_of_lt (by change S.sp.toNat + 1 < 65536; omega)

theorem Stack.elem_push_zero {S : Stack} (h : S.depth < 65535) (v : Cell) : (S.push v).elem 0 = some v :=
  Stack.elem_zero.mpr ⟨by rw [Stack.depth_push h]; omega, rfl⟩

theorem Stack.elem_push_succ {S : Stack} (h : S.depth < 65535) (v : Cell) (k : Nat) :
    (S.push v).elem (k + 1) = S.elem k := by
  have hdepth := Stack.depth_push h v
  by_cases hk : S.depth ≤ k
  · rw [Stack.elem_eq_none.mpr hk, Stack.elem_eq_none, hdepth]
    omega
  · obtain ⟨x, hx⟩ := Option.isSome_iff_exists.mp ((S.elem_isSome k).mpr (Nat.lt_of_not_le hk))
    rw [hx, Stack.elem_succ, hdepth, Stack.push_sp, Stack.push_read]
    refine ⟨by omega, ?_⟩
    cases k with
    | zero =>
      have htop : S.sp + 1 - BitVec.ofNat 16 0 = S.sp + 1 := BitVec.sub_zero _
      rw [htop, if_pos rfl]
      exact (Stack.elem_zero.mp hx).2
    | succ k =>
      rw [sp_add_one_sub_succ, if_neg (sp_sub_ne_sp_add_one (by omega) h)]
      exact (Stack.elem_succ.mp hx).2

theorem Stack.depth_of_pop {S T : Stack} {c : Cell} (h : S.pop = some (c, T)) : S.depth = T.depth + 1 := by
  obtain ⟨hne, -, rfl⟩ := Stack.pop_eq_some.mp h
  have hpos := mt S.depth_eq_zero.mp hne
  have hlt := S.depth_lt
  rw [Stack.depth_eq] at hpos hlt ⊢
  rw [Stack.depth_eq, BitVec.toNat_sub]
  change S.sp.toNat = (65536 - 1 + S.sp.toNat) % 65536 + 1
  omega

theorem Stack.elem_of_pop {S T : Stack} {c : Cell} (h : S.pop = some (c, T)) (k : Nat) : T.elem k = S.elem (k + 1) := by
  have hdepth := Stack.depth_of_pop h
  obtain ⟨-, -, rfl⟩ := Stack.pop_eq_some.mp h
  by_cases hk : S.depth ≤ k + 1
  · rw [Stack.elem_eq_none.mpr hk, Stack.elem_eq_none]
    omega
  · obtain ⟨x, hx⟩ := Option.isSome_iff_exists.mp ((S.elem_isSome (k + 1)).mpr (Nat.lt_of_not_le hk))
    obtain ⟨-, hread⟩ := Stack.elem_succ.mp hx
    rw [hx]
    cases k with
    | zero =>
      have htop : S.sp - BitVec.ofNat 16 0 = S.sp := BitVec.sub_zero _
      exact Stack.elem_zero.mpr ⟨by omega, htop ▸ hread⟩
    | succ k =>
      have hplace := sp_add_one_sub_succ (S.sp - 1) k
      rw [BitVec.sub_add_cancel] at hplace
      exact Stack.elem_succ.mpr ⟨by omega, hplace ▸ hread⟩

/-- A stack with a live top pops it. -/
theorem Stack.pop_of_elem {S : Stack} {c : Cell} (h : S.elem 0 = some c) :
    ∃ T, S.pop = some (c, T) ∧ ∀ k, T.elem k = S.elem (k + 1) := by
  obtain ⟨hpos, htos⟩ := Stack.elem_zero.mp h
  have hpop := Stack.pop_eq_some.mpr ⟨mt S.depth_eq_zero.mpr hpos.ne', htos.symm, rfl⟩
  exact ⟨_, hpop, Stack.elem_of_pop hpop⟩

/-- A pop of what was just pushed. -/
theorem Stack.pop_push {S : Stack} (h : S.depth < 65535) (v : Cell) :
    ∃ T, (S.push v).pop = some (v, T) ∧ T.sp = S.sp ∧ T.tos = S.tos ∧ ∀ k, T.elem k = S.elem k := by
  obtain ⟨T, hpop, helem⟩ := Stack.pop_of_elem (Stack.elem_push_zero h v)
  obtain ⟨-, -, htos, hsp, -⟩ := Stack.popped_of_pop_eq_some hpop
  refine ⟨T, hpop, ?_, ?_, fun k => (helem k).trans (Stack.elem_push_succ h v k)⟩
  · rw [hsp, Stack.push_sp]
    exact add_sub_cancel_right S.sp 1
  · rw [htos, Stack.push_sp, Stack.push_read, if_pos rfl]

/-- Settles O9: below the wrap each element moves one place by the push and back by the pop; a full stack wraps to its sentinel,
where no element is live. -/
theorem pushShiftsTheElementsAndPopUndoesIt : Obligations.PushShiftsTheElementsAndPopUndoesIt := by
  refine fun S v => ⟨fun h => ?_, fun h => ?_⟩
  · exact ⟨Stack.depth_push h v, Stack.elem_push_zero h v, Stack.elem_push_succ h v, Stack.pop_push h v⟩
  · have hsp := Stack.push_sp_of_full h v
    have hdepth := (S.push v).depth_eq_zero.mpr hsp
    exact ⟨hdepth, Stack.pop_eq_none.mpr hsp, fun k => Stack.elem_eq_none.mpr (hdepth ▸ Nat.zero_le k)⟩

/-- A push after a pop replaces the top alone: the cell it copies down was there (R52, R53). -/
theorem topReplaced_of_popped {S T : Stack} {c : Cell} (h : Popped S T c) (v : Cell) : TopReplaced 1 S (T.push v) v := by
  obtain ⟨-, -, htos, hsp, hread⟩ := h
  have htop : T.sp + 1 = S.sp := by rw [hsp, BitVec.sub_add_cancel]
  refine ⟨?_, T.push_tos v, fun a => ?_⟩
  · rw [Stack.push_sp, htop]
    exact (BitVec.sub_zero _).symm
  · rw [Stack.push_read, htop, htos]
    split
    · next ha => rw [ha]
    · exact hread a

end Sys2Proof.Machine
end

section
/-! PROOFS, the stack family (42_stack_ops.md): each instruction by its pops, pushes and reads of elements. -/

namespace Sys2Proof.Machine

/-! ### Operands, one at a time -/

theorem popDs_of_pop {s : State} {c : Cell} {T : Stack} (h : s.ds.pop = some (c, T)) : popDs s = .ok (c, s.withDs T) :=
  popDs_eq_ok.mpr ⟨h, rfl⟩

/-- A sequence of pops underflows if its first pop does, or else the rest, which has one element less. -/
theorem popDs_bind_underflow {β : Type} {s : State} {g : Cell × State → Except Fault β} {n : Nat} (h : s.ds.depth < n + 1)
    (hg : ∀ c T, T.depth < n → g (c, s.withDs T) = .error (.stackUnderflow s.faultPc s.debug)) :
    (popDs s >>= g) = .error (.stackUnderflow s.faultPc s.debug) := by
  cases hpop : s.ds.pop with
  | none => exact bind_eq_error.mpr (.inl (popDs_eq_error.mpr ⟨hpop, rfl⟩))
  | some p =>
    obtain ⟨c, T⟩ := p
    have hdepth := Stack.depth_of_pop hpop
    exact bind_eq_error.mpr (.inr ⟨_, popDs_of_pop hpop, hg c T (by omega)⟩)

/-- A last pop on an empty stack. -/
theorem popDs_bind_underflow_of_empty {β : Type} {s : State} {g : Cell × State → Except Fault β} (h : s.ds.depth < 1) :
    (popDs s >>= g) = .error (.stackUnderflow s.faultPc s.debug) :=
  popDs_bind_underflow h fun _ _ hT => absurd hT (Nat.not_lt_zero _)

theorem elemDs_of_elem {s : State} {k : Nat} {c : Cell} (h : s.ds.elem k = some c) : elemDs k s = .ok c :=
  elemDs_eq_ok.mpr h

theorem elemDs_underflow {s : State} {k : Nat} (h : s.ds.depth ≤ k) :
    elemDs k s = .error (.stackUnderflow s.faultPc s.debug) :=
  elemDs_eq_error.mpr ⟨Stack.elem_eq_none.mpr h, rfl⟩

/-! ### DUP, OVER, DROP, SWAP -/

/-- An instruction that pushes a copy of an element faults where that is not live. -/
theorem exec_of_copy {i : Instr} {k : Nat} (hexec : ∀ s, exec i s = finish (elemDs k s >>= fun x => .ok (pushDs x s)))
    (s : State) :
    (s.ds.depth ≤ k → exec i s = .fault (.stackUnderflow s.faultPc s.debug)) ∧
    ∀ x, s.ds.elem k = some x → ∃ t, exec i s = .next t ∧ t = s.withDs t.ds ∧ Pushed s.ds t.ds x := by
  refine ⟨fun h => ?_, fun x hx => ⟨pushDs x s, ?_, rfl, s.ds.pushed_push x⟩⟩
  · rw [hexec, elemDs_underflow h, bind_error, finish_error]
  · rw [hexec, elemDs_of_elem hx, bind_ok, finish_ok]

/-- Settles O21: DUP copies element 0. -/
theorem dupRule : Obligations.DupRule :=
  ⟨by decide, fun s => (exec_of_copy (fun _ => rfl) s).imp_left fun h hdepth => h hdepth.le⟩

/-- Settles O24: OVER copies element 1. -/
theorem overRule : Obligations.OverRule :=
  ⟨by decide, fun s => (exec_of_copy (fun _ => rfl) s).imp_left fun h hdepth => h (Nat.le_of_lt_succ hdepth)⟩

/-- Settles O22: DROP is a pop. -/
theorem dropRule : Obligations.DropRule := by
  refine ⟨by decide, fun s => ⟨fun hdepth => ?_, fun x hx => ?_⟩⟩
  · exact finish_eq_fault.mpr (popDs_bind_underflow_of_empty (by omega))
  · obtain ⟨T, hpop, -⟩ := Stack.pop_of_elem hx
    exact ⟨_, finish_eq_next.mpr (bind_eq_ok.mpr ⟨_, popDs_of_pop hpop, rfl⟩), rfl, Stack.popped_of_pop_eq_some hpop⟩

/-- What SWAP leaves on a stack of two elements or more. -/
theorem Stack.swap_of_elems {S : Stack} {a b : Cell} (ha : S.elem 1 = some a) (hb : S.elem 0 = some b) :
    ∃ T, S.swap = some T ∧ T.sp = S.sp ∧ T.elem 1 = some b ∧ T.elem 0 = some a ∧
      ∀ p, T.data.read p = if p = S.sp then S.tos else S.data.read p := by
  obtain ⟨hdepth, hread⟩ := Stack.elem_succ.mp ha
  obtain ⟨-, htos⟩ := Stack.elem_zero.mp hb
  have htop : S.sp - BitVec.ofNat 16 0 = S.sp := BitVec.sub_zero _
  rw [htop] at hread
  have hcell : ∀ p, (S.data.write S.sp S.tos).read p = if p = S.sp then S.tos else S.data.read p :=
    Memory.read_write S.data S.sp S.tos
  refine ⟨_, Stack.swap_eq_some.mpr ⟨hdepth, rfl⟩, rfl, Stack.elem_succ.mpr ⟨hdepth, ?_⟩,
    Stack.elem_zero.mpr ⟨Nat.zero_lt_of_lt hdepth, hread⟩, hcell⟩
  exact (congrArg _ htop).trans ((hcell S.sp).trans ((if_pos rfl).trans htos))

/-- Settles O23, by what the exchange leaves on the stack. -/
theorem swapRule : Obligations.SwapRule := by
  refine ⟨by decide, fun s => ⟨fun hdepth => ?_, fun a b ha hb => ?_⟩⟩
  · exact finish_eq_fault.mpr (bind_eq_error.mpr (.inl (orRaise_eq_error.mpr ⟨Stack.swap_eq_none.mpr hdepth, rfl⟩)))
  · obtain ⟨T, hswap, hT⟩ := Stack.swap_of_elems ha hb
    exact ⟨_, finish_eq_next.mpr (bind_eq_ok.mpr ⟨T, orRaise_eq_ok.mpr hswap, rfl⟩), rfl, hT⟩

/-! ### TOR, RFROM, TRUE, FALSE -/

/-- Settles O26: a pop of DS and a push on RS. -/
theorem torRule : Obligations.TorRule := by
  refine ⟨by decide, fun s => ⟨fun hdepth => ?_, fun x hx => ?_⟩⟩
  · exact finish_eq_fault.mpr (popDs_bind_underflow_of_empty (by omega))
  · obtain ⟨T, hpop, -⟩ := Stack.pop_of_elem hx
    exact ⟨_, finish_eq_next.mpr (bind_eq_ok.mpr ⟨_, popDs_of_pop hpop, rfl⟩), rfl, Stack.popped_of_pop_eq_some hpop,
      s.rs.pushed_push x⟩

/-- Settles O27: a pop of RS and a push on DS. -/
theorem rfromRule : Obligations.RfromRule := by
  refine ⟨by decide, fun s => ⟨fun hdepth => ?_, fun x hx => ?_⟩⟩
  · exact finish_eq_fault.mpr (bind_eq_error.mpr (.inl (popRs_of_eq (s.rs.depth_eq_zero.mp hdepth))))
  · obtain ⟨T, hpop, -⟩ := Stack.pop_of_elem hx
    exact ⟨_, finish_eq_next.mpr (bind_eq_ok.mpr ⟨_, popRs_of_pop hpop, rfl⟩), rfl, Stack.popped_of_pop_eq_some hpop,
      s.ds.pushed_push x⟩

/-- Settles O28: each is a push of its parameter. -/
theorem trueAndFalseRules : Obligations.TrueAndFalseRules :=
  ⟨by decide, by decide, fun s =>
    ⟨⟨_, rfl, rfl, s.ds.pushed_push Config.trueCell⟩, ⟨_, rfl, rfl, s.ds.pushed_push Config.falseCell⟩⟩⟩

/-! ### ROT -/

theorem exec_rot_of_depth_lt_three {s : State} (h : s.ds.depth < 3) :
    exec .rot s = .fault (.stackUnderflow s.faultPc s.debug) :=
  finish_eq_fault.mpr <| popDs_bind_underflow h fun _ T hT =>
    popDs_bind_underflow (s := s.withDs T) hT fun _ U hU => popDs_bind_underflow_of_empty (s := (s.withDs T).withDs U) hU

theorem exec_rot_of_pops {s : State} {a b c : Cell} {T U V : Stack} (hT : s.ds.pop = some (c, T)) (hU : T.pop = some (b, U))
    (hV : U.pop = some (a, V)) : exec .rot s = .next (s.withDs (((V.push b).push c).push a)) :=
  finish_eq_next.mpr <| bind_eq_ok.mpr ⟨_, popDs_of_pop hT, bind_eq_ok.mpr ⟨_, popDs_of_pop (s := s.withDs T) hU,
    bind_eq_ok.mpr ⟨_, popDs_of_pop (s := s.withDs U) hV, rfl⟩⟩⟩

/-- A push one place lower than the pop before it: the array changes at one cell. -/
theorem push_read_of_ne {S : Stack} {p q : StackPtr} (v : Cell) (hp : S.sp + 1 = p) (hq : q ≠ p) :
    (S.push v).data.read q = S.data.read q := by
  rw [Stack.push_read, hp, if_neg hq]

/-- Settles O25: three pops and three pushes, the first of which copies down a cell that was there. -/
theorem rotRule : Obligations.RotRule := by
  refine ⟨by decide, fun s => ⟨exec_rot_of_depth_lt_three, fun a b c ha hb hc => ?_⟩⟩
  obtain ⟨T, hT, helemT⟩ := Stack.pop_of_elem hc
  obtain ⟨U, hU, helemU⟩ := Stack.pop_of_elem ((helemT 0).trans hb)
  obtain ⟨V, hV, -⟩ := Stack.pop_of_elem ((helemU 0).trans ((helemT 1).trans ha))
  obtain ⟨-, -, -, hspT, hreadT⟩ := Stack.popped_of_pop_eq_some hT
  have hpopU := Stack.popped_of_pop_eq_some hU
  obtain ⟨-, -, -, hspU, hreadU⟩ := hpopU
  obtain ⟨hspV, -, hreadV⟩ := topReplaced_of_popped (Stack.popped_of_pop_eq_some hV) b
  have hfull := s.ds.depth_lt
  have hdepthT := Stack.depth_of_pop hT
  have hdepthU := Stack.depth_of_pop hU
  have hdepthV := Stack.depth_of_pop hV
  have hdepth0 : V.depth < 65535 := by omega
  have hdepth1 := Stack.depth_push hdepth0 b
  have hdepth2 := Stack.depth_push (S := V.push b) (by omega) c
  have hsp1 : (V.push b).sp + 1 = s.ds.sp - 1 := by
    rw [hspV, hspU, hspT]
    exact (congrArg (· + 1) (BitVec.sub_zero _)).trans (BitVec.sub_add_cancel _ _)
  have hsp2 : ((V.push b).push c).sp + 1 = s.ds.sp := by
    rw [Stack.push_sp, hsp1, BitVec.sub_add_cancel]
  refine ⟨_, exec_rot_of_pops hT hU hV, rfl, hsp2, ?_, ?_, Stack.elem_push_zero (by omega) a, fun p hp hp1 => ?_⟩
  · rw [State.withDs_ds, Stack.elem_push_succ (by omega), Stack.elem_push_succ (by omega), Stack.elem_push_zero hdepth0]
  · rw [State.withDs_ds, Stack.elem_push_succ (by omega), Stack.elem_push_zero (by omega)]
  · rw [State.withDs_ds, push_read_of_ne a hsp2 hp, push_read_of_ne c hsp1 hp1, hreadV, hreadU, hreadT]

end Sys2Proof.Machine
end

section
/-! PROOFS, the ALU family beside SUM, SUB, MUL (41_alu.md): DIV and MOD, the instructions in place, CMP, the 24-bit divisions, and
the laws of what they compute. -/

namespace Sys2Proof.Machine

/-! ### DIV and MOD -/

theorem divCells_of_ne {m : Config.DivRounding} {a b : Cell} (h : b ≠ 0) :
    divCells m a b = reduced (divq m a.toInt b.toInt) := if_neg h

theorem modCells_of_ne {m : Config.DivRounding} {a b : Cell} (h : b ≠ 0) :
    modCells m a b = (BitVec.ofInt 8 (divr m a.toInt b.toInt), flagsOf (BitVec.ofInt 8 (divr m a.toInt b.toInt)) false) :=
  if_neg h

/-- The result of an 8-bit division by zero, DIV's and MOD's. -/
theorem divCells_zero (m : Config.DivRounding) (a : Cell) : divCells m a 0 = divideByZeroResult := rfl

theorem modCells_zero (m : Config.DivRounding) (a : Cell) : modCells m a 0 = divideByZeroResult := rfl

/-- A word reduced from an integer is that integer modulo the number of words. -/
theorem ofInt_toNat_eq_emod (w : Nat) (x : Int) : ((BitVec.ofInt w x).toNat : Int) = x % ((2 ^ w : Nat) : Int) := by
  rw [BitVec.toNat_ofInt]
  exact Int.toNat_of_nonneg (Int.emod_nonneg x (Int.natCast_ne_zero.mpr (Nat.two_pow_pos w).ne'))

theorem flagsOf_eq (r : Cell) (v : Bool) : flagsOf r v = { z := decide (r = 0), n := decide (128 ≤ r.toNat), v := v } := by
  rw [flagsOf, cell_msb_eq]

/-- Settles O14: by a zero divisor the fixed result, and else the reduced quotient. -/
theorem divRule : Obligations.DivRule := by
  refine binaryRule_of_binaryAlu (f := divCells Config.divRounding) (by decide) (fun _ => rfl) fun a b => ⟨?_, ?_⟩
  · rintro rfl
    rw [divCells_zero]
    exact ⟨rfl, rfl⟩
  · intro hb
    rw [divCells_of_ne hb]
    exact reducedResult_reduced _

/-- Settles O15: by a zero divisor the fixed result, and else the remainder, whose V is 0. -/
theorem modRule : Obligations.ModRule := by
  refine binaryRule_of_binaryAlu (f := modCells Config.divRounding) (by decide) (fun _ => rfl) fun a b => ⟨?_, ?_⟩
  · rintro rfl
    rw [modCells_zero]
    exact ⟨rfl, rfl⟩
  · intro hb
    rw [modCells_of_ne hb]
    exact ⟨ofInt_toNat_eq_emod 8 _, flagsOf_eq _ false⟩

/-! ### INC and DEC -/

/-- An instruction whose meaning is `unaryAlu f` meets the rule of the instructions in place, for what `f` answers. -/
theorem inPlaceRule_of_unaryAlu {word : SlotWord} {i : Instr} {f : Cell → Flags → Cell × Flags} {result : Cell → Int}
    {v : Cell → Bool → Bool} (hword : decodeWord word = .instr i) (hexec : ∀ s, exec i s = finish (unaryAlu f s))
    (hresult : ∀ x old, ((f x old).1.toNat : Int) = result x % 256)
    (hflags : ∀ x old, (f x old).2 = flagsOf (f x old).1 (v x old.v)) : InPlaceRule word i result v := by
  refine ⟨hword, fun s => ⟨fun hdepth => ?_, fun x hx => ?_⟩⟩
  · rw [hexec]
    exact finish_eq_fault.mpr (bind_eq_error.mpr (.inl (elemDs_underflow hdepth.le)))
  · have hrun : exec i s = .next ((s.withDs { s.ds with tos := (f x s.flags).1 }).withFlags (f x s.flags).2) := by
      rw [hexec]
      exact finish_eq_next.mpr (bind_eq_ok.mpr ⟨x, elemDs_of_elem hx, rfl⟩)
    refine ⟨_, hrun, rfl, ⟨(BitVec.sub_zero _).symm, rfl, fun _ => rfl⟩, hresult x s.flags, ?_⟩
    rw [State.withFlags_flags, hflags, flagsOf_eq]
    exact ⟨rfl, rfl, rfl⟩

/-- Settles O16: the increment in place, V by the wrap and the open parameter. -/
theorem incRule : Obligations.IncRule := by
  refine inPlaceRule_of_unaryAlu (f := incCell Config.incDecOvf) (by decide) (fun _ => rfl) (fun x _ => ?_) fun _ _ => rfl
  have hx := cell_toNat_lt x
  change ((x + 1).toNat : Int) = _
  rw [BitVec.toNat_add]
  change (((x.toNat + 1) % 256 : Nat) : Int) = (x.toNat + 1 : Int) % 256
  omega

/-- Settles O17: the decrement in place, V by the open parameter. -/
theorem decRule : Obligations.DecRule := by
  refine inPlaceRule_of_unaryAlu (f := decCell Config.incDecOvf) (by decide) (fun _ => rfl) (fun x _ => ?_) fun _ _ => rfl
  have hx := cell_toNat_lt x
  change ((x - 1).toNat : Int) = _
  rw [BitVec.toNat_sub]
  change (((256 - 1 + x.toNat) % 256 : Nat) : Int) = (x.toNat - 1 : Int) % 256
  omega

/-! ### CMP -/

/-- The order CMP computes from the signs and the unsigned values is that of the signed values (D21). -/
theorem cmpNegative_eq (a b : Cell) : cmpNegative a b = decide (a.toInt < b.toInt) := by
  rw [← BitVec.slt_eq_decide, cmpNegative]
  split
  · next hmsb => rw [BitVec.slt_eq_not_ult_of_msb_neq hmsb, BitVec.ult_eq_msb_of_msb_neq hmsb, Bool.eq_not.mpr hmsb]
  · next hmsb => rw [BitVec.slt_eq_ult_of_msb_eq (not_not.mp hmsb), BitVec.ult_eq_decide]

theorem exec_cmp_of_elems {s : State} {a b : Cell} (ha : s.ds.elem 1 = some a) (hb : s.ds.elem 0 = some b) :
    exec .cmp s = .next ((s.withDraws (s.draws + 1)).withFlags
      { z := decide (a = b), n := cmpNegative a b, v := Config.freeFlag s.draws }) :=
  finish_eq_next.mpr (bind_eq_ok.mpr ⟨b, elemDs_of_elem hb, bind_eq_ok.mpr ⟨a, elemDs_of_elem ha, rfl⟩⟩)

/-- CMP faults at the first of its two reads that is of no live element. -/
theorem exec_cmp_of_depth_lt_two {s : State} (h : s.ds.depth < 2) :
    exec .cmp s = .fault (.stackUnderflow s.faultPc s.debug) := by
  refine finish_eq_fault.mpr (bind_eq_error.mpr ?_)
  cases hb : s.ds.elem 0 with
  | none => exact .inl (elemDs_underflow (Stack.elem_eq_none.mp hb))
  | some b => exact .inr ⟨b, elemDs_of_elem hb, bind_eq_error.mpr (.inl (elemDs_underflow (Nat.le_of_lt_succ h)))⟩

/-- Settles O18: two reads of live elements, and the flags of their comparison. -/
theorem cmpRule : Obligations.CmpRule :=
  ⟨by decide, fun _ => ⟨exec_cmp_of_depth_lt_two, fun a b ha hb =>
    ⟨_, exec_cmp_of_elems ha hb, rfl, rfl, cmpNegative_eq a b⟩⟩⟩

/-! ### TDIV and TMOD -/

theorem pop24_of_depth_lt_three {s : State} (h : s.ds.depth < 3) :
    pop24 s = .error (.stackUnderflow s.faultPc s.debug) :=
  popDs_bind_underflow h fun _ T hT =>
    popDs_bind_underflow (s := s.withDs T) hT fun _ U hU => popDs_bind_underflow_of_empty (s := (s.withDs T).withDs U) hU

theorem Stack.exists_elem {S : Stack} {k : Nat} (h : k < S.depth) : ∃ x, S.elem k = some x :=
  Option.isSome_iff_exists.mp ((S.elem_isSome k).mpr h)

/-- Three pops answer the operand with its high cell on top, the last of them from a stack that reads as the first, and move every
element three places. -/
theorem pop24_of_elems {s : State} {l m h : Cell} (hl : s.ds.elem 2 = some l) (hm : s.ds.elem 1 = some m)
    (hh : s.ds.elem 0 = some h) :
    ∃ W U, pop24 s = .ok (h ++ m ++ l, s.withDs U) ∧ Popped W U l ∧ W.sp = s.ds.sp - 2 ∧
      (∀ p : StackPtr, W.data.read p = s.ds.data.read p) ∧ s.ds.depth = U.depth + 3 ∧ ∀ k, U.elem k = s.ds.elem (k + 3) := by
  obtain ⟨T, hT, helemT⟩ := Stack.pop_of_elem hh
  obtain ⟨W, hW, helemW⟩ := Stack.pop_of_elem ((helemT 0).trans hm)
  obtain ⟨U, hU, helemU⟩ := Stack.pop_of_elem ((helemW 0).trans ((helemT 1).trans hl))
  have hrun : pop24 s = .ok (h ++ m ++ l, s.withDs U) :=
    bind_eq_ok.mpr ⟨_, popDs_of_pop hT, bind_eq_ok.mpr ⟨_, popDs_of_pop (s := s.withDs T) hW,
      bind_eq_ok.mpr ⟨_, popDs_of_pop (s := s.withDs W) hU, rfl⟩⟩⟩
  obtain ⟨-, -, -, hspT, hreadT⟩ := Stack.popped_of_pop_eq_some hT
  obtain ⟨-, -, -, hspW, hreadW⟩ := Stack.popped_of_pop_eq_some hW
  refine ⟨W, U, hrun, Stack.popped_of_pop_eq_some hU, ?_, fun p => (hreadW p).trans (hreadT p), ?_, fun k => ?_⟩
  · rw [hspW, hspT]
    exact sub_sub s.ds.sp 1 1
  · rw [Stack.depth_of_pop hT, Stack.depth_of_pop hW, Stack.depth_of_pop hU]
  · rw [helemU, helemW, helemT]

theorem push24_ds (w : Triple) (s : State) :
    (push24 w s).ds = ((s.ds.push (cellOf 0 w)).push (cellOf 1 w)).push (cellOf 2 w) := rfl

/-- Three pushes leave the operand's cells as elements 0 to 2, the high one on top. -/
theorem push24_elems {s : State} (h : s.ds.depth < 65533) (w : Triple) :
    (push24 w s).ds.elem 2 = some (cellOf 0 w) ∧ (push24 w s).ds.elem 1 = some (cellOf 1 w) ∧
      (push24 w s).ds.elem 0 = some (cellOf 2 w) := by
  have h0 : s.ds.depth < 65535 := by omega
  have hdepth1 := Stack.depth_push h0 (cellOf 0 w)
  have h1 : (s.ds.push (cellOf 0 w)).depth < 65535 := by omega
  have hdepth2 := Stack.depth_push h1 (cellOf 1 w)
  have h2 : ((s.ds.push (cellOf 0 w)).push (cellOf 1 w)).depth < 65535 := by omega
  rw [push24_ds]
  refine ⟨?_, ?_, Stack.elem_push_zero h2 _⟩
  · rw [Stack.elem_push_succ h2, Stack.elem_push_succ h1, Stack.elem_push_zero h0]
  · rw [Stack.elem_push_succ h2, Stack.elem_push_zero h1]

/-- Three pushes on the stack that a pop left: the first copies down a cell that was there, the others write two cells. -/
theorem push24_of_popped {s : State} {W : Stack} {c : Cell} (h : Popped W s.ds c) (w : Triple) :
    (push24 w s).ds.sp = W.sp + 2 ∧
      ∀ p : StackPtr, p ≠ W.sp + 2 → p ≠ W.sp + 1 → (push24 w s).ds.data.read p = W.data.read p := by
  obtain ⟨hsp, -, hread⟩ := topReplaced_of_popped h (cellOf 0 w)
  have hsp0 : (s.ds.push (cellOf 0 w)).sp = W.sp := hsp.trans (BitVec.sub_zero _)
  have hsp2 : W.sp + 1 + 1 = W.sp + 2 := BitVec.add_assoc W.sp 1 1
  rw [push24_ds, Stack.push_sp, Stack.push_sp, hsp0]
  refine ⟨hsp2, fun p hp2 hp1 => ?_⟩
  rw [push_read_of_ne _ (by rw [Stack.push_sp, hsp0, hsp2]) hp2, push_read_of_ne _ (by rw [hsp0]) hp1, hread]

theorem tripleAlu_of_depth_lt_six {s : State} (h : s.ds.depth < 6) (f : Triple → Triple → Triple) :
    tripleAlu f s = .error (.stackUnderflow s.faultPc s.debug) := by
  by_cases h3 : s.ds.depth < 3
  · exact bind_eq_error.mpr (.inl (pop24_of_depth_lt_three h3))
  · obtain ⟨l, hl⟩ := Stack.exists_elem (S := s.ds) (k := 2) (by omega)
    obtain ⟨m, hm⟩ := Stack.exists_elem (S := s.ds) (k := 1) (by omega)
    obtain ⟨c, hc⟩ := Stack.exists_elem (S := s.ds) (k := 0) (by omega)
    obtain ⟨W, U, hpop, -, -, -, hdepth, -⟩ := pop24_of_elems hl hm hc
    have hU : (s.withDs U).ds.depth < 3 := by rw [State.withDs_ds]; omega
    exact bind_eq_error.mpr (.inr ⟨_, hpop, bind_eq_error.mpr (.inl (pop24_of_depth_lt_three hU))⟩)

theorem tripleAlu_of_pops {s : State} {f : Triple → Triple → Triple} {A B : Triple} {U V : Stack}
    (hB : pop24 s = .ok (B, s.withDs U)) (hA : pop24 (s.withDs U) = .ok (A, s.withDs V)) :
    tripleAlu f s = if B = 0 then .error (.divideByZeroFatal s.faultPc s.debug)
      else .ok (drawFlags (push24 (f A B) (s.withDs V))) := by
  rw [tripleAlu, hB, bind_ok]
  dsimp only
  rw [hA, bind_ok]
  rfl

/-- An instruction whose meaning is `tripleAlu f` meets the rule of the 24-bit divisions, for what `f` answers. -/
theorem tripleRule_of_tripleAlu {word : SlotWord} {i : Instr} {f : Triple → Triple → Triple}
    {result : Triple → Triple → Int} (hword : decodeWord word = .instr i)
    (hexec : ∀ s, exec i s = finish (tripleAlu f s)) (hresult : ∀ A B, ((f A B).toNat : Int) = result A B % 16777216) :
    TripleRule word i result := by
  refine ⟨hword, fun s => ⟨fun hdepth => ?_, fun al am ah bl bm bh hal ham hah hbl hbm hbh => ?_⟩⟩
  · rw [hexec, tripleAlu_of_depth_lt_six hdepth, finish_error]
  obtain ⟨W, U, hB, hW, hspW, hreadW, hdepthU, helemU⟩ := pop24_of_elems hbl hbm hbh
  obtain ⟨Y, V, hA, hY, hspY, hreadY, hdepthV, -⟩ := pop24_of_elems (s := s.withDs U)
    ((helemU 2).trans hal) ((helemU 1).trans ham) ((helemU 0).trans hah)
  obtain ⟨-, -, -, hspU, hreadU⟩ := hW
  rw [State.withDs_ds] at hspY hreadY hdepthV
  rw [hexec, tripleAlu_of_pops hB hA]
  refine ⟨fun hzero => by rw [if_pos hzero, finish_error], fun hne => ?_⟩
  rw [if_neg hne, finish_ok]
  have hfull := s.ds.depth_lt
  have helems := push24_elems (s := s.withDs V) (by rw [State.withDs_ds]; omega)
    (f (ah ++ am ++ al) (bh ++ bm ++ bl))
  obtain ⟨hsp, hread⟩ := push24_of_popped (s := s.withDs V) hY (f (ah ++ am ++ al) (bh ++ bm ++ bl))
  have hsp5 : Y.sp = s.ds.sp - 5 := by rw [hspY, hspU, hspW, sub_sub, sub_sub]; rfl
  have hsp3 : Y.sp + 2 = s.ds.sp - 3 := by rw [hsp5]; exact sub_add s.ds.sp 5 2
  have hsp4 : Y.sp + 1 = s.ds.sp - 4 := by rw [hsp5]; exact sub_add s.ds.sp 5 1
  obtain ⟨helem2, helem1, helem0⟩ := helems
  refine ⟨_, _, rfl, rfl, hresult _ _, hsp.trans hsp3, helem2, helem1, helem0, fun a h3 h4 => ?_⟩
  refine (hread a (by rw [hsp3]; exact h3) (by rw [hsp4]; exact h4)).trans ?_
  rw [hreadY, hreadU, hreadW]

/-- Settles O19, the quotient, signed or unsigned by the open parameter. -/
theorem tdivRule : Obligations.TdivRule := by
  refine tripleRule_of_tripleAlu (f := tripleQuotient Config.t24Signed Config.divRounding) (by decide) (fun _ => rfl)
    fun A B => ?_
  unfold tripleQuotient
  split
  · exact ofInt_toNat_eq_emod 24 _
  · rw [BitVec.toNat_ofNat]
    rfl

/-- Settles O20, the remainder, signed or unsigned by the open parameter. -/
theorem tmodRule : Obligations.TmodRule := by
  refine tripleRule_of_tripleAlu (f := tripleRemainder Config.t24Signed Config.divRounding) (by decide) (fun _ => rfl)
    fun A B => ?_
  unfold tripleRemainder
  split
  · exact ofInt_toNat_eq_emod 24 _
  · rw [BitVec.toNat_ofNat]
    rfl

/-! ### The laws of section 4 -/

theorem divr_trunc (x y : Int) : divr .trunc x y = x.tmod y := (Int.tmod_def x y).symm

theorem divr_floor (x y : Int) : divr .floor x y = x.fmod y := (Int.fmod_def x y).symm

/-- The remainder of the truncated division has the dividend's sign. -/
theorem mul_tmod_nonneg (x y : Int) : 0 ≤ x * x.tmod y := by
  obtain hx | hx := le_total 0 x
  · exact mul_nonneg hx (Int.tmod_nonneg y hx)
  · have hneg := mul_nonneg (neg_nonneg.mpr hx) (Int.tmod_nonneg y (neg_nonneg.mpr hx))
    rwa [Int.neg_tmod, neg_mul_neg] at hneg

/-- The remainder of the floored division has the divisor's sign and is smaller. -/
theorem fmod_bounds {x y : Int} (hy : y ≠ 0) : (x.fmod y).natAbs < y.natAbs ∧ 0 ≤ y * x.fmod y := by
  obtain hpos | hneg := lt_or_gt_of_ne hy.symm
  · have hlo := Int.fmod_nonneg_of_pos x hpos
    have hhi := Int.fmod_lt_of_pos x hpos
    exact ⟨by omega, mul_nonneg hpos.le hlo⟩
  · have hpos : 0 < -y := by omega
    have hlo := Int.fmod_nonneg_of_pos (-x) hpos
    have hhi := Int.fmod_lt_of_pos (-x) hpos
    rw [Int.neg_fmod_neg] at hlo hhi
    exact ⟨by omega, mul_nonneg_of_nonpos_of_nonpos hneg.le (by omega)⟩

/-- Settles O40: `divr` is the library's remainder of each rounding. -/
theorem divisionRoundsAsItsParameterSays : Obligations.DivisionRoundsAsItsParameterSays := by
  intro m x y hy
  refine ⟨(add_sub_cancel _ x).symm, ?_⟩
  cases m with
  | trunc =>
    rw [divr_trunc]
    refine ⟨?_, fun _ => mul_tmod_nonneg x y, nofun⟩
    rw [Int.natAbs_tmod]
    exact Nat.mod_lt _ (Int.natAbs_pos.mpr hy)
  | floor =>
    rw [divr_floor]
    exact ⟨(fmod_bounds hy).1, nofun, fun _ => (fmod_bounds hy).2⟩

theorem sumCells_cell (a b : Cell) : (sumCells a b).1 = a + b := by
  change BitVec.ofInt 8 (a.toInt + b.toInt) = a + b
  rw [BitVec.ofInt_add, BitVec.ofInt_toInt, BitVec.ofInt_toInt]

theorem subCells_cell (a b : Cell) : (subCells a b).1 = a - b := by
  change BitVec.ofInt 8 (a.toInt - b.toInt) = a - b
  rw [sub_eq_add_neg, BitVec.ofInt_add, BitVec.ofInt_neg, BitVec.ofInt_toInt, BitVec.ofInt_toInt, BitVec.sub_eq_add_neg]

theorem mulCells_cell (a b : Cell) : (mulCells a b).1 = a * b := by
  change BitVec.ofInt 8 (a.toInt * b.toInt) = a * b
  rw [BitVec.ofInt_mul, BitVec.ofInt_toInt, BitVec.ofInt_toInt]

/-- Settles O41: the cells are the sum, difference and product modulo 256. -/
theorem arithmeticLawsOfTheCells : Obligations.ArithmeticLawsOfTheCells := by
  intro a b
  rw [subCells_cell, sumCells_cell, mulCells_cell, BitVec.toNat_mul]
  exact ⟨BitVec.add_sub_cancel a b, rfl⟩

end Sys2Proof.Machine
end

section
/-! PROOFS, the address tables (20_memory.md R66 to R68) and the words and records of the instructions with an operand
(30_encoding.md R96, R98, R101). -/

namespace Sys2Proof.Machine

/-! ### Table slots -/

theorem tableSlot_iff {s : State} {base i : Nat} {h l : Cell} :
    TableSlot s base i h l ↔ s.imem.read (BitVec.ofNat 16 (base + 2 * i)) = .data h ∧
      s.imem.read (BitVec.ofNat 16 (base + 2 * i) + 1) = .data l := by
  rw [TableSlot, BitVec.ofNat_add _ 1]
  rfl

theorem tableRead_ad_of_slot {s : State} {base i : Nat} {h l : Cell} (hslot : TableSlot s base i h l) :
    tableRead base i latchHigh latchLow s = .ok (s.withAd (h ++ l)) :=
  tableRead_ad (tableSlot_iff.mp hslot).1 (tableSlot_iff.mp hslot).2

theorem tableRead_pc_of_slot {s : State} {base i : Nat} {h l : Cell} (hslot : TableSlot s base i h l) :
    tableRead base i latchPcHigh latchPcLow s = .ok (s.withPc (h ++ l)) :=
  tableRead_pc (tableSlot_iff.mp hslot).1 (tableSlot_iff.mp hslot).2

/-- A table read into pc that answers has read the two bytes of its slot. -/
theorem slot_of_tableRead_pc {s t : State} {base i : Nat} (h : tableRead base i latchPcHigh latchPcLow s = .ok t) :
    ∃ hi lo, TableSlot s base i hi lo ∧ t = s.withPc (hi ++ lo) := by
  obtain ⟨hi, lo, hhi, hlo, rfl⟩ := (tableRead_eq_ok (latchHi := latchPcHigh) (fun _ _ => rfl)).mp h
  exact ⟨hi, lo, tableSlot_iff.mpr ⟨hhi, hlo⟩, latchPc_high_then_low hi lo s⟩

/-- A table read whose slot is not two data bytes is BadAddress; the first latch must leave what the second read looks at. -/
theorem tableRead_of_no_slot {s : State} {base i : Nat} {latchHi latchLo : Cell → State → State}
    (keeps : ∀ b u, (latchHi b u).imem = u.imem ∧ (latchHi b u).faultPc = u.faultPc ∧ (latchHi b u).debug = u.debug)
    (h : ∀ hi lo, ¬ TableSlot s base i hi lo) :
    tableRead base i latchHi latchLo s = .error (.badAddress s.faultPc s.debug) := by
  cases hread : tableRead base i latchHi latchLo s with
  | ok t =>
    obtain ⟨hi, lo, hhi, hlo, -⟩ := (tableRead_eq_ok fun b u => (keeps b u).1).mp hread
    exact absurd (tableSlot_iff.mpr ⟨hhi, hlo⟩) (h hi lo)
  | error f => rw [tableRead_eq_error keeps hread]

theorem tableRead_ad_of_no_slot {s : State} {base i : Nat} (h : ∀ hi lo, ¬ TableSlot s base i hi lo) :
    tableRead base i latchHigh latchLow s = .error (.badAddress s.faultPc s.debug) :=
  tableRead_of_no_slot (fun _ _ => ⟨rfl, rfl, rfl⟩) h

theorem tableRead_pc_of_no_slot {s : State} {base i : Nat} (h : ∀ hi lo, ¬ TableSlot s base i hi lo) :
    tableRead base i latchPcHigh latchPcLow s = .error (.badAddress s.faultPc s.debug) :=
  tableRead_of_no_slot (fun _ _ => ⟨rfl, rfl, rfl⟩) h

/-! ### The step, by what the fetch finds -/

/-- A step runs the decoded instruction from the fetched state. -/
theorem step_of_decoded {s : State} {r : Record} {i : Instr} (hs : s.status = .running)
    (hslot : s.imem.read s.pc = .instr r) (hi : decodeRecord r = .ok i) : step s = retire i (exec i (s.fetched r)) := by
  rw [step, hs, fetchDecode_eq_ok.mpr ⟨r, hslot, hi, rfl⟩]

theorem step_of_fetchDecode_error {s : State} {f : Fault} (hs : s.status = .running) (h : fetchDecode s = .error f) :
    step s = .fault f := by
  rw [step, hs, h]

/-- A record that decodes to no instruction is UnknownOpcode at its slot (R122). -/
theorem step_of_undecoded {s : State} {r : Record} (hs : s.status = .running) (hslot : s.imem.read s.pc = .instr r)
    (h : ∀ i, decodeRecord r ≠ .ok i) : step s = .fault (.unknownOpcode s.pc r.debug) := by
  refine step_of_fetchDecode_error hs (bind_eq_error.mpr (.inr ⟨_, fetch_eq_ok.mpr ⟨hslot, rfl⟩, ?_⟩))
  exact bind_eq_error.mpr (.inl (decodeFetched_eq_error.mpr ⟨h, rfl⟩))

theorem class_of_offset_none {i : Instr} (h : i.offset = none) : i.mnemonic.operandClass = .direct := by
  cases i <;> cases h <;> rfl

/-- A record with the tag of a class that has an operand decodes only with one. -/
theorem offsetNeeded_of_class {m : Mnemonic} (h : m.operandClass ≠ .direct) : OffsetNeeded m.name := by
  intro s r hs hslot htag hoff
  refine step_of_undecoded hs hslot fun i hi => ?_
  obtain ⟨htag', hoff', -⟩ := decodeRecord_eq_ok.mp hi
  obtain rfl : m = i.mnemonic := name_inj.mp (htag.symm.trans htag')
  exact h (class_of_offset_none (hoff'.symm.trans hoff))

/-- A record with a table-indirect tag decodes only with an index of its table. -/
theorem indexChecked_of_table {m : Mnemonic} (h : m.operandClass = .table) : IndexChecked m.name := by
  intro s r hs hslot htag hindex
  refine step_of_undecoded hs hslot fun i hi => ?_
  obtain ⟨htag', hoff, hwf⟩ := decodeRecord_eq_ok.mp hi
  obtain rfl : m = i.mnemonic := name_inj.mp (htag.symm.trans htag')
  have hop := operand_of_class i
  rw [h] at hop
  obtain ⟨k, hk, -⟩ := hop
  exact hindex k ((wf_iff_of_table h hk).mp hwf) (hoff.trans hk)

/-- A word packed from fields that decode, tag by tag, decodes to their instruction. -/
theorem decodeWord_of_operand {m : Mnemonic} {p : Bool} {off : BitVec 24} {i : Instr} (h : decodeOperand m p off = some i) :
    decodeWord (packFields p m.op off) = .instr i := by
  rw [decodeWord_packFields, ofOp_op, h]

end Sys2Proof.Machine
end

section
/-! PROOFS, the memory family beside the I/O instructions (43_memory_io.md): LOAD, GET, SET. -/

namespace Sys2Proof.Machine

/-- Settles O29: the table read into `ad`, then a push of the cell there. -/
theorem loadRule : Obligations.LoadRule := by
  refine ⟨by decide, indexChecked_of_table (m := .load) rfl, fun s i _ => ⟨fun h l hslot => ?_, fun hno => ?_⟩⟩
  · exact ⟨_, finish_eq_next.mpr (bind_eq_ok.mpr ⟨_, tableRead_ad_of_slot hslot, rfl⟩), rfl, s.ds.pushed_push _⟩
  · exact finish_eq_fault.mpr (bind_eq_error.mpr (.inl (tableRead_ad_of_no_slot hno)))

theorem popAddress_of_depth_lt_two {s : State} (h : s.ds.depth < 2) :
    popAddress s = .error (.stackUnderflow s.faultPc s.debug) :=
  popDs_bind_underflow h fun lo T hT => popDs_bind_underflow_of_empty (s := latchLow lo (s.withDs T)) hT

/-- Two pops latch `ad` half by half, the low byte from the top. -/
theorem popAddress_of_pops {s : State} {hi lo : Cell} {T U : Stack} (hT : s.ds.pop = some (lo, T))
    (hU : T.pop = some (hi, U)) : popAddress s = .ok ((s.withAd (hi ++ lo)).withDs U) :=
  bind_eq_ok.mpr ⟨_, popDs_of_pop hT, bind_eq_ok.mpr ⟨_, popDs_of_pop (s := latchLow lo (s.withDs T)) hU,
    congrArg Except.ok (latch_low_then_high hi lo (s.withDs U))⟩⟩

/-- Settles O30: the address popped, then a push of the cell there. -/
theorem getRule : Obligations.GetRule := by
  refine ⟨by decide, fun s => ⟨fun hdepth => ?_, fun hi lo hhi hlo => ?_⟩⟩
  · exact finish_eq_fault.mpr (bind_eq_error.mpr (.inl (popAddress_of_depth_lt_two hdepth)))
  · obtain ⟨T, U, hT, hU⟩ := Stack.pop_pop_of_elem hhi hlo
    exact ⟨_, finish_eq_next.mpr (bind_eq_ok.mpr ⟨_, popAddress_of_pops hT hU, rfl⟩), rfl,
      topReplaced_of_popped_popped (Stack.popped_of_pop_eq_some hT) (Stack.popped_of_pop_eq_some hU) _⟩

theorem exec_set_of_depth_lt_three {s : State} (h : s.ds.depth < 3) :
    exec .set s = .fault (.stackUnderflow s.faultPc s.debug) := by
  refine finish_eq_fault.mpr (bind_eq_error.mpr ?_)
  by_cases h2 : s.ds.depth < 2
  · exact .inl (popAddress_of_depth_lt_two h2)
  · obtain ⟨hi, hhi⟩ := Stack.exists_elem (S := s.ds) (k := 1) (by omega)
    obtain ⟨lo, hlo⟩ := Stack.exists_elem (S := s.ds) (k := 0) (by omega)
    obtain ⟨T, U, hT, hU⟩ := Stack.pop_pop_of_elem hhi hlo
    have hdepthT := Stack.depth_of_pop hT
    have hdepthU := Stack.depth_of_pop hU
    exact .inr ⟨_, popAddress_of_pops hT hU,
      popDs_bind_underflow_of_empty (s := (s.withAd (hi ++ lo)).withDs U) (show U.depth < 1 by omega)⟩

/-- Settles O31: the address popped, the value popped, and one cell stored. -/
theorem setRule : Obligations.SetRule := by
  refine ⟨by decide, fun s => ⟨exec_set_of_depth_lt_three, fun v hi lo hv hhi hlo => ?_⟩⟩
  obtain ⟨T, hT, helemT⟩ := Stack.pop_of_elem hlo
  obtain ⟨U, hU, helemU⟩ := Stack.pop_of_elem ((helemT 0).trans hhi)
  obtain ⟨V, hV, -⟩ := Stack.pop_of_elem ((helemU 0).trans ((helemT 1).trans hv))
  have hrun : exec .set s = .next (memWrite v ((s.withAd (hi ++ lo)).withDs V)) :=
    finish_eq_next.mpr (bind_eq_ok.mpr ⟨_, popAddress_of_pops hT hU,
      bind_eq_ok.mpr ⟨_, popDs_of_pop (s := (s.withAd (hi ++ lo)).withDs U) hV, rfl⟩⟩)
  exact ⟨_, T, U, hrun, rfl, Stack.popped_of_pop_eq_some hT, Stack.popped_of_pop_eq_some hU,
    Stack.popped_of_pop_eq_some hV, memWrite_read v ((s.withAd (hi ++ lo)).withDs V)⟩

end Sys2Proof.Machine
end

section
/-! PROOFS, the jumps and CALL (44_control_transfer.md sections 2 to 4). -/

namespace Sys2Proof.Machine

/-! ### Relative jumps -/

/-- An instruction whose meaning is a relative jump goes where R221 says, or faults. -/
theorem takenJump_of_exec {i : Instr} {off : Int} {s : State} (h : exec i s = finish (jumpRelative off s)) :
    TakenJump i off s := by
  constructor
  · intro hrange
    cases htarget : relTarget off s with
    | ok p =>
      have hjump := (jumpRelative_eq_ok (t := s.withPc p)).mpr ⟨htarget, rfl⟩
      exact ⟨_, by rw [h, hjump, finish_ok], rfl, (relTarget_eq_ok.mp htarget).2⟩
    | error f =>
      have hout := (relTarget_eq_error.mp htarget).1
      omega
  · intro hout
    rw [h, jumpRelative_eq_error.mpr (relTarget_eq_error.mpr ⟨hout, rfl⟩), finish_error]

/-- Settles O34: JMPR's meaning is the relative jump. -/
theorem jmprRule : Obligations.JmprRule :=
  ⟨fun off => decodeWord_of_operand (m := .jmpr) (p := true) (off := off) rfl, offsetNeeded_of_class (m := .jmpr) nofun,
    fun _ _ => takenJump_of_exec rfl⟩

/-- A conditional jump is a relative jump where its flag is set, and nothing where it is clear. -/
theorem conditional_of_jumpIf {jump : Int → Instr} {flag : Flags → Bool}
    (hexec : ∀ off s, exec (jump off) s = finish (jumpIf (flag s.flags) off s)) (s : State) (off : Int) :
    (flag s.flags = true → TakenJump (jump off) off s) ∧ (flag s.flags = false → exec (jump off) s = .next s) := by
  refine ⟨fun hset => takenJump_of_exec ?_, fun hclear => ?_⟩
  · rw [hexec, hset, jumpIf, if_pos rfl]
  · rw [hexec, hclear, jumpIf, if_neg nofun, finish_ok]

/-- Settles O35: the three differ in the flag they test. -/
theorem conditionalJumpRules : Obligations.ConditionalJumpRules :=
  ⟨⟨fun off => decodeWord_of_operand (m := .jz) (p := true) (off := off) rfl, offsetNeeded_of_class (m := .jz) nofun,
      conditional_of_jumpIf fun _ _ => rfl⟩,
    ⟨fun off => decodeWord_of_operand (m := .jl) (p := true) (off := off) rfl, offsetNeeded_of_class (m := .jl) nofun,
      conditional_of_jumpIf fun _ _ => rfl⟩,
    ⟨fun off => decodeWord_of_operand (m := .jo) (p := true) (off := off) rfl, offsetNeeded_of_class (m := .jo) nofun,
      conditional_of_jumpIf fun _ _ => rfl⟩⟩

/-! ### Table jumps -/

/-- Settles O36: the table read into pc. -/
theorem jmpaRule : Obligations.JmpaRule := by
  refine ⟨by decide, indexChecked_of_table (m := .jmpa) rfl, fun s i _ => ⟨fun h l hslot => ?_, fun hno => ?_⟩⟩
  · exact finish_eq_next.mpr (tableRead_pc_of_slot hslot)
  · exact finish_eq_fault.mpr (tableRead_pc_of_no_slot hno)

/-- Settles O37: the return address pushed, then the table jump, which reads the slot in the state after the pushes. -/
theorem callRule : Obligations.CallRule := by
  refine ⟨by decide, indexChecked_of_table (m := .call) rfl, fun s i _ => ⟨fun h l hslot => ?_, fun hno => ?_⟩⟩
  · exact ⟨_, _, finish_eq_next.mpr (tableRead_pc_of_slot (s := pushReturn s) hslot), rfl, s.rs.pushed_push _,
      Stack.pushed_push _ _⟩
  · exact finish_eq_fault.mpr (tableRead_pc_of_no_slot (s := pushReturn s) hno)

/-- What a CALL that answers has done. -/
theorem exec_call_eq_next {s t : State} {i : Nat} (h : exec (.call i) s = .next t) :
    ∃ hi lo, TableSlot s 64 i hi lo ∧ t = (pushReturn s).withPc (hi ++ lo) :=
  slot_of_tableRead_pc (finish_eq_next.mp h)

/-- Two pops of what two pushes have put on a stack with room for them leave it as it was. -/
theorem Stack.pop_pop_push_push {S : Stack} (h : S.depth < 65534) (hi lo : Cell) :
    ∃ T U, ((S.push hi).push lo).pop = some (lo, T) ∧ T.pop = some (hi, U) ∧ U.sp = S.sp ∧ U.tos = S.tos ∧
      ∀ k, U.elem k = S.elem k := by
  have h0 : S.depth < 65535 := by omega
  have h1 : (S.push hi).depth < 65535 := by rw [Stack.depth_push h0]; omega
  obtain ⟨T, hT, hspT, -, helemT⟩ := Stack.pop_push h1 lo
  obtain ⟨U, hU, helemU⟩ := Stack.pop_of_elem ((helemT 0).trans (Stack.elem_push_zero h0 hi))
  obtain ⟨-, -, -, -, hreadT⟩ := Stack.popped_of_pop_eq_some hT
  obtain ⟨-, -, htosU, hspU, -⟩ := Stack.popped_of_pop_eq_some hU
  have hne : (S.push hi).sp ≠ (S.push hi).sp + 1 := by
    simpa only [BitVec.sub_zero] using sp_sub_ne_sp_add_one (S := S.push hi) (k := 0) (by rw [Stack.depth_push h0]; omega) h1
  refine ⟨T, U, hT, hU, ?_, ?_, fun k => ?_⟩
  · rw [hspU, hspT, Stack.push_sp]
    exact add_sub_cancel_right S.sp 1
  · rw [htosU, hreadT, hspT, push_read_of_ne lo rfl hne, Stack.push_sp, Stack.push_read, if_pos rfl]
  · rw [helemU, helemT, Stack.elem_push_succ h0]

/-- Settles O42: the two pops of RET answer the two halves CALL pushed, put together the pc they came from. -/
theorem callThenRetComesBack : Obligations.CallThenRetComesBack := by
  intro s t i p q d hdepth hcall
  obtain ⟨h, l, -, rfl⟩ := exec_call_eq_next hcall
  obtain ⟨T, U, hT, hU, hsp, htos, helem⟩ := Stack.pop_pop_push_push hdepth (highHalf s.pc) (lowHalf s.pc)
  exact ⟨_, exec_ret_of_pop_pop hT hU, append_halves s.pc, hsp, htos, helem, rfl, rfl, rfl⟩

end Sys2Proof.Machine
end

section
/-! PROOFS, the cycle (40_execution_cycle.md): what a step does by what it fetches, its ticks, and pc after it. -/

namespace Sys2Proof.Machine

/-- Settles O1, each word decoded by the definition. -/
theorem sampleWordsDecodeAsThePackingSays : Obligations.SampleWordsDecodeAsThePackingSays := by
  unfold Obligations.SampleWordsDecodeAsThePackingSays
  decide

/-- Settles O58, each value that of the definition. -/
theorem resetHasTheValuesTheSpecGives : Obligations.ResetHasTheValuesTheSpecGives := by
  unfold Obligations.ResetHasTheValuesTheSpecGives
  decide

/-- Settles O49: `step_of_decoded`, and the end of a cycle that answers. -/
theorem stepRunsTheDecodedInstruction : Obligations.StepRunsTheDecodedInstruction := by
  intro s r i hs hslot hi
  have hstep := step_of_decoded hs hslot hi
  refine ⟨hstep, fun t ht => hstep.trans (retire_eq_next.mpr ⟨t, ht, addTicks_eq (leastTicks i) t⟩)⟩

/-- A fetch that finds an empty slot (R121). -/
theorem fetchDecode_of_empty {s : State} (h : s.imem.read s.pc = .empty) :
    fetchDecode s = .error (.badAddress s.pc none) := by
  rw [fetchDecode, fetch, h, bind_error]

/-- A fetch that finds a data byte (R121). -/
theorem fetchDecode_of_data {s : State} {b : Cell} (h : s.imem.read s.pc = .data b) :
    fetchDecode s = .error (.unknownOpcode s.pc none) := by
  rw [fetchDecode, fetch, h, bind_error]

/-- Settles O50, by the three kinds of slot. -/
theorem fetchAndDecodeFaults : Obligations.FetchAndDecodeFaults :=
  fun _ hs =>
    ⟨fun h => step_of_fetchDecode_error hs (fetchDecode_of_empty h),
     fun _ h => step_of_fetchDecode_error hs (fetchDecode_of_data h),
     fun _ _ hslot he => step_of_undecoded hs hslot fun i hi => by rw [he] at hi; cases hi⟩

/-- A step that answers, of a slot whose instruction is known, has run it. -/
theorem exec_of_step_next {s t : State} {r : Record} {i : Instr} (hslot : s.imem.read s.pc = .instr r)
    (hi : decodeRecord r = .ok i) (h : step s = .next t) :
    s.status = .running ∧ ∃ u, exec i (s.fetched r) = .next u ∧ t = addTicks (leastTicks i) u := by
  obtain ⟨hs, r', i', u, hslot', hi', hexec, ht⟩ := step_eq_next.mp h
  obtain rfl : r = r' := Slot.instr.inj (hslot.symm.trans hslot')
  obtain rfl : i = i' := Except.ok.inj (hi.symm.trans hi')
  exact ⟨hs, u, hexec, ht⟩

/-! ### Ticks -/

theorem leastTicks_pos (i : Instr) : 0 < leastTicks i := by
  cases i with
  | load _ | call _ | jmpa _ => exact Nat.two_pos
  | _ => exact Nat.one_pos

/-- A step that answers adds the instruction's least ticks and the surplus. -/
theorem tick_of_exec {s u : State} {r : Record} {i : Instr} (h : exec i (s.fetched r) = .next u) :
    (addTicks (leastTicks i) u).tick = s.tick + leastTicks i + Config.freeTicks u.draws := by
  rw [addTicks_tick, (exec_kept h).tick, fetched_tick]

theorem tick_lt_of_step_next {s t : State} (h : step s = .next t) : s.tick < t.tick := by
  obtain ⟨-, r, i, u, -, -, hexec, rfl⟩ := step_eq_next.mp h
  rw [tick_of_exec hexec]
  have := leastTicks_pos i
  omega

/-- Settles O48: the least ticks are at least one, and two of a table read. -/
theorem ticksAdvanceWithEveryInstruction : Obligations.TicksAdvanceWithEveryInstruction := by
  refine fun s t h => ⟨tick_lt_of_step_next h, fun r k hslot hi => ?_⟩
  obtain ⟨i, hdecode, hleast⟩ : ∃ i, decodeRecord r = .ok i ∧ leastTicks i = 2 := by
    obtain hi | hi | hi := hi <;> exact ⟨_, hi, rfl⟩
  obtain ⟨-, u, hexec, rfl⟩ := exec_of_step_next hslot hdecode h
  rw [tick_of_exec hexec, hleast]
  omega

/-! ### pc -/

/-- Where a conditional jump that answers leads. -/
theorem pc_of_jumpIf {flag : Bool} {off : Int} {s t : State} (h : jumpIf flag off s = .ok t) :
    if flag then (t.pc.toNat : Int) = s.pc.toNat + off else t.pc = s.pc := by
  cases flag with
  | true => exact (relTarget_eq_ok.mp (jumpRelative_eq_ok.mp h).1).2
  | false => cases h; rfl

/-- A RET that answers has taken the two top cells of RS. -/
theorem exec_ret_eq_next {s t : State} (h : exec .ret s = .next t) :
    ∃ hi lo, s.rs.elem 1 = some hi ∧ s.rs.elem 0 = some lo ∧ t.pc = hi ++ lo := by
  have hdepth : ¬ s.rs.depth < 2 := fun hlt => by rw [exec_ret_of_depth_lt_two hlt] at h; cases h
  obtain ⟨hi, hhi⟩ := Stack.exists_elem (S := s.rs) (k := 1) (by omega)
  obtain ⟨lo, hlo⟩ := Stack.exists_elem (S := s.rs) (k := 0) (by omega)
  obtain ⟨T, U, hT, hU⟩ := Stack.pop_pop_of_elem hhi hlo
  rw [exec_ret_of_pop_pop hT hU] at h
  cases h
  exact ⟨hi, lo, hhi, hlo, rfl⟩

/-- Settles O54: a transfer of control by what it does to pc, every other instruction by the frame. -/
theorem pcChangesOnlyAsTheRulesSay : Obligations.PcChangesOnlyAsTheRulesSay := by
  intro s t r i hslot hi h
  obtain ⟨-, u, hexec, rfl⟩ := exec_of_step_next hslot hi h
  have hkept := exec_kept hexec
  cases i with
  | jmpr off => exact (relTarget_eq_ok.mp (jumpRelative_eq_ok.mp (finish_eq_next.mp hexec)).1).2
  | jz off | jl off | jo off => exact pc_of_jumpIf (finish_eq_next.mp hexec)
  | jmpa k =>
    obtain ⟨hi, lo, hslot, rfl⟩ := slot_of_tableRead_pc (finish_eq_next.mp hexec)
    exact ⟨hi, lo, hslot, rfl⟩
  | call k =>
    obtain ⟨hi, lo, hslot, rfl⟩ := exec_call_eq_next hexec
    exact ⟨hi, lo, hslot, rfl⟩
  | ret =>
    obtain ⟨hi, lo, hhi, hlo, hpc⟩ := exec_ret_eq_next hexec
    exact ⟨hi, lo, hhi, hlo, hpc⟩
  | _ => exact hkept.pc rfl

end Sys2Proof.Machine
end

section
/-! PROOFS, faults (60_exceptions.md R252): why an instruction faults, said once of every instruction. -/

namespace Sys2Proof.Machine

/-- Why the instruction `i` executed in `s` ends in a fault. -/
inductive FaultCause (i : Instr) (s : State) : Fault → Prop where
  | underflow (a : Addr) (d : Option Debug) (reads : readsStack i = true) : FaultCause i s (.stackUnderflow a d)
  | outOfRange (a : Addr) (d : Option Debug) (off : Int)
    (jump : i = .jmpr off ∨ i = .jz off ∨ i = .jl off ∨ i = .jo off)
    (out : (s.pc.toNat : Int) + off < 0 ∨ 65535 < (s.pc.toNat : Int) + off) : FaultCause i s (.badAddress a d)
  | noSlot (a : Addr) (d : Option Debug) (base k : Nat)
    (table : i = .load k ∧ base = 0 ∨ i = .call k ∧ base = 64 ∨ i = .jmpa k ∧ base = 128)
    (missing : ∀ h l, ¬ TableSlot s base k h l) : FaultCause i s (.badAddress a d)
  | zeroDivisor (a : Addr) (d : Option Debug) (division : i = .tdiv ∨ i = .tmod)
    (zero : s.ds.elem 0 = some 0 ∧ s.ds.elem 1 = some 0 ∧ s.ds.elem 2 = some 0) : FaultCause i s (.divideByZeroFatal a d)
  | emptyInput (a : Addr) (d : Option Debug) (reads : i = .read) (empty : s.inBuf = []) : FaultCause i s (.ioUnderflow a d)

/-! ### Operations that fault on a stack alone -/

/-- Every fault `x` may end in is StackUnderflow. -/
def OnlyUnderflows {α : Type} (x : Except Fault α) : Prop := ∀ f, x = .error f → ∃ a d, f = .stackUnderflow a d

theorem onlyUnderflows_ok {α : Type} (a : α) : OnlyUnderflows (.ok a) := nofun

theorem onlyUnderflows_bind {α β : Type} {x : Except Fault α} {g : α → Except Fault β} (hx : OnlyUnderflows x)
    (hg : ∀ a, OnlyUnderflows (g a)) : OnlyUnderflows (x >>= g) := by
  intro f h
  obtain hf | ⟨a, -, hf⟩ := bind_eq_error.mp h
  · exact hx f hf
  · exact hg a f hf

theorem onlyUnderflows_bind_ok {α β : Type} {x : Except Fault α} (hx : OnlyUnderflows x) (g : α → β) :
    OnlyUnderflows (x >>= fun a => .ok (g a)) :=
  onlyUnderflows_bind hx fun _ => onlyUnderflows_ok _

theorem orRaise_onlyUnderflows {α : Type} (s : State) (o : Option α) : OnlyUnderflows (orRaise .stackUnderflow s o) :=
  fun _ h => ⟨_, _, (orRaise_eq_error.mp h).2⟩

theorem popDs_onlyUnderflows (s : State) : OnlyUnderflows (popDs s) :=
  onlyUnderflows_bind_ok (orRaise_onlyUnderflows s _) _

theorem popRs_onlyUnderflows (s : State) : OnlyUnderflows (popRs s) :=
  onlyUnderflows_bind_ok (orRaise_onlyUnderflows s _) _

theorem elemDs_onlyUnderflows (k : Nat) (s : State) : OnlyUnderflows (elemDs k s) := orRaise_onlyUnderflows s _

theorem popAddress_onlyUnderflows (s : State) : OnlyUnderflows (popAddress s) :=
  onlyUnderflows_bind (popDs_onlyUnderflows s) fun _ => onlyUnderflows_bind_ok (popDs_onlyUnderflows _) _

theorem pop24_onlyUnderflows (s : State) : OnlyUnderflows (pop24 s) :=
  onlyUnderflows_bind (popDs_onlyUnderflows s) fun _ =>
    onlyUnderflows_bind (popDs_onlyUnderflows _) fun _ => onlyUnderflows_bind_ok (popDs_onlyUnderflows _) _

theorem binaryAlu_onlyUnderflows (f : Cell → Cell → Cell × Flags) (s : State) : OnlyUnderflows (binaryAlu f s) :=
  onlyUnderflows_bind_ok
    (onlyUnderflows_bind (popDs_onlyUnderflows s) fun _ => onlyUnderflows_bind_ok (popDs_onlyUnderflows _) _) _

theorem unaryAlu_onlyUnderflows (f : Cell → Flags → Cell × Flags) (s : State) : OnlyUnderflows (unaryAlu f s) :=
  onlyUnderflows_bind_ok (elemDs_onlyUnderflows 0 s) _

/-- An instruction that reads a stack and faults on that alone. -/
theorem cause_of_onlyUnderflows {i : Instr} {s : State} {f : Fault} {x : Except Fault State} (hx : OnlyUnderflows x)
    (hreads : readsStack i = true) (h : finish x = .fault f) : FaultCause i s f := by
  obtain ⟨a, d, rfl⟩ := hx f (finish_eq_fault.mp h)
  exact .underflow a d hreads

/-! ### The other causes -/

/-- Three cells that make the operand 0 are 0. -/
theorem cells_of_triple_eq_zero {h m l : Cell} (hzero : h ++ m ++ l = (0 : Triple)) : h = 0 ∧ m = 0 ∧ l = 0 := by
  have hnat := congrArg BitVec.toNat hzero
  rw [BitVec.toNat_append, BitVec.toNat_append, show (0 : Triple).toNat = 0 from rfl, Nat.or_eq_zero_iff, Nat.shiftLeft_eq_zero_iff,
    Nat.or_eq_zero_iff, Nat.shiftLeft_eq_zero_iff] at hnat
  obtain ⟨⟨hh, hm⟩, hl⟩ := hnat
  exact ⟨BitVec.eq_of_toNat_eq hh, BitVec.eq_of_toNat_eq hm, BitVec.eq_of_toNat_eq hl⟩

/-- A zero operand popped was three zero cells on top. -/
theorem elems_of_pop24_eq_zero {s t : State} (h : pop24 s = .ok (0, t)) :
    s.ds.elem 0 = some 0 ∧ s.ds.elem 1 = some 0 ∧ s.ds.elem 2 = some 0 := by
  have hdepth : ¬ s.ds.depth < 3 := fun hlt => by rw [pop24_of_depth_lt_three hlt] at h; cases h
  obtain ⟨l, hl⟩ := Stack.exists_elem (S := s.ds) (k := 2) (by omega)
  obtain ⟨m, hm⟩ := Stack.exists_elem (S := s.ds) (k := 1) (by omega)
  obtain ⟨c, hc⟩ := Stack.exists_elem (S := s.ds) (k := 0) (by omega)
  obtain ⟨W, U, hpop, -⟩ := pop24_of_elems hl hm hc
  have hzero : c ++ m ++ l = (0 : Triple) := congrArg Prod.fst (Except.ok.inj (hpop.symm.trans h))
  obtain ⟨rfl, rfl, rfl⟩ := cells_of_triple_eq_zero hzero
  exact ⟨hc, hm, hl⟩

theorem cause_of_tripleAlu {i : Instr} {s : State} {f : Fault} {g : Triple → Triple → Triple}
    (hi : i = .tdiv ∨ i = .tmod) (h : finish (tripleAlu g s) = .fault f) : FaultCause i s f := by
  have hreads : readsStack i = true := by obtain rfl | rfl := hi <;> rfl
  obtain hB | ⟨⟨B, u⟩, hB, hrest⟩ := bind_eq_error.mp (finish_eq_fault.mp h)
  · obtain ⟨a, d, rfl⟩ := pop24_onlyUnderflows s f hB
    exact .underflow a d hreads
  obtain hA | ⟨⟨A, v⟩, -, hdivide⟩ := bind_eq_error.mp hrest
  · obtain ⟨a, d, rfl⟩ := pop24_onlyUnderflows u f hA
    exact .underflow a d hreads
  dsimp only at hdivide
  split at hdivide
  · next hzero =>
    subst hzero
    cases hdivide
    exact .zeroDivisor _ _ hi (elems_of_pop24_eq_zero hB)
  · cases hdivide

theorem cause_of_jumpRelative {i : Instr} {s : State} {f : Fault} {off : Int}
    (hi : i = .jmpr off ∨ i = .jz off ∨ i = .jl off ∨ i = .jo off) (h : jumpRelative off s = .error f) :
    FaultCause i s f := by
  obtain ⟨hout, rfl⟩ := relTarget_eq_error.mp (jumpRelative_eq_error.mp h)
  exact .outOfRange _ _ off hi hout

theorem cause_of_jumpIf {i : Instr} {s : State} {f : Fault} {off : Int} {flag : Bool}
    (hi : i = .jmpr off ∨ i = .jz off ∨ i = .jl off ∨ i = .jo off) (h : finish (jumpIf flag off s) = .fault f) :
    FaultCause i s f := by
  cases flag with
  | true => exact cause_of_jumpRelative hi (finish_eq_fault.mp h)
  | false => cases h

/-- A table read that faults in a state `u` with the instruction memory of `s`, whose slot is then not two data bytes; the first
latch must leave what the second read looks at. -/
theorem cause_of_tableRead {i : Instr} {s u : State} {f : Fault} {base k : Nat} {latchHi latchLo : Cell → State → State}
    (keeps : ∀ b v, (latchHi b v).imem = v.imem ∧ (latchHi b v).faultPc = v.faultPc ∧ (latchHi b v).debug = v.debug)
    (hi : i = .load k ∧ base = 0 ∨ i = .call k ∧ base = 64 ∨ i = .jmpa k ∧ base = 128) (himem : u.imem = s.imem)
    (h : tableRead base k latchHi latchLo u = .error f) : FaultCause i s f := by
  rw [tableRead_eq_error keeps h]
  refine .noSlot _ _ base k hi fun hi lo hslot => ?_
  obtain ⟨hhi, hlo⟩ := tableSlot_iff.mp hslot
  rw [← himem] at hhi hlo
  rw [(tableRead_eq_ok fun b v => (keeps b v).1).mpr ⟨hi, lo, hhi, hlo, rfl⟩] at h
  cases h

/-- Every fault of an instruction has a cause. -/
theorem exec_faultCause {i : Instr} {s : State} {f : Fault} (h : exec i s = .fault f) : FaultCause i s f := by
  cases i with
  | sum | sub | mul | div | mod => exact cause_of_onlyUnderflows (binaryAlu_onlyUnderflows _ s) rfl h
  | inc | dec => exact cause_of_onlyUnderflows (unaryAlu_onlyUnderflows _ s) rfl h
  | tdiv => exact cause_of_tripleAlu (.inl rfl) h
  | tmod => exact cause_of_tripleAlu (.inr rfl) h
  | cmp =>
    exact cause_of_onlyUnderflows (onlyUnderflows_bind (elemDs_onlyUnderflows 0 s) fun _ =>
      onlyUnderflows_bind_ok (elemDs_onlyUnderflows 1 s) _) rfl h
  | dup => exact cause_of_onlyUnderflows (onlyUnderflows_bind_ok (elemDs_onlyUnderflows 0 s) _) rfl h
  | overCell => exact cause_of_onlyUnderflows (onlyUnderflows_bind_ok (elemDs_onlyUnderflows 1 s) _) rfl h
  | drop | tor | print => exact cause_of_onlyUnderflows (onlyUnderflows_bind_ok (popDs_onlyUnderflows s) _) rfl h
  | rfrom => exact cause_of_onlyUnderflows (onlyUnderflows_bind_ok (popRs_onlyUnderflows s) _) rfl h
  | swap => exact cause_of_onlyUnderflows (onlyUnderflows_bind_ok (orRaise_onlyUnderflows s _) _) rfl h
  | rot =>
    exact cause_of_onlyUnderflows (onlyUnderflows_bind (popDs_onlyUnderflows s) fun _ =>
      onlyUnderflows_bind (popDs_onlyUnderflows _) fun _ => onlyUnderflows_bind_ok (popDs_onlyUnderflows _) _) rfl h
  | get => exact cause_of_onlyUnderflows (onlyUnderflows_bind_ok (popAddress_onlyUnderflows s) _) rfl h
  | set =>
    exact cause_of_onlyUnderflows (onlyUnderflows_bind (popAddress_onlyUnderflows s) fun _ =>
      onlyUnderflows_bind_ok (popDs_onlyUnderflows _) _) rfl h
  | ret =>
    exact cause_of_onlyUnderflows (onlyUnderflows_bind (popRs_onlyUnderflows s) fun _ =>
      onlyUnderflows_bind_ok (popRs_onlyUnderflows _) _) rfl h
  | read =>
    obtain hlast | ⟨_, -, ⟨⟩⟩ := bind_eq_error.mp (finish_eq_fault.mp h)
    obtain ⟨hnone, rfl⟩ := orRaise_eq_error.mp hlast
    exact .emptyInput _ _ rfl (List.getLast?_eq_none_iff.mp hnone)
  | pushTrue | pushFalse | hlt => cases h
  | jmpr off => exact cause_of_jumpRelative (.inl rfl) (finish_eq_fault.mp h)
  | jz off => exact cause_of_jumpIf (.inr (.inl rfl)) h
  | jl off => exact cause_of_jumpIf (.inr (.inr (.inl rfl))) h
  | jo off => exact cause_of_jumpIf (.inr (.inr (.inr rfl))) h
  | load k =>
    obtain hread | ⟨_, -, ⟨⟩⟩ := bind_eq_error.mp (finish_eq_fault.mp h)
    exact cause_of_tableRead (latchHi := latchHigh) (fun _ _ => ⟨rfl, rfl, rfl⟩) (.inl ⟨rfl, rfl⟩) rfl hread
  | call k =>
    have hread : tableRead 64 k latchPcHigh latchPcLow (pushReturn s) = .error f := finish_eq_fault.mp h
    exact cause_of_tableRead (u := pushReturn s) (latchHi := latchPcHigh) (fun _ _ => ⟨rfl, rfl, rfl⟩)
      (.inr (.inl ⟨rfl, rfl⟩)) rfl hread
  | jmpa k =>
    exact cause_of_tableRead (latchHi := latchPcHigh) (fun _ _ => ⟨rfl, rfl, rfl⟩) (.inr (.inr ⟨rfl, rfl⟩)) rfl
      (finish_eq_fault.mp h)

theorem mayMissAddress_of_jump {i : Instr} {off : Int} (h : i = .jmpr off ∨ i = .jz off ∨ i = .jl off ∨ i = .jo off) :
    mayMissAddress i = true := by
  obtain rfl | rfl | rfl | rfl := h <;> rfl

theorem mayMissAddress_of_table {i : Instr} {k base : Nat}
    (h : i = .load k ∧ base = 0 ∨ i = .call k ∧ base = 64 ∨ i = .jmpa k ∧ base = 128) : mayMissAddress i = true := by
  obtain ⟨rfl, -⟩ | ⟨rfl, -⟩ | ⟨rfl, -⟩ := h <;> rfl

/-- Settles O52: each cause of a fault by what it says of the instruction. -/
theorem faultKindsBelongToTheirInstructions : Obligations.FaultKindsBelongToTheirInstructions := by
  intro i s f h
  cases exec_faultCause h with
  | underflow _ _ reads => exact reads
  | outOfRange _ _ off jump => exact mayMissAddress_of_jump jump
  | noSlot _ _ base k table => exact mayMissAddress_of_table table
  | zeroDivisor _ _ division zero => exact ⟨division, zero⟩
  | emptyInput _ _ reads empty => exact ⟨reads, empty⟩

/-! ### Table reads under the invariant -/

/-- In an image's layout every slot of the three tables holds two data bytes (R66). -/
theorem tableSlot_of_imageShaped {s : State} {base k : Nat} (h : s.ImageShaped) (hlt : base + 2 * k + 1 < 192) :
    ∃ hi lo, TableSlot s base k hi lo := by
  have hbyte : ∀ n, n < 192 → ∃ b, s.imem.read (BitVec.ofNat 16 n) = .data b := by
    intro n hn
    have hshape := h (BitVec.ofNat 16 n)
    have hn' : (BitVec.ofNat 16 n).toNat = n := by
      rw [BitVec.toNat_ofNat]
      exact Nat.mod_eq_of_lt (by omega)
    rwa [hn', if_pos (show n < Config.programBase from hn)] at hshape
  obtain ⟨hi, hhi⟩ := hbyte (base + 2 * k) (by omega)
  obtain ⟨lo, hlo⟩ := hbyte (base + 2 * k + 1) hlt
  exact ⟨hi, lo, hhi, hlo⟩

/-- The slot of a well-formed table-indirect instruction lies in its table. -/
theorem slot_lt_of_wf {i : Instr} {k base : Nat} (hwf : i.wf = true)
    (h : i = .load k ∧ base = 0 ∨ i = .call k ∧ base = 64 ∨ i = .jmpa k ∧ base = 128) : base + 2 * k + 1 < 192 := by
  obtain ⟨rfl, rfl⟩ | ⟨rfl, rfl⟩ | ⟨rfl, rfl⟩ := h
  · have := wf_load.mp hwf
    omega
  · have := wf_call.mp hwf
    omega
  · have := wf_jmpa.mp hwf
    omega

theorem empty_of_fetch_badAddress {s : State} {a : Addr} {d : Option Debug} (h : fetch s = .error (.badAddress a d)) :
    s.imem.read s.pc = .empty := by
  unfold fetch at h
  split at h
  · assumption
  · cases h
  · cases h

/-- Settles O57: of the causes of BadAddress the invariant leaves the empty slot and the target out of range. -/
theorem tableReadsNeverFaultInAWellFormedImage : Obligations.TableReadsNeverFaultInAWellFormedImage := by
  intro s f hinv h
  cases f with
  | badAddress a d =>
    obtain hfetch | ⟨r, hslot, hdecode | ⟨i, hi, hexec⟩⟩ := step_fault_cases h
    · exact .inl (empty_of_fetch_badAddress hfetch)
    · cases (decodeFetched_eq_error.mp hdecode).2
    · cases exec_faultCause hexec with
      | outOfRange _ _ off jump out =>
        refine .inr ⟨r, off, hslot, ?_, out⟩
        obtain rfl | rfl | rfl | rfl := jump <;> simp [hi]
      | noSlot _ _ base k table missing =>
        obtain ⟨-, -, hwf⟩ := decodeRecord_eq_ok.mp hi
        obtain ⟨-, hshape, -⟩ := hinv
        obtain ⟨hi, lo, hslot⟩ := tableSlot_of_imageShaped hshape (slot_lt_of_wf hwf table)
        exact absurd hslot (missing hi lo)
  | stackUnderflow _ _ | unknownOpcode _ _ | divideByZeroFatal _ _ | ioUnderflow _ _ => trivial

end Sys2Proof.Machine
end

section
/-! PROOFS, runs within a host's budget (60_exceptions.md R265, R272): a run ends in the first step that stops it. -/

namespace Sys2Proof.Machine

/-! ### One step -/

/-- No instruction is refused. -/
theorem exec_ne_refused (i : Instr) (s : State) (r : Refusal) : exec i s ≠ .refused r := by
  cases i with
  | pushTrue | pushFalse | hlt => nofun
  | _ => exact finish_ne_refused _ r

theorem step_ne_refused {s : State} (hs : s.status = .running) (r : Refusal) : step s ≠ .refused r := by
  intro h
  rw [step, hs] at h
  dsimp only at h
  split at h
  · exact exec_ne_refused _ _ r (retire_eq_refused.mp h)
  · cases h

theorem step_of_not_running {s : State} (hs : s.status ≠ .running) : step s = .refused .runEnded := by
  cases h : s.status with
  | running => exact absurd h hs
  | halted => exact step_of_halted h
  | faulted f => exact step_of_faulted h

/-- A running state's step answers a next state or is a fault. -/
theorem step_cases {s : State} (hs : s.status = .running) : (∃ t, step s = .next t) ∨ ∃ f, step s = .fault f := by
  cases h : step s with
  | next t => exact .inl ⟨t, rfl⟩
  | fault f => exact .inr ⟨f, rfl⟩
  | refused r => exact absurd h (step_ne_refused hs r)

/-- After a step the run is halted if the step ran HLT, and else running. -/
theorem status_of_step {s t : State} {r : Record} {i : Instr} (hslot : s.imem.read s.pc = .instr r)
    (hi : decodeRecord r = .ok i) (h : step s = .next t) : t.status = if i = .hlt then .halted else .running := by
  obtain ⟨hs, u, hexec, rfl⟩ := exec_of_step_next hslot hi h
  rw [addTicks_status, exec_status hexec, fetched_status, hs]

theorem running_or_halted_of_step {s t : State} (h : step s = .next t) : t.status = .running ∨ t.status = .halted := by
  obtain ⟨-, r, i, -, hslot, hi, -⟩ := step_eq_next.mp h
  rw [status_of_step hslot hi h]
  split
  · exact .inr rfl
  · exact .inl rfl

theorem halted_iff_hlt {s t : State} (h : step s = .next t) :
    t.status = .halted ↔ ∃ r, s.imem.read s.pc = .instr r ∧ decodeRecord r = .ok .hlt := by
  obtain ⟨-, r, i, -, hslot, hi, -⟩ := step_eq_next.mp h
  rw [status_of_step hslot hi h]
  constructor
  · intro hhalt
    split at hhalt
    · next heq => exact ⟨r, hslot, heq ▸ hi⟩
    · cases hhalt
  · rintro ⟨r', hslot', hi'⟩
    obtain rfl : r = r' := Slot.instr.inj (hslot.symm.trans hslot')
    obtain rfl : i = .hlt := Except.ok.inj (hi.symm.trans hi')
    rfl

/-! ### The steps a run reaches -/

/-- A run reaches a step of which `P` holds, in a number of instructions of which `Q` does: the first step or one of the rest. -/
theorem exists_runsFor_iff {P : State → Prop} {Q : Nat → Prop} {s : State} :
    (∃ j u, Q j ∧ RunsFor j s u ∧ P u) ↔
      Q 0 ∧ P s ∨ ∃ t, step s = .next t ∧ t.status = .running ∧ ∃ j u, Q (j + 1) ∧ RunsFor j t u ∧ P u := by
  constructor
  · rintro ⟨j, u, hQ, hruns, hP⟩
    cases j with
    | zero =>
      obtain rfl := runsFor_zero.mp hruns
      exact .inl ⟨hQ, hP⟩
    | succ j =>
      obtain ⟨t, ht, hrun, hrest⟩ := hruns
      exact .inr ⟨t, ht, hrun, j, u, hQ, hrest, hP⟩
  · rintro (⟨hQ, hP⟩ | ⟨t, ht, hrun, j, u, hQ, hrest, hP⟩)
    · exact ⟨0, s, hQ, rfl, hP⟩
    · exact ⟨j + 1, u, hQ, ⟨t, ht, hrun, hrest⟩, hP⟩

section
variable {P : State → Prop} {Q : Nat → Prop} {s t : State}

/-- From a step that leads on, a run reaches a later step or stops at this one. -/
theorem exists_runsFor_of_running (h : step s = .next t) (hrun : t.status = .running) :
    (∃ j u, Q j ∧ RunsFor j s u ∧ P u) ↔ Q 0 ∧ P s ∨ ∃ j u, Q (j + 1) ∧ RunsFor j t u ∧ P u := by
  rw [exists_runsFor_iff]
  refine or_congr_right ⟨?_, fun hrest => ⟨t, h, hrun, hrest⟩⟩
  rintro ⟨t', ht', -, hrest⟩
  obtain rfl : t = t' := Host.Outcome.next.inj (h.symm.trans ht')
  exact hrest

/-- From a step that leads to no running state, a run reaches that step alone. -/
theorem exists_runsFor_of_stop (stop : ∀ t, step s = .next t → t.status ≠ .running) :
    (∃ j u, Q j ∧ RunsFor j s u ∧ P u) ↔ Q 0 ∧ P s := by
  rw [exists_runsFor_iff]
  refine or_iff_left ?_
  rintro ⟨t, ht, hrun, -⟩
  exact stop t ht hrun

end

theorem not_running_of_halted {s t : State} (h : step s = .next t) (hhalt : t.status = .halted) :
    ∀ u, step s = .next u → u.status ≠ .running := by
  intro u hu
  obtain rfl : t = u := Host.Outcome.next.inj (h.symm.trans hu)
  rw [hhalt]
  nofun

theorem not_running_of_fault {s : State} {f : Fault} (h : step s = .fault f) :
    ∀ u, step s = .next u → u.status ≠ .running := by
  intro u hu
  rw [h] at hu
  cases hu

/-! ### A budget of instructions -/

/-- The step of `u` ends a run as `e`. -/
inductive StopsAs (u : State) : RunEnd → Prop where
  | halted (t : State) (hstep : step u = .next t) (hhalt : t.status = .halted) : StopsAs u (.halted t)
  | faulted (f : Fault) (hstep : step u = .fault f) : StopsAs u (.faulted f)

theorem stopsAs_halted {u t : State} : StopsAs u (.halted t) ↔ step u = .next t ∧ t.status = .halted :=
  ⟨fun h => by cases h with | halted _ hstep hhalt => exact ⟨hstep, hhalt⟩, fun h => .halted t h.1 h.2⟩

theorem stopsAs_faulted {u : State} {f : Fault} : StopsAs u (.faulted f) ↔ step u = .fault f :=
  ⟨fun h => by cases h with | faulted _ hstep => exact hstep, .faulted f⟩

theorem stopsAs_of_halted {u t : State} {e : RunEnd} (h : step u = .next t) (hhalt : t.status = .halted) :
    StopsAs u e ↔ .halted t = e := by
  constructor
  · rintro (⟨t', h', -⟩ | ⟨f, h'⟩) <;> rw [h] at h' <;> cases h'
    rfl
  · rintro rfl
    exact .halted t h hhalt

theorem stopsAs_of_fault {u : State} {f : Fault} {e : RunEnd} (h : step u = .fault f) :
    StopsAs u e ↔ .faulted f = e := by
  constructor
  · rintro (⟨t', h', -⟩ | ⟨f', h'⟩) <;> rw [h] at h' <;> cases h'
    rfl
  · rintro rfl
    exact .faulted f h

theorem not_stopsAs_of_running {u t : State} {e : RunEnd} (h : step u = .next t) (hrun : t.status = .running) :
    ¬ StopsAs u e := by
  rintro (⟨t', h', hhalt⟩ | ⟨f, h'⟩) <;> rw [h] at h' <;> cases h'
  rw [hrun] at hhalt
  cases hhalt

theorem runWithin_of_next {s t : State} (k : Nat) (h : step s = .next t) :
    runWithin (k + 1) s = if t.status = .halted then .halted t else runWithin k t := by
  rw [runWithin, h]

/-- How a run of `k` instructions ends: aborted after them all, or as one of their steps stops it. -/
theorem runWithin_eq_iff {k : Nat} {s : State} {e : RunEnd} (hs : s.status = .running) :
    runWithin k s = e ↔
      (.aborted = e ∧ ∃ t, RunsFor k s t) ∨ ∃ j u, j < k ∧ RunsFor j s u ∧ StopsAs u e := by
  induction k generalizing s with
  | zero => simp [runWithin]
  | succ k ih =>
    obtain ⟨t, ht⟩ | ⟨f, hf⟩ := step_cases hs
    · obtain hrun | hhalt := running_or_halted_of_step ht
      · have hnot : t.status ≠ .halted := by rw [hrun]; nofun
        rw [runWithin_of_next k ht, if_neg hnot, ih hrun, exists_runsFor_of_running ht hrun]
        simp only [runsFor_succ_of_next ht hrun, not_stopsAs_of_running ht hrun, and_false, false_or,
          Nat.add_lt_add_iff_right]
      · have hstop := not_running_of_halted ht hhalt
        have hno : ¬ ∃ u, RunsFor (k + 1) s u := fun ⟨u, hu⟩ => absurd (runsFor_of_stop hstop hu).1 (by omega)
        rw [runWithin_of_next k ht, if_pos hhalt, exists_runsFor_of_stop hstop, stopsAs_of_halted ht hhalt]
        simp [hno]
    · have hstop := not_running_of_fault hf
      have hno : ¬ ∃ u, RunsFor (k + 1) s u := fun ⟨u, hu⟩ => absurd (runsFor_of_stop hstop hu).1 (by omega)
      rw [runWithin_of_fault k hf, exists_runsFor_of_stop hstop, stopsAs_of_fault hf]
      simp [hno]

/-! ### A budget of ticks -/

/-- The step of `u` ends a run to the tick `limit` as `e`: it passes the limit, or stops by then. -/
inductive EndsAs (limit : Nat) (u : State) : RunEnd → Prop where
  | late (m : Nat) (hm : endsAtTick u = some m) (hlate : limit < m) : EndsAs limit u .aborted
  | stops (m : Nat) (e : RunEnd) (hm : endsAtTick u = some m) (hin : m ≤ limit) (hstop : StopsAs u e) : EndsAs limit u e

theorem endsAs_of_late {limit m : Nat} {u : State} {e : RunEnd} (hm : endsAtTick u = some m) (hlate : limit < m) :
    EndsAs limit u e ↔ .aborted = e := by
  constructor
  · rintro (⟨m', hm', -⟩ | ⟨m', _, hm', hin, -⟩)
    · rfl
    · obtain rfl : m = m' := Option.some.inj (hm.symm.trans hm')
      omega
  · rintro rfl
    exact .late m hm hlate

theorem endsAs_of_in_time {limit m : Nat} {u : State} {e : RunEnd} (hm : endsAtTick u = some m) (hin : m ≤ limit) :
    EndsAs limit u e ↔ StopsAs u e := by
  constructor
  · rintro (⟨m', hm', hlate⟩ | ⟨m', _, hm', -, hstop⟩)
    · obtain rfl : m = m' := Option.some.inj (hm.symm.trans hm')
      omega
    · exact hstop
  · exact .stops m e hm hin

theorem tick_le_of_runsFor {j : Nat} {s u : State} (h : RunsFor j s u) : s.tick ≤ u.tick := by
  induction j generalizing s with
  | zero => exact le_of_eq (congrArg State.tick h)
  | succ j ih =>
    obtain ⟨t, ht, -, hrest⟩ := h
    exact (tick_lt_of_step_next ht).le.trans (ih hrest)

/-- No step ends before the tick it starts at. -/
theorem tick_le_of_endsAtTick {u : State} {m : Nat} (h : endsAtTick u = some m) : u.tick ≤ m := by
  unfold endsAtTick at h
  split at h
  · next t ht => exact Option.some.inj h ▸ (tick_lt_of_step_next ht).le
  · exact Option.some.inj h ▸ Nat.le_add_right _ _
  · cases h

/-- A run that has passed the limit can end in no other way than by it. -/
theorem aborted_of_late {limit j : Nat} {s u : State} {e : RunEnd} (hlate : limit < s.tick) (h : RunsFor j s u)
    (he : EndsAs limit u e) : .aborted = e := by
  obtain ⟨m, hm, -⟩ | ⟨m, _, hm, hin, -⟩ := he
  · rfl
  · have := tick_le_of_runsFor h
    have := tick_le_of_endsAtTick hm
    omega

/-- How a run to a tick ends, with instructions enough to outrun it: as the step it reaches that passes the limit or stops.
`True` stands where a budget of instructions has its bound. -/
theorem runToTick_eq_iff {limit k : Nat} {s : State} {e : RunEnd} (hs : s.status = .running) (hle : s.tick ≤ limit)
    (hk : limit < s.tick + k) :
    runToTick limit k s = e ↔ ∃ j u, True ∧ RunsFor j s u ∧ EndsAs limit u e := by
  induction k generalizing s with
  | zero => omega
  | succ k ih =>
    obtain ⟨t, ht⟩ | ⟨f, hf⟩ := step_cases hs
    · have hm := endsAtTick_of_next ht
      have htick := tick_lt_of_step_next ht
      rw [runToTick_of_next ht]
      obtain hlate | hin := Nat.lt_or_ge limit t.tick
      · rw [if_pos hlate]
        constructor
        · rintro rfl
          exact ⟨0, s, trivial, rfl, .late _ hm hlate⟩
        · intro h
          obtain ⟨-, he⟩ | ⟨v, hv, hrun, j, u, -, hruns, he⟩ := exists_runsFor_iff.mp h
          · exact (endsAs_of_late hm hlate).mp he
          · obtain rfl : t = v := Host.Outcome.next.inj (ht.symm.trans hv)
            exact aborted_of_late hlate hruns he
      · rw [if_neg (by omega)]
        obtain hrun | hhalt := running_or_halted_of_step ht
        · have hnot : t.status ≠ .halted := by rw [hrun]; nofun
          rw [if_neg hnot, ih hrun hin (by omega), exists_runsFor_of_running ht hrun, endsAs_of_in_time hm hin]
          simp only [not_stopsAs_of_running ht hrun, and_false, false_or]
        · rw [if_pos hhalt, exists_runsFor_of_stop (not_running_of_halted ht hhalt), endsAs_of_in_time hm hin,
            stopsAs_of_halted ht hhalt, true_and]
    · have hm := endsAtTick_of_fault hf
      rw [runToTick_of_fault hf, exists_runsFor_of_stop (not_running_of_fault hf), true_and]
      split
      · next hlate => rw [endsAs_of_late hm hlate]
      · next hin => rw [endsAs_of_in_time hm (by omega), stopsAs_of_fault hf]

theorem runWithinTicks_eq_iff {n : Nat} {s : State} {e : RunEnd} (hs : s.status = .running) :
    runWithinTicks n s = e ↔ ∃ j u, RunsFor j s u ∧ EndsAs (s.tick + n) u e := by
  rw [runWithinTicks, runToTick_eq_iff hs (by omega) (by omega)]
  simp only [true_and]

/-! ### The ends, one by one -/

theorem endsAs_halted {limit : Nat} {u t : State} :
    EndsAs limit u (.halted t) ↔ step u = .next t ∧ t.status = .halted ∧ t.tick ≤ limit := by
  constructor
  · intro h
    cases h with
    | stops m _ hm hin hstop =>
      obtain ⟨hstep, hhalt⟩ := stopsAs_halted.mp hstop
      obtain rfl : t.tick = m := Option.some.inj ((endsAtTick_of_next hstep).symm.trans hm)
      exact ⟨hstep, hhalt, hin⟩
  · rintro ⟨hstep, hhalt, hin⟩
    exact .stops _ _ (endsAtTick_of_next hstep) hin (.halted t hstep hhalt)

theorem endsAs_faulted {limit : Nat} {u : State} {f : Fault} :
    EndsAs limit u (.faulted f) ↔ ∃ m, step u = .fault f ∧ endsAtTick u = some m ∧ m ≤ limit := by
  constructor
  · intro h
    cases h with
    | stops m _ hm hin hstop => exact ⟨m, stopsAs_faulted.mp hstop, hm, hin⟩
  · rintro ⟨m, hstep, hm, hin⟩
    exact .stops m _ hm hin (.faulted f hstep)

theorem endsAs_aborted {limit : Nat} {u : State} :
    EndsAs limit u .aborted ↔ ∃ m, endsAtTick u = some m ∧ limit < m := by
  constructor
  · intro h
    cases h with
    | late m hm hlate => exact ⟨m, hm, hlate⟩
    | stops m _ hm hin hstop => cases hstop
  · rintro ⟨m, hm, hlate⟩
    exact .late m hm hlate

theorem runWithin_ne_refused {k : Nat} {s : State} (hs : s.status = .running) (r : Refusal) :
    runWithin k s ≠ .refused r := by
  rw [Ne, runWithin_eq_iff hs]
  rintro (⟨⟨⟩, -⟩ | ⟨j, u, -, -, ⟨⟩⟩)

theorem runWithinTicks_ne_refused {n : Nat} {s : State} (hs : s.status = .running) (r : Refusal) :
    runWithinTicks n s ≠ .refused r := by
  rw [Ne, runWithinTicks_eq_iff hs]
  rintro ⟨j, u, -, he⟩
  cases he with
  | stops _ _ _ _ hstop => cases hstop

/-- Settles O53: the status by the frame of each instruction, and each end of a run by the step it names. -/
theorem runEndsOnlyByHltOrAFault : Obligations.RunEndsOnlyByHltOrAFault := by
  refine ⟨exec_ne_refused, fun s => ⟨?_, fun hs => ⟨_, step_of_not_running hs⟩⟩,
    fun s t h => ⟨running_or_halted_of_step h, halted_iff_hlt h⟩, rfl, fun k s hs => ⟨fun t => ?_, fun f => ?_, ?_,
      fun t => ?_, fun f => ?_, ?_, fun r => ⟨runWithin_ne_refused hs r, runWithinTicks_ne_refused hs r⟩⟩⟩
  · rintro ⟨r, hr⟩ hs
    exact step_ne_refused hs r hr
  · simp [HaltsWithin, runWithin_eq_iff hs, stopsAs_halted]
  · simp [runWithin_eq_iff hs, stopsAs_faulted]
  · have hno : ∀ u, ¬ StopsAs u .aborted := nofun
    simp [runWithin_eq_iff hs, hno]
  · simp [HaltsWithinTicks, runWithinTicks_eq_iff hs, endsAs_halted]
  · simp [runWithinTicks_eq_iff hs, endsAs_faulted]
  · simp [runWithinTicks_eq_iff hs, endsAs_aborted]

end Sys2Proof.Machine
end

section
/-! PROOFS, the launch (30_encoding.md section 6, 70_reset_and_hazards.md section 1): what the checks say of an image, and what a
launch that passes them loads. -/

namespace Sys2Proof.Machine

/-! ### The checks -/

theorem isCell_iff {x : Int} : isCell x = true ↔ 0 ≤ x ∧ x ≤ 255 := by
  rw [isCell, decide_eq_true_eq]
  change 0 ≤ x ∧ x < 256 ↔ _
  omega

theorem isAddress_iff {x : Int} : isAddress x = true ↔ 0 ≤ x ∧ x ≤ 65535 := by
  rw [isAddress, decide_eq_true_eq]
  change 0 ≤ x ∧ x < 65536 ↔ _
  omega

theorem isTableByte_iff {e : Element} : e.isTableByte = true ↔ ∃ b, e = .data b ∧ 0 ≤ b ∧ b ≤ 255 := by
  cases e with
  | data b => simp [Element.isTableByte, isCell_iff]
  | instr r => simp [Element.isTableByte]

theorem isRecord_iff {e : Element} : e.isRecord = true ↔ ∃ r, e = .instr r := by
  cases e <;> simp [Element.isRecord]

/-- What holds of the first `n` elements and of the rest, place by place. -/
theorem forall_take_drop_iff {α : Type} {P Q : α → Prop} {l : List α} {n : Nat} :
    ((∀ e ∈ l.take n, P e) ∧ ∀ e ∈ l.drop n, Q e) ↔ ∀ j e, l[j]? = some e → if j < n then P e else Q e := by
  constructor
  · rintro ⟨hP, hQ⟩ j e he
    split
    · next hj => exact hP e (List.mem_of_getElem? (i := j) (by rw [List.getElem?_take_of_lt hj, he]))
    · next hj =>
      refine hQ e (List.mem_of_getElem? (i := j - n) ?_)
      rw [List.getElem?_drop, Nat.add_sub_cancel' (Nat.le_of_not_lt hj), he]
  · refine fun h => ⟨fun e he => ?_, fun e he => ?_⟩
    · obtain ⟨j, hj⟩ := List.getElem?_of_mem he
      rw [List.getElem?_take, Option.ite_none_right_eq_some] at hj
      obtain ⟨hlt, hget⟩ := hj
      have := h j e hget
      rwa [if_pos hlt] at this
    · obtain ⟨j, hj⟩ := List.getElem?_of_mem he
      rw [List.getElem?_drop] at hj
      have := h (n + j) e hj
      rwa [if_neg (by omega)] at this

/-- The form of a well-formed image's sequence (R112 b, c). -/
theorem code_layout_iff {code : List Element} :
    (code.take Config.programBase).all Element.isTableByte = true ∧
      (code.drop Config.programBase).all Element.isRecord = true ↔
    ∀ j e, code[j]? = some e → if j < 192 then ∃ b, e = .data b ∧ 0 ≤ b ∧ b ≤ 255 else ∃ r, e = .instr r := by
  rw [List.all_eq_true, List.all_eq_true]
  simp only [isTableByte_iff, isRecord_iff]
  exact forall_take_drop_iff

/-- The form of a well-formed image's RAM entries (R112 d). -/
theorem ram_entries_iff {ram : List (Int × Int)} :
    ram.all (fun e => isAddress e.1 && isCell e.2) = true ↔ ∀ e ∈ ram, 0 ≤ e.1 ∧ e.1 ≤ 65535 ∧ 0 ≤ e.2 ∧ e.2 ≤ 255 := by
  simp only [List.all_eq_true, Bool.and_eq_true, isAddress_iff, isCell_iff, and_assoc]

theorem launch_wf_iff {l : Launch} :
    l.wf = true ↔
      l.image.code.length ≤ 65536 ∧ 192 ≤ l.image.code.length ∧
      (∀ j e, l.image.code[j]? = some e →
        if j < 192 then ∃ b, e = .data b ∧ 0 ≤ b ∧ b ≤ 255 else ∃ r, e = .instr r) ∧
      (∀ e ∈ l.image.ram, 0 ≤ e.1 ∧ e.1 ≤ 65535 ∧ 0 ≤ e.2 ∧ e.2 ≤ 255) ∧ (∀ x ∈ l.input, 0 ≤ x ∧ x ≤ 255) ∧
      (l.image.ram.map Prod.fst).Nodup ∧ Stack.dataWf l.dsData ∧ Stack.dataWf l.rsData := by
  rw [← code_layout_iff, ← ram_entries_iff]
  simp only [← isCell_iff, ← List.all_eq_true, Launch.wf, Image.wf, Bool.and_eq_true, decide_eq_true_eq]
  constructor
  · rintro ⟨⟨⟨⟨⟨⟨⟨⟨hmax, hmin⟩, hdata⟩, hrecs⟩, hram⟩, honce⟩, hin⟩, hds⟩, hrs⟩
    exact ⟨hmax, hmin, ⟨hdata, hrecs⟩, hram, hin, honce, hds, hrs⟩
  · rintro ⟨hmax, hmin, ⟨hdata, hrecs⟩, hram, hin, honce, hds, hrs⟩
    exact ⟨⟨⟨⟨⟨⟨⟨⟨hmax, hmin⟩, hdata⟩, hrecs⟩, hram⟩, honce⟩, hin⟩, hds⟩, hrs⟩

/-! ### What is loaded -/

/-- Every slot after the load of a sequence of at least the tables: its element, or empty beyond its end. -/
theorem loadCode_read_eq {code : List Element} (hmax : code.length ≤ 65536) (hmin : 192 ≤ code.length) (a : Addr) :
    (loadCode 0 code []).read a = ((code[a.toNat]?).map Element.slot).getD .empty := by
  rw [loadCode_read code 0 [] a (by omega)]
  split
  · rfl
  · next hout =>
    have hlen : code.length ≤ a.toNat := by omega
    rw [List.getElem?_eq_none hlen]
    exact if_neg (by change ¬ a.toNat < 192; omega)

/-- A loaded sequence has an image's layout (R66). -/
theorem imageShaped_of_loaded {s : State} {code : List Element} (hmin : 192 ≤ code.length)
    (hread : ∀ a : Addr, s.imem.read a = ((code[a.toNat]?).map Element.slot).getD .empty)
    (hcode : ∀ j e, code[j]? = some e → if j < 192 then ∃ b, e = .data b ∧ 0 ≤ b ∧ b ≤ 255 else ∃ r, e = .instr r) :
    s.ImageShaped := by
  intro a
  rw [hread]
  change if a.toNat < 192 then _ else _
  cases helem : code[a.toNat]? with
  | none =>
    have := List.getElem?_eq_none_iff.mp helem
    rw [if_neg (by omega)]
    nofun
  | some e =>
    have hform := hcode _ e helem
    split
    · next hlt =>
      rw [if_pos hlt] at hform
      obtain ⟨b, rfl, -⟩ := hform
      exact ⟨_, rfl⟩
    · next hge =>
      rw [if_neg hge] at hform
      obtain ⟨r, rfl⟩ := hform
      nofun

/-- An entry's address is no other address. -/
theorem ofInt_ne_of_ne {x : Int} {a : Addr} (hrange : 0 ≤ x ∧ x ≤ 65535) (hne : x ≠ (a.toNat : Int)) :
    BitVec.ofInt 16 x ≠ a := by
  rintro rfl
  rw [BitVec.toNat_ofInt] at hne
  change x ≠ ((x % 65536).toNat : Int) at hne
  omega

/-- A stack at its sentinel is empty, whatever its array holds (D30). -/
theorem depth_reset_data (m : Memory) : Stack.depth { Stack.reset with data := m } = 0 :=
  (Stack.depth_eq_zero _).mpr rfl

/-- Settles O59: the checks one by one; the slots and the RAM cells by what a load leaves, and the registers by definition. -/
theorem launchLoadsTheImage : Obligations.LaunchLoadsTheImage := by
  refine fun l => ⟨launch_wf_iff, fun h => by rw [boot, h, if_neg nofun], fun h => ?_⟩
  obtain ⟨hmax, hmin, hcode, hram, -, honce, hds, hrs⟩ := launch_wf_iff.mp h
  have hread := loadCode_read_eq hmax hmin
  have hrange : ∀ e ∈ l.image.ram, 0 ≤ e.1 ∧ e.1 ≤ 65535 := fun e he => ⟨(hram e he).1, (hram e he).2.1⟩
  rw [boot, if_pos h]
  refine ⟨_, rfl, ⟨⟨loadRam_wf Memory.wf_nil, hds, hrs, loadCode_wf (by decide)⟩, imageShaped_of_loaded hmin hread hcode, nofun⟩,
    hread, fun e he => loadRam_read_of_mem honce hrange he,
    fun a ha => loadRam_read_of_ne fun e he => ofInt_ne_of_ne (hrange e he) (ha e he), rfl, rfl,
    depth_reset_data _, rfl, rfl, depth_reset_data _, rfl, rfl, rfl, rfl, rfl, rfl, rfl⟩

end Sys2Proof.Machine
end

section
/-! PROOFS, the observer's ticks (60_exceptions.md R268): how many a step shows, the two of a table read, and the whole run. -/

namespace Sys2Proof.Machine

/-! ### The two ticks of a table read -/

/-- The ticks of a table read whose slot holds two data bytes; `latchHi` must not change instruction memory. -/
theorem ticksFrom_of_slot {s : State} {base k : Nat} {h l : Cell} {latchHi latchLo : Cell → State → State}
    (keeps : ∀ b u, (latchHi b u).imem = u.imem) (hslot : TableSlot s base k h l) :
    ticksFrom base k latchHi latchLo s =
      some { start := s, high := latchHi h s, low := latchLo l (latchHi h s) } := by
  obtain ⟨hhi, hlo⟩ := tableSlot_iff.mp hslot
  exact ticksFrom_eq_some.mpr ⟨rfl, (tableTicks_eq_ok keeps).mpr ⟨h, l, hhi, hlo, rfl, rfl⟩⟩

/-- What the ticks of a table read are to the state `u` its instruction is executed in and the state `t` after it: CALL and JMPA
write pc by halves and are done, LOAD writes `ad`, which no snapshot shows, and then pushes. -/
inductive TableRun (u t : State) : Instr → TableTicks → Prop where
  | load (k : Nat) (h l c : Cell) (ht : t = pushDs c (u.withAd (h ++ l))) :
    TableRun u t (.load k) { start := u, high := latchHigh h u, low := u.withAd (h ++ l) }
  | call (k : Nat) (h l : Cell) (hslot : TableSlot u 64 k h l) (ht : t = (pushReturn u).withPc (h ++ l)) :
    TableRun u t (.call k) { start := pushReturn u, high := latchPcHigh h (pushReturn u), low := t }
  | jmpa (k : Nat) (h l : Cell) (hslot : TableSlot u 128 k h l) (ht : t = u.withPc (h ++ l)) :
    TableRun u t (.jmpa k) { start := u, high := latchPcHigh h u, low := t }

/-- A table-indirect instruction that answers has the ticks of its table read. -/
theorem tableRun_of_exec {i : Instr} {u t : State} (h : exec i u = .next t) :
    (tableTickStates i u = none ∧ leastTicks i = 1) ∨ ∃ x, tableTickStates i u = some x ∧ TableRun u t i x := by
  cases i with
  | load k =>
    obtain ⟨v, hread, ht⟩ := bind_eq_ok.mp (finish_eq_next.mp h)
    obtain ⟨hi, lo, hhi, hlo, rfl⟩ := (tableRead_eq_ok (latchHi := latchHigh) (fun _ _ => rfl)).mp hread
    rw [latch_high_then_low] at ht
    cases ht
    have hticks := ticksFrom_of_slot (latchHi := latchHigh) (latchLo := latchLow) (fun _ _ => rfl) (tableSlot_iff.mpr ⟨hhi, hlo⟩)
    rw [latch_high_then_low] at hticks
    exact .inr ⟨_, hticks, .load k hi lo _ rfl⟩
  | call k =>
    obtain ⟨hi, lo, hslot, rfl⟩ := exec_call_eq_next h
    have hticks := ticksFrom_of_slot (s := pushReturn u) (latchHi := latchPcHigh) (latchLo := latchPcLow) (fun _ _ => rfl) hslot
    rw [latchPc_high_then_low] at hticks
    exact .inr ⟨_, hticks, .call k hi lo hslot rfl⟩
  | jmpa k =>
    obtain ⟨hi, lo, hslot, rfl⟩ := slot_of_tableRead_pc (finish_eq_next.mp h)
    have hticks := ticksFrom_of_slot (latchHi := latchPcHigh) (latchLo := latchPcLow) (fun _ _ => rfl) hslot
    rw [latchPc_high_then_low] at hticks
    exact .inr ⟨_, hticks, .jmpa k hi lo hslot rfl⟩
  | _ => exact .inl ⟨rfl, rfl⟩

theorem tickSnapshots_of_none {i : Instr} {s u t : State} (h : tableTickStates i u = none) :
    tickSnapshots i s u t = (List.range (Config.freeTicks t.draws)).map
      (fun tick => phased t.draws tick s u (executing t.draws tick (writeSet i) u t)) ++ [snapshot t] := by
  rw [tickSnapshots, h]

/-- As many snapshots as the instruction has ticks. -/
theorem tickSnapshots_length {i : Instr} {s u t : State} (h : exec i u = .next t) :
    (tickSnapshots i s u t).length = leastTicks i + Config.freeTicks t.draws := by
  obtain ⟨hnone, hleast⟩ | ⟨x, hx, -⟩ := tableRun_of_exec h
  · rw [tickSnapshots_of_none hnone, hleast, List.length_append, List.length_map, List.length_range]
    exact Nat.add_comm _ 1
  · exact tickSnapshots_length_of_table hx

/-- The table read's two ticks follow each other; where no tick comes after the second, that shows the state after the
instruction. -/
theorem tickSnapshots_of_table {i : Instr} {s u t : State} {x : TableTicks} (h : tableTickStates i u = some x) :
    ∃ before a after, tickSnapshots i s u t = before ++ snapshot x.high :: a :: after ∧
      (a = snapshot t ∨ a = snapshot x.low) := by
  rw [tickSnapshots, h]
  dsimp only
  split
  · exact ⟨_, _, [], rfl, .inl rfl⟩
  · exact ⟨_, _, _, rfl, .inr rfl⟩

/-! ### The snapshots of a step -/

/-- A step that answers shows as many snapshots as it adds ticks. -/
theorem tick_of_observeStep {s t : State} (h : step s = .next t) : t.tick = s.tick + (observeStep s).length := by
  obtain ⟨hs, r, i, u, hslot, hi, hexec, rfl⟩ := step_eq_next.mp h
  rw [observeStep_of_next hs hslot hi hexec, tickSnapshots_length hexec, tick_of_exec hexec, Nat.add_assoc]

theorem observeStep_getLast {s t : State} (h : step s = .next t) : (observeStep s).getLast? = some (snapshot t) := by
  obtain ⟨hs, r, i, u, hslot, hi, hexec, rfl⟩ := step_eq_next.mp h
  rw [observeStep_of_next hs hslot hi hexec, tickSnapshots_getLast, snapshot_addTicks]

theorem tableSlot_unique {s : State} {base k : Nat} {h l h' l' : Cell} (hslot : TableSlot s base k h l)
    (hslot' : TableSlot s base k h' l') : h = h' ∧ l = l' := by
  obtain ⟨hhi, hlo⟩ := hslot
  obtain ⟨hhi', hlo'⟩ := hslot'
  exact ⟨Slot.data.inj (hhi.symm.trans hhi'), Slot.data.inj (hlo.symm.trans hlo')⟩

/-- A table read into pc that starts in `v` and leaves both halves shows the half-written pc and then the state after it. -/
theorem tickSnapshots_of_pc_read {i : Instr} {s u v t : State} {h l : Cell}
    (hticks : tableTickStates i u = some { start := v, high := latchPcHigh h v, low := t }) (ht : t = v.withPc (h ++ l)) :
    ∃ before after, tickSnapshots i s u t =
      before ++ { snapshot t with pc := h ++ lowHalf v.pc } :: snapshot t :: after := by
  obtain ⟨before, a, after, hshown, ha⟩ := tickSnapshots_of_table (s := s) (t := t) hticks
  have ha : a = snapshot t := ha.elim id id
  have hhigh : snapshot (latchPcHigh h v) = { snapshot t with pc := h ++ lowHalf v.pc } := by
    rw [ht]
    rfl
  exact ⟨before, after, by rw [hshown, ha, hhigh]⟩

/-- A CALL or JMPA shows the half-written pc and then both halves (R68). -/
theorem tickSnapshots_of_table_jump {i : Instr} {s u t : State} {k : Nat} {h l : Cell}
    (hi : i = .call k ∧ TableSlot u 64 k h l ∨ i = .jmpa k ∧ TableSlot u 128 k h l) (hexec : exec i u = .next t) :
    ∃ before after, tickSnapshots i s u t =
      before ++ { snapshot t with pc := h ++ lowHalf u.pc } :: snapshot t :: after := by
  obtain ⟨-, hleast⟩ | ⟨x, hx, hrun⟩ := tableRun_of_exec hexec
  · obtain ⟨rfl, -⟩ | ⟨rfl, -⟩ := hi <;> cases hleast
  cases hrun with
  | load => obtain ⟨⟨⟩, -⟩ | ⟨⟨⟩, -⟩ := hi
  | call _ h' l' hslot ht =>
    obtain ⟨⟨⟩, htable⟩ | ⟨⟨⟩, -⟩ := hi
    obtain ⟨rfl, rfl⟩ := tableSlot_unique htable hslot
    exact tickSnapshots_of_pc_read (v := pushReturn u) hx ht
  | jmpa _ h' l' hslot ht =>
    obtain ⟨⟨⟩, -⟩ | ⟨⟨⟩, htable⟩ := hi
    obtain ⟨rfl, rfl⟩ := tableSlot_unique htable hslot
    exact tickSnapshots_of_pc_read hx ht

/-- The same of the step that runs it. -/
theorem observeStep_of_table_jump {s t : State} {r : Record} {k : Nat} {h l : Cell} (hstep : step s = .next t)
    (hslot : s.imem.read s.pc = .instr r)
    (hi : decodeRecord r = .ok (.call k) ∧ TableSlot s 64 k h l ∨ decodeRecord r = .ok (.jmpa k) ∧ TableSlot s 128 k h l) :
    ∃ before after, observeStep s =
      before ++ { snapshot t with pc := h ++ (s.pc + 1).extractLsb' 0 8 } :: snapshot t :: after := by
  obtain ⟨i, hdecode, hjump⟩ : ∃ i, decodeRecord r = .ok i ∧
      (i = .call k ∧ TableSlot s 64 k h l ∨ i = .jmpa k ∧ TableSlot s 128 k h l) := by
    obtain ⟨hi, htable⟩ | ⟨hi, htable⟩ := hi
    · exact ⟨_, hi, .inl ⟨rfl, htable⟩⟩
    · exact ⟨_, hi, .inr ⟨rfl, htable⟩⟩
  obtain ⟨hs, u, hexec, rfl⟩ := exec_of_step_next hslot hdecode hstep
  have hshown := tickSnapshots_of_table_jump (s := s) (u := s.fetched r) hjump hexec
  rw [observeStep_of_next hs hslot hdecode hexec, snapshot_addTicks]
  exact hshown

/-- A LOAD shows, with a snapshot after it, one with DS as it was: the first tick of its table read. -/
theorem observeStep_of_load {s t : State} {r : Record} {k : Nat} (hstep : step s = .next t)
    (hslot : s.imem.read s.pc = .instr r) (hi : decodeRecord r = .ok (.load k)) :
    ∃ before a after, observeStep s =
      before ++ { snapshot t with dsSp := s.ds.sp, dsTos := s.ds.tos } :: a :: after := by
  obtain ⟨hs, u, hexec, rfl⟩ := exec_of_step_next hslot hi hstep
  obtain ⟨-, hleast⟩ | ⟨x, hx, hrun⟩ := tableRun_of_exec hexec
  · cases hleast
  · cases hrun with
    | load _ h l c ht =>
      obtain ⟨before, a, after, hshown, -⟩ := tickSnapshots_of_table (s := s) (t := u) hx
      have hhigh : snapshot (latchHigh h (s.fetched r)) = { snapshot u with dsSp := s.ds.sp, dsTos := s.ds.tos } := by
        rw [ht]
        rfl
      rw [observeStep_of_next hs hslot hi hexec, snapshot_addTicks, hshown, hhigh]
      exact ⟨before, a, after, rfl⟩

/-! ### The snapshots of a run -/

theorem observe_of_next {s t : State} (k : Nat) (h : step s = .next t) :
    observe (k + 1) s = observeStep s ++ if t.status = .halted then [] else observe k t := by
  rw [observe, h]

theorem observe_of_fault {s : State} {f : Fault} (k : Nat) (h : step s = .fault f) :
    observe (k + 1) s = observeStep s := by
  rw [observe, h, List.append_nil]

theorem observe_of_not_running {s : State} (hs : s.status ≠ .running) (k : Nat) : observe k s = [] := by
  cases k with
  | zero => rfl
  | succ k => rw [observe, observeStep_of_not_running hs, step_of_not_running hs, List.append_nil]

theorem faultSnapshots_length (s : State) (shown : Nat → Snapshot) :
    (faultSnapshots s shown).length = Config.faultTicks s.draws := by
  rw [faultSnapshots, List.length_map, List.length_range]

/-- The snapshots of a step whose record decodes to no instruction. -/
theorem observeStep_of_undecoded {s : State} {r : Record} {f : Fault} (hs : s.status = .running)
    (hslot : s.imem.read s.pc = .instr r) (h : decodeFetched r (s.fetched r) = .error f) :
    observeStep s = faultSnapshots s fun tick => phased s.draws tick s (s.fetched r) (snapshot (s.fetched r)) := by
  simp only [observeStep, hs, fetch, hslot, h]

/-- A step that faults shows as many snapshots as it has counted ticks. -/
theorem observeStep_length_of_fault {s : State} {f : Fault} (hs : s.status = .running) (h : step s = .fault f) :
    (observeStep s).length = Config.faultTicks s.draws := by
  obtain hfetch | ⟨r, hslot, hdecode | ⟨i, hi, hexec⟩⟩ := step_fault_cases h
  · have hno : ∀ r, s.imem.read s.pc ≠ .instr r := fun r hr => by
      rw [fetch_eq_ok.mpr ⟨hr, rfl⟩] at hfetch
      cases hfetch
    rw [observeStep_of_no_record hs hno, faultSnapshots_length]
  · rw [observeStep_of_undecoded hs hslot hdecode, faultSnapshots_length]
  · rw [observeStep_of_fault hs hslot hi hexec, faultSnapshots_length]

/-- A run aborted at the tick `limit` has shown every tick up to it, within as many instructions as there are ticks left. -/
theorem le_observe_length_of_aborted {limit k : Nat} {s : State} (h : runToTick limit (k + 1) s = .aborted)
    (hk : limit ≤ s.tick + k) : limit ≤ s.tick + (observe k s).length := by
  induction k generalizing s with
  | zero => exact hk
  | succ k ih =>
    cases hstep : step s with
    | next t =>
      have htick := tick_of_observeStep hstep
      have hlt := tick_lt_of_step_next hstep
      rw [runToTick_of_next hstep] at h
      rw [observe_of_next k hstep, List.length_append]
      split at h
      · omega
      · split at h
        · cases h
        · next hhalt =>
          have := ih h (by omega)
          rw [if_neg hhalt]
          omega
    | fault f =>
      have hs : s.status = .running := by
        by_contra hs
        rw [step_of_not_running hs] at hstep
        cases hstep
      rw [runToTick_of_fault hstep] at h
      rw [observe_of_fault k hstep, observeStep_length_of_fault hs hstep]
      split at h
      · omega
      · cases h
    | refused r =>
      rw [runToTick, hstep] at h
      cases h

/-- A run that a budget of ticks aborts has shown one snapshot a tick. -/
theorem observeWithinTicks_length {n : Nat} {s : State} (h : runWithinTicks n s = .aborted) :
    (observeWithinTicks n s).length = n := by
  have hshown := le_observe_length_of_aborted h le_rfl
  rw [observeWithinTicks, List.length_take]
  omega

end Sys2Proof.Machine
end

section
/-! PROOFS, what a tick can show (10_state.md R23, 20_memory.md R59, 40_execution_cycle.md R124). -/

namespace Sys2Proof.Machine

/-! ### A register the instruction does not write -/

/-- The writes `how` leave the registers that `i`'s families say it does not write. -/
structure Untouched (i : Instr) (how : WriteSet) : Prop where
  flags : writesFlags i = false → how.z = .never ∧ how.n = .never ∧ how.v = .never
  ds : writesDs i = false → how.dsSp = .never ∧ how.dsTos = .never
  rs : writesRs i = false → how.rsSp = .never ∧ how.rsTos = .never
  pc : transfersControl i = false → how.pc = .never

theorem writeSet_untouched (i : Instr) : Untouched i (writeSet i) where
  flags h := by cases i <;> cases h <;> exact ⟨rfl, rfl, rfl⟩
  ds h := by cases i <;> cases h <;> exact ⟨rfl, rfl⟩
  rs h := by cases i <;> cases h <;> exact ⟨rfl, rfl⟩
  pc h := by cases i <;> cases h <;> rfl

/-- An instruction that faults leaves what it does not write when it ends. -/
theorem faultWriteSet_untouched (i : Instr) : Untouched i (faultWriteSet i) where
  flags h := by
    obtain ⟨hz, hn, hv⟩ := (writeSet_untouched i).flags h
    simp only [faultWriteSet, hz, hn, hv, cut_never, and_self]
  ds h := by
    obtain ⟨hsp, htos⟩ := (writeSet_untouched i).ds h
    simp only [faultWriteSet, hsp, htos, cut_never, and_self]
  rs h := by
    obtain ⟨hsp, htos⟩ := (writeSet_untouched i).rs h
    simp only [faultWriteSet, hsp, htos, cut_never, and_self]
  pc h := by cases i <;> cases h <;> rfl

/-- pc is written by one transfer or by none. -/
theorem writeSet_pc (i : Instr) : (writeSet i).pc = .never ∨ (writeSet i).pc = .once := by
  cases i with
  | jmpr _ | jz _ | jl _ | jo _ | jmpa _ | call _ | ret => exact .inr rfl
  | _ => exact .inl rfl

/-- An execution shows pc as it was or as it will be. -/
theorem executing_pc (draw tick : Nat) (i : Instr) (old new : State) :
    (executing draw tick (writeSet i) old new).pc = old.pc ∨ (executing draw tick (writeSet i) old new).pc = new.pc := by
  change (writeSet i).pc.shows _ _ _ _ = _ ∨ (writeSet i).pc.shows _ _ _ _ = _
  obtain hpc | hpc := writeSet_pc i
  · rw [hpc]
    exact .inl rfl
  · rw [hpc]
    exact shows_once _ _ _ _

/-! ### What a snapshot of a state shows -/

section
variable {s t u : State} {r : Record} {i : Instr} {how : WriteSet}

theorem fixed_snapshot_before (s : State) (r : Record) (i : Instr) : FixedAtATick s r i (snapshot s) :=
  ⟨.inl rfl, fun _ => rfl, fun _ => ⟨rfl, rfl⟩, fun _ => ⟨rfl, rfl⟩, fun _ => .inl rfl⟩

/-- Before the decode the metadata is still that of the instruction before. -/
theorem fixed_snapshot_undecoded (s : State) (r : Record) (i : Instr) :
    FixedAtATick s r i { snapshot (s.fetched r) with debug := s.debug } :=
  ⟨.inl rfl, fun _ => rfl, fun _ => ⟨rfl, rfl⟩, fun _ => ⟨rfl, rfl⟩, fun _ => .inr rfl⟩

theorem fixed_snapshot_fetched (s : State) (r : Record) (i : Instr) : FixedAtATick s r i (snapshot (s.fetched r)) :=
  ⟨.inr rfl, fun _ => rfl, fun _ => ⟨rfl, rfl⟩, fun _ => ⟨rfl, rfl⟩, fun _ => .inr rfl⟩

/-- The state after an instruction that answers shows what it keeps. -/
theorem fixed_snapshot_after (h : exec i (s.fetched r) = .next t) : FixedAtATick s r i (snapshot t) := by
  have hkept := exec_kept h
  refine ⟨.inr hkept.debug, fun hi => ?_, fun hi => ?_, fun hi => ?_, fun hi => .inr (hkept.pc hi)⟩
  · exact congrArg Flags.bits (hkept.flags hi)
  · exact ⟨congrArg Stack.sp (hkept.ds hi), congrArg Stack.tos (hkept.ds hi)⟩
  · exact ⟨congrArg Stack.sp (hkept.rs hi), congrArg Stack.tos (hkept.rs hi)⟩

/-- An execution from a state that shows what the rules fix shows it too, if it writes only what the instruction does. -/
theorem fixed_executing (hhow : Untouched i how) (hold : FixedAtATick s r i (snapshot u)) (draw tick : Nat) (new : State) :
    FixedAtATick s r i (executing draw tick how u new) := by
  obtain ⟨hdebug, hflags, hds, hrs, hpc⟩ := hold
  refine ⟨hdebug, fun hi => ?_, fun hi => ?_, fun hi => ?_, fun hi => ?_⟩
  · obtain ⟨hz, hn, hv⟩ := hhow.flags hi
    change (flagsDuring draw tick how u.flags new.flags).bits = _
    rw [flagsDuring_of_never hz hn hv]
    exact hflags hi
  · obtain ⟨hsp, htos⟩ := hhow.ds hi
    change how.dsSp.shows _ _ _ _ = _ ∧ how.dsTos.shows _ _ _ _ = _
    rw [hsp, htos]
    exact hds hi
  · obtain ⟨hsp, htos⟩ := hhow.rs hi
    change how.rsSp.shows _ _ _ _ = _ ∧ how.rsTos.shows _ _ _ _ = _
    rw [hsp, htos]
    exact hrs hi
  · change how.pc.shows _ _ _ _ = _ ∨ how.pc.shows _ _ _ _ = _
    rw [hhow.pc hi]
    exact hpc hi

/-! ### After a table read -/

@[simp] theorem shows_once_same {α : Type} (x free : α) (written : Bool) : Writes.once.shows x x free written = x := by
  cases written <;> rfl

/-- An execution that is done shows the state it has left. -/
theorem executing_done (draw tick : Nat) (t : State) : executing draw tick writesAfterTable t t = snapshot t := by
  simp only [executing, flagsDuring, writesAfterTable, shows_once_same]
  rfl

/-- A push shows nothing new but in DS. -/
theorem executing_push (draw tick : Nat) (c : Cell) (u : State) :
    ∃ p x, executing draw tick writesAfterTable u (pushDs c u) = { snapshot u with dsSp := p, dsTos := x } := by
  simp only [executing, flagsDuring, writesAfterTable, pushDs, State.withDs_pc, State.withDs_rs, State.withDs_flags,
    shows_once_same]
  exact ⟨_, _, rfl⟩

/-- pc of a snapshot of a cycle from `s` that runs `i` to `t`: the slot, one past it, where it leads, or the half-written target of
a table read. -/
def PcSeen (s t : State) (i : Instr) (x : Snapshot) : Prop :=
  x.pc = s.pc ∨ x.pc = s.pc + 1 ∨ x.pc = t.pc ∨
    ((∃ k, i = .call k ∨ i = .jmpa k) ∧ x.pc = t.pc.extractLsb' 8 8 ++ (s.pc + 1).extractLsb' 0 8)

/-- A table read and what comes after it show what the rules fix. -/
theorem fixed_of_tableRun {x : TableTicks} (h : exec i (s.fetched r) = .next t) (hrun : TableRun (s.fetched r) t i x) :
    FixedAtATick s r i (snapshot x.high) ∧ FixedAtATick s r i (snapshot x.low) ∧
      ∀ draw tick, FixedAtATick s r i (executing draw tick writesAfterTable x.low t) := by
  have hlast := fixed_snapshot_after h
  cases hrun with
  | load k hi lo c ht =>
    refine ⟨fixed_snapshot_fetched s r _, fixed_snapshot_fetched s r _, fun draw tick => ?_⟩
    obtain ⟨p, y, hshown⟩ := executing_push draw tick c ((s.fetched r).withAd (hi ++ lo))
    rw [ht, hshown]
    exact ⟨.inr rfl, fun _ => rfl, nofun, fun _ => ⟨rfl, rfl⟩, fun _ => .inr rfl⟩
  | call k hi lo hslot ht =>
    refine ⟨⟨.inr rfl, fun _ => rfl, fun _ => ⟨rfl, rfl⟩, nofun, nofun⟩, hlast, fun draw tick => ?_⟩
    rw [executing_done]
    exact hlast
  | jmpa k hi lo hslot ht =>
    refine ⟨⟨.inr rfl, fun _ => rfl, fun _ => ⟨rfl, rfl⟩, fun _ => ⟨rfl, rfl⟩, nofun⟩, hlast, fun draw tick => ?_⟩
    rw [executing_done]
    exact hlast

/-- The half-written pc of a table read, by the target it leads to. -/
theorem half_written_pc (hi lo : Cell) (a : Addr) : hi ++ lowHalf a = (hi ++ lo : Addr).extractLsb' 8 8 ++ a.extractLsb' 0 8 :=
  congrArg (· ++ lowHalf a) (high_of_append hi lo).symm

/-- A table read and what comes after it show pc as it was, half-written, or where it leads. -/
theorem pcSeen_of_tableRun {x : TableTicks} (hrun : TableRun (s.fetched r) t i x) :
    PcSeen s t i (snapshot x.high) ∧ PcSeen s t i (snapshot x.low) ∧
      ∀ draw tick, PcSeen s t i (executing draw tick writesAfterTable x.low t) := by
  cases hrun with
  | load k hi lo c ht =>
    refine ⟨.inr (.inl rfl), .inr (.inl rfl), fun draw tick => ?_⟩
    obtain ⟨p, y, hshown⟩ := executing_push draw tick c ((s.fetched r).withAd (hi ++ lo))
    rw [ht, hshown]
    exact .inr (.inl rfl)
  | call k hi lo hslot ht =>
    refine ⟨.inr (.inr (.inr ⟨⟨k, .inl rfl⟩, ?_⟩)), .inr (.inr (.inl rfl)), fun draw tick => ?_⟩
    · rw [ht]
      exact half_written_pc hi lo (s.pc + 1)
    · rw [executing_done]
      exact .inr (.inr (.inl rfl))
  | jmpa k hi lo hslot ht =>
    refine ⟨.inr (.inr (.inr ⟨⟨k, .inr rfl⟩, ?_⟩)), .inr (.inr (.inl rfl)), fun draw tick => ?_⟩
    · rw [ht]
      exact half_written_pc hi lo (s.pc + 1)
    · rw [executing_done]
      exact .inr (.inr (.inl rfl))

theorem start_pc_of_tableRun {x : TableTicks} (hrun : TableRun u t i x) : x.start.pc = u.pc := by
  cases hrun <;> rfl

/-! ### The snapshots of an instruction -/

/-- What holds of each kind of snapshot an instruction that answers shows holds of all. -/
theorem forall_tickSnapshots {P : Snapshot → Prop} (h : exec i u = .next t)
    (hbefore : P (snapshot s)) (hundecoded : P { snapshot u with debug := s.debug })
    (hexecuting : ∀ draw tick goal, goal.pc = u.pc ∨ goal.pc = t.pc → P (executing draw tick (writeSet i) u goal))
    (hlast : P (snapshot t))
    (htable : ∀ x, TableRun u t i x → P (snapshot x.high) ∧ P (snapshot x.low) ∧
      ∀ draw tick, P (executing draw tick writesAfterTable x.low t)) :
    ∀ x ∈ tickSnapshots i s u t, P x := by
  have hphased (goal : State) (hgoal : goal.pc = u.pc ∨ goal.pc = t.pc) (tick : Nat) :
      P (phased t.draws tick s u (executing t.draws tick (writeSet i) u goal)) := by
    obtain hp | hp | hp := phased_cases t.draws tick s u (executing t.draws tick (writeSet i) u goal)
    · rw [hp]; exact hbefore
    · rw [hp]; exact hundecoded
    · rw [hp]; exact hexecuting _ _ _ hgoal
  obtain ⟨hnone, -⟩ | ⟨ticks, hticks, hrun⟩ := tableRun_of_exec h
  · rw [tickSnapshots_of_none hnone]
    simp only [List.mem_append, List.mem_map, List.mem_singleton]
    rintro x (⟨tick, -, rfl⟩ | rfl)
    · exact hphased t (.inr rfl) tick
    · exact hlast
  · obtain ⟨hhigh, hlow, hafter⟩ := htable ticks hrun
    have hlead := hphased ticks.start (.inl (start_pc_of_tableRun hrun))
    rw [tickSnapshots, hticks]
    dsimp only
    split
    · simp only [List.mem_append, List.mem_map, List.mem_cons, List.not_mem_nil, or_false]
      rintro x (⟨tick, -, rfl⟩ | rfl | rfl)
      · exact hlead tick
      · exact hhigh
      · exact hlast
    · simp only [List.mem_append, List.mem_map, List.mem_cons, List.not_mem_nil, or_false]
      rintro x (⟨tick, -, rfl⟩ | rfl | (rfl | ⟨tick, -, rfl⟩) | rfl)
      · exact hlead tick
      · exact hhigh
      · exact hlow
      · exact hafter _ _
      · exact hlast

/-- Every snapshot of an instruction that answers. -/
theorem seen_of_next (h : exec i (s.fetched r) = .next t) :
    ∀ x ∈ tickSnapshots i s (s.fetched r) t, FixedAtATick s r i x ∧ PcSeen s t i x := by
  refine forall_tickSnapshots h ⟨fixed_snapshot_before s r i, .inl rfl⟩ ⟨fixed_snapshot_undecoded s r i, .inr (.inl rfl)⟩
    (fun draw tick goal hgoal => ⟨fixed_executing (writeSet_untouched i) (fixed_snapshot_fetched s r i) draw tick goal, ?_⟩)
    ⟨fixed_snapshot_after h, .inr (.inr (.inl rfl))⟩ fun x hrun => ?_
  · obtain hpc | hpc := executing_pc draw tick i (s.fetched r) goal
    · exact .inr (.inl hpc)
    · obtain hgoal | hgoal := hgoal
      · exact .inr (.inl (hpc.trans hgoal))
      · exact .inr (.inr (.inl (hpc.trans hgoal)))
  · obtain ⟨hhigh, hlow, hafter⟩ := fixed_of_tableRun h hrun
    obtain ⟨phigh, plow, pafter⟩ := pcSeen_of_tableRun hrun
    exact ⟨⟨hhigh, phigh⟩, ⟨hlow, plow⟩, fun draw tick => ⟨hafter draw tick, pafter draw tick⟩⟩

/-- Every snapshot of an instruction that faults. -/
theorem fixed_of_fault (s : State) (r : Record) (i : Instr) :
    ∀ x ∈ faultSnapshots s fun tick =>
      phased s.draws tick s (s.fetched r) (executing s.draws tick (faultWriteSet i) (s.fetched r) (s.fetched r)),
      FixedAtATick s r i x := by
  simp only [faultSnapshots, List.mem_map]
  rintro x ⟨tick, -, rfl⟩
  obtain hp | hp | hp := phased_cases s.draws tick s (s.fetched r)
    (executing s.draws tick (faultWriteSet i) (s.fetched r) (s.fetched r))
  · rw [hp]; exact fixed_snapshot_before s r i
  · rw [hp]; exact fixed_snapshot_undecoded s r i
  · rw [hp]; exact fixed_executing (faultWriteSet_untouched i) (fixed_snapshot_fetched s r i) _ _ _

/-- Every snapshot of a step whose slot holds an instruction. -/
theorem seen_of_step (hslot : s.imem.read s.pc = .instr r) (hi : decodeRecord r = .ok i) :
    ∀ x ∈ observeStep s, FixedAtATick s r i x ∧ ∀ t, step s = .next t → PcSeen s t i x := by
  intro x hx
  by_cases hs : s.status = .running
  swap
  · rw [observeStep_of_not_running hs] at hx
    cases hx
  have hstep := step_of_decoded hs hslot hi
  cases hexec : exec i (s.fetched r) with
  | next u =>
    rw [observeStep_of_next hs hslot hi hexec] at hx
    obtain ⟨hfixed, hpc⟩ := seen_of_next hexec x hx
    refine ⟨hfixed, fun t ht => ?_⟩
    rw [hstep, hexec] at ht
    cases ht
    exact hpc
  | fault f =>
    rw [observeStep_of_fault hs hslot hi hexec] at hx
    refine ⟨fixed_of_fault s r i x hx, fun t ht => ?_⟩
    rw [hstep, hexec] at ht
    cases ht
  | refused e => exact absurd hexec (exec_ne_refused i _ e)

end

/-- A step that finds no record shows the state as it was. -/
theorem observeStep_unchanged {s : State} (h : ∀ r, s.imem.read s.pc ≠ .instr r) : ∀ x ∈ observeStep s, x = snapshot s := by
  intro x hx
  by_cases hs : s.status = .running
  · rw [observeStep_of_no_record hs h, faultSnapshots, List.mem_map] at hx
    obtain ⟨_, -, rfl⟩ := hx
    rfl
  · rw [observeStep_of_not_running hs] at hx
    cases hx

/-- Settles O60, a clause at a time: the count and the last snapshot of a step, a run's snapshots, the ticks of a table read, what
any tick shows, and the snapshots of an aborted and of an ended run. -/
theorem observerSeesEveryTick : Obligations.ObserverSeesEveryTick :=
  ⟨fun _ _ h => ⟨tick_of_observeStep h, observeStep_getLast h, fun k => observe_of_next k h, fun _ _ _ _ hslot =>
      ⟨observeStep_of_table_jump h hslot, observeStep_of_load h hslot⟩⟩,
    fun _ _ _ hslot hi => seen_of_step hslot hi, fun _ => observeStep_unchanged,
    fun _ _ => observeWithinTicks_length, fun _ hs k => observe_of_not_running hs k⟩

end Sys2Proof.Machine
end
